-- ==== Sys2Proof/Word.lean ====
section
/-! DEFINITION. The widths of the architecture: the 32-bit word of registers, the program counter and addresses
(R6 `XLEN`, R9), the 16-bit base word of an instruction (R57), and the byte of the memory substrate (R36). -/

namespace Sys2Proof

/-- A register, program-counter or address value: 32 bits, all arithmetic modulo 2^32 (R9). -/
abbrev Word := BitVec 32

/-- The 16-bit base word of an instruction (R57). -/
abbrev BaseWord := BitVec 16

/-- One byte of guest memory (R36). -/
abbrev Byte := BitVec 8

/-- A register number, or a special-register index: an unsigned slice of the base word, 4 bits wide in REF (R64, R67). -/
abbrev RegNum := Nat

/-- A condition: an unsigned slice of the base word, 4 bits wide in REF (R68). -/
abbrev CondCode := Nat

/-- A set of signals, one bit for each of the 64 slots of a thread (R139). -/
abbrev SigSet := BitVec 64

/-- Bit `k` of a word, as the Boolean a named flag holds (R8). -/
def Word.bit (v : Word) (k : Nat) : Bool := v.getLsbD k

end Sys2Proof
end

