-- ==== Sys2Proof/Syntax.lean ====
section
/-! DEFINITION. The instructions: one constructor per row of the opcode table (R70), each carrying the operand record
of its format (R68). Then what every decode table is made of (part A of 30_encoding.md): opcode ids, formats, attributes
and descriptors (R59), operand records (R64), field extractors and decode rules (R61). -/

namespace Sys2Proof

/-- An instruction of the REF table with its operand record (R64, R68). A PC-relative field is the absolute target the
decoder resolved, not the raw displacement (R91). The three rows of `MOVE_SPR_IMM` are three decode paths to one opcode
id that must stay distinct (R63), so each has its own constructor. -/
inductive Instr where
  /-- Row 1, `BCC_S` (R71). -/
  | bccS (cond : CondCode) (target : Word)
  /-- Row 2, `ADDQ` (R72): `imm` is the zero-extended field. -/
  | addq (rd : RegNum) (imm : Word)
  /-- Row 3, `MOVEQ` (R73): `imm` is the sign-extended field. -/
  | moveq (rd : RegNum) (imm : Word)
  /-- Row 4, `ADD_R` (R74). -/
  | addR (rd rs : RegNum)
  /-- Row 5, `LOAD_D` (R75): `am = true` is auto-increment. -/
  | loadD (am : Bool) (rd rs : RegNum)
  /-- Row 6, `BCC_W` (R76). -/
  | bccW (cond : CondCode) (target : Word)
  /-- Row 7, `TRAP` (R77). -/
  | trap
  /-- Row 8, `MOVE_SPR_IMM` by the specific path that latches `ps = 7` (R78). -/
  | moveSprImmP7 (imm : Word)
  /-- Row 9, `MOVE_SPR_IMM` by the specific path that latches `ps = 11` (R78). -/
  | moveSprImmP11 (imm : Word)
  /-- Row 10, `MOVE_SPR_IMM` by the generic path (R78). -/
  | moveSprImm (ps : RegNum) (imm : Word)
  /-- Row 11, `MOVE_SPR_REG` (R78). -/
  | moveSprReg (ps rs : RegNum)
  deriving DecidableEq, Repr

/-! ## Opcode ids, formats, attributes (R59, R60, R69) -/

/-- The opcode ids of an instruction table (R59): those of REF (R70), the INVALID sentinel, and any other a
`DECODE_TABLE` gives, by number. -/
inductive OpcodeId where
  | bccS | addq | moveq | addR | loadD | bccW | trap | moveSprImm | moveSprReg | invalid
  | other (n : Nat)
  deriving DecidableEq, Repr

/-- The semantic-format ids (R59): those of REF (R68), and any other a `DECODE_TABLE` gives, by number. -/
inductive Format where
  | none | pcrel8 | pcrel16 | quickU6 | quickS6 | rr | mem | sprImm | sprReg
  | other (n : Nat)
  deriving DecidableEq, Repr

/-- The attribute flags: those of REF (R69), and any other a `DECODE_TABLE` gives, by number. -/
inductive Attr where
  | branch | pcrel | mem | trap | ext
  | other (n : Nat)
  deriving DecidableEq, Repr

/-- An instruction descriptor (R59). -/
structure Descriptor where
  opcode : OpcodeId
  format : Format
  byteLength : Nat
  attrs : List Attr
  deriving DecidableEq, Repr

/-! ## Operand records and their extraction (R64) -/

/-- The names of the fields of an operand record: those of R68, and any other a `DECODE_TABLE` gives, by number. -/
inductive FieldName where
  | cond | target | rd | rs | imm | am | ps
  | other (n : Nat)
  deriving DecidableEq, Repr

/-- The value of a field of an operand record, of one of the kinds of R64. -/
inductive OperandValue where
  /-- (a) A register number; a special-register index and a condition are unsigned slices too (R68). -/
  | index (n : Nat)
  /-- (b) An immediate, extended to 32 bits. -/
  | immediate (v : Word)
  /-- (c) The addressing-mode bit. -/
  | modeBit (b : Bool)
  /-- (d) A PC-relative target, resolved to an absolute address. -/
  | target (a : Word)
  /-- (e) A constant the rule latches. -/
  | latched (v : Word)
  deriving DecidableEq, Repr

/-- A field of an operand record. -/
structure Operand where
  name : FieldName
  value : OperandValue
  deriving DecidableEq, Repr

/-- The displacement widths of R92 and R93. -/
inductive DispWidth where
  | w8
  | w16
  | w32
  deriving DecidableEq, Repr

/-- Where a field is sliced from: the base word or the extension (R64). -/
inductive FieldSource where
  | base
  | ext
  deriving DecidableEq, Repr

/-- How the value of a field is obtained, one constructor for each kind of R64. `lo` is the lowest bit of the slice. A
slice that runs past the end of its word is no refusal (DESIGN CHOICE, Log 27). -/
inductive Extractor where
  /-- (a) An unsigned slice of the base word. -/
  | index (lo width : Nat)
  /-- (b) A slice of the base word or the extension, zero- or sign-extended to 32 bits. -/
  | immediate (src : FieldSource) (lo width : Nat) (signed : Bool)
  /-- (c) One bit of the base word or the extension. -/
  | modeBit (src : FieldSource) (bit : Nat)
  /-- (d) A displacement, resolved at decode time (R91). -/
  | pcrel (src : FieldSource) (lo : Nat) (width : DispWidth)
  /-- (e) A constant. -/
  | latched (v : Word)
  deriving DecidableEq, Repr

/-- A field extractor of a decode rule (R61). -/
structure FieldExtractor where
  name : FieldName
  how : Extractor
  deriving DecidableEq, Repr

/-- A decode rule (R61). `pattern` is the rule's `match`. The constraint's mask and match have 32 bits for every `extLen`, so
that one wider than `8 * extLen` can be given (DESIGN CHOICE, Log 27). -/
structure DecodeRule where
  mask : BaseWord
  pattern : BaseWord
  extLen : Nat
  extConstraint : Option (Word × Word)
  opcode : OpcodeId
  format : Format
  attrs : List Attr
  fields : List FieldExtractor
  deriving DecidableEq, Repr

/-- What a decode gives for a word that is not INVALID (R81): the opcode id, which fixes the descriptor (R60), and the
operand record. -/
structure DecodedInstr where
  opcode : OpcodeId
  operands : List Operand
  deriving DecidableEq, Repr

end Sys2Proof
end

