-- ==== Sys2Proof/Machine/Effect.lean ====
section
/-! DEFINITION. The Register File (R14) with its named flags (R24), the final statuses of a run (R125), and what the
per-opcode semantics of a real table may do with them (R110). -/

namespace Sys2Proof.Machine

/-! ## The Register File -/

/-- The Register File of one logical thread (R14): nothing else is part of it. -/
structure RegFile where
  /-- The general registers `0` to `NUM_GPR-1` (R17). -/
  gpr : List Word
  /-- The program counter (R21). -/
  pc : Word
  /-- Mode (R25). -/
  m : Bool
  /-- Carry (R26). -/
  c : Bool
  /-- Zero (R26). -/
  z : Bool
  /-- Negative (R26). -/
  n : Bool
  /-- Overflow (R26). -/
  v : Bool
  /-- Extend (R26): storage only. -/
  x : Bool
  /-- Interrupt-enable (R26): storage only. -/
  i : Bool
  /-- The privilege/shadow bits `PS[0]` to `PS[NUM_PS-1]` (R24): storage only. -/
  ps : List Bool
  deriving DecidableEq, Repr, Inhabited

/-- A named flag (R24, R98). -/
inductive Flag where
  | M | C | Z | N | V | X | I
  | PS (k : Nat)
  deriving DecidableEq, Repr

/-! ## What the per-opcode semantics may do (R110) -/

/-- The five final statuses of R125. -/
inductive FinalStatus where
  | exit (code : Word)
  | fault
  | illegalInstruction
  | abort
  | unsupportedHalt
  deriving DecidableEq, Repr

/-- The effect of one instruction, as `EXEC` may have it (R110): a finite sequence of the operations of 41_regfile_ops.md
and of `MemRead` and `MemWrite` (R10), each able to depend on what the earlier ones returned, that ends with an optional
branch target or ends the run. Nothing in it can suspend. -/
inductive Effect where
  /-- The branch target, or none. -/
  | done (target : Option Word)
  /-- `read_gpr` (R94). -/
  | readGpr (i : Nat) (rest : Word → Effect)
  /-- `write_gpr` (R95). -/
  | writeGpr (i : Nat) (v : Word) (rest : Effect)
  /-- `read_pc` (R96): the address of the instruction (R107). -/
  | readPc (rest : Word → Effect)
  /-- `write_pc` (R97), which the step's own `pc` update follows (R107). -/
  | writePc (v : Word) (rest : Effect)
  /-- `read_flag` (R98). -/
  | readFlag (f : Flag) (rest : Bool → Effect)
  /-- `write_flag` (R99). -/
  | writeFlag (f : Flag) (b : Bool) (rest : Effect)
  /-- `read_flags` (R100). -/
  | readFlags (rest : Word → Effect)
  /-- `write_flags` (R101). -/
  | writeFlags (v : Word) (rest : Effect)
  /-- `snapshot` (R103). -/
  | snapshot (rest : RegFile → Effect)
  /-- `restore` (R104). -/
  | restore (f : RegFile) (rest : Effect)
  /-- `MemRead(addr, n)` (R10): the `n` bytes, assembled. -/
  | memRead (addr : Word) (n : Nat) (rest : Nat → Effect)
  /-- `MemWrite(addr, n, v)` (R10). -/
  | memWrite (addr : Word) (n v : Nat) (rest : Effect)
  /-- The run ends with this status. -/
  | endRun (status : FinalStatus)
  deriving Inhabited

end Sys2Proof.Machine
end

