-- ==== Sys2Proof/Config.lean ====
section
/-! DEFINITION. The configuration of the machine. First the implementation parameters of R6, as plain data that every
state carries, so that a statement about every state holds for every value of them; the reference configuration REF (D11)
is one value of them, `Params.ref`. Then the launch parameters the spec leaves OPEN with no value, carried the same way;
then the free values, constants with no body to which nothing in Lean gives a value. -/

namespace Sys2Proof

/-! ## Implementation parameters (R6) -/

/-- The two byte orders the parameter `ENDIAN` can take (R40). -/
inductive Endian where
  | little
  | big
  deriving DecidableEq, Repr

/-- `FLAG_LAYOUT` (R27): the bit position of each named flag. `NUM_PS` is the number of positions in `ps` (R24). -/
structure FlagLayout where
  c : Fin 32
  v : Fin 32
  z : Fin 32
  n : Fin 32
  x : Fin 32
  i : Fin 32
  m : Fin 32
  ps : List (Fin 32)
  deriving DecidableEq, Repr

/-- The implementation parameters of R6 to which the spec gives a REF value. `XLEN` is 32, as the source says (R6). `EXEC`
is given by two fields: which opcodes are refused (`unimplemented`), and whether the REF opcodes have the REF semantics
(`refExec`); every other effect is the free value `Config.exec`. Log 1. -/
structure Params where
  /-- `NUM_GPR` (R17). -/
  numGpr : Nat
  /-- `ALIAS_GPR` (R19): the index of the register whose aliasing the source does not describe. -/
  aliasGpr : Nat
  /-- `SP_REG` (R20). -/
  spReg : Nat
  /-- `RA_REG` (R20). -/
  raReg : Nat
  /-- `SYSNR_REG` (R20). -/
  sysnrReg : Nat
  /-- `RET_REG` (R20). -/
  retReg : Nat
  /-- `ARG_REG[1..6]` (R20). -/
  argRegs : Vector Nat 6
  /-- `FLAG_LAYOUT` and `NUM_PS` (R24, R27). -/
  layout : FlagLayout
  /-- `MODE_NATIVE_VALUE` (R25). -/
  modeNative : Bool
  /-- `LEGACY_ADJ8` (R92). -/
  legacyAdj8 : Word
  /-- `LEGACY_ADJ16` (R92). -/
  legacyAdj16 : Word
  /-- `LEGACY_ADJ32` (R93); `none` is unset. -/
  legacyAdj32 : Option Word
  /-- `ENDIAN` (R40). -/
  endian : Endian
  /-- `DECODE_TABLE` (R61), in priority order. -/
  table : List DecodeRule
  /-- `INVALID_LEN` (R82, D8). -/
  invalidLen : Nat
  /-- `EXEC` gives the REF opcodes the REF semantics of 42_ref_semantics.md; else no opcode has them. -/
  refExec : Bool
  /-- The opcodes whose handler in `EXEC` is intentionally unimplemented (R111). -/
  unimplemented : List OpcodeId
  /-- `PAGE_SIZE` (R46, D40). -/
  pageSize : Nat
  deriving DecidableEq, Repr

/-- `ARG_REG[k+1]` (R20). -/
def Params.argReg (p : Params) (k : Fin 6) : Nat := p.argRegs[k]

/-- The number of signal slots of a thread (R139). -/
def Config.numSignals : Nat := 64

/-! ## Launch parameters -/

/-- `UNSUPPORTED_POLICY` (R126): the three selectable behaviours for an unsupported call. -/
inductive UnsupportedPolicy where
  | silentErrno
  | diagnosticErrno
  | fatalHalt
  deriving DecidableEq, Repr

/-- `SIGMASK_ADDR` (R142): where return-from-handler reads the saved mask words. -/
inductive SigmaskAddr where
  | recordedBase
  | currentSp
  deriving DecidableEq, Repr

/-- The permission of an attached region: a subset of {read, write, execute} (R37). -/
structure Perm where
  r : Bool
  w : Bool
  x : Bool
  deriving DecidableEq, Repr

/-- Where one operand of a system call is found. The source numbers neither the calls nor the places of their operands
(ID20), so a launch supplies them: `arg k` is `ARG_REG[k+1]` (R128), `const v` a fixed value, and `mem k off` the word in
guest memory at `ARG_REG[k+1] + off`. Log 9. -/
inductive Src where
  | arg (k : Fin 6)
  | const (v : Word)
  | mem (k : Fin 6) (off : Word)
  deriving DecidableEq, Repr

/-- The system calls whose effects the spec describes, with the places of their operands, and `forward` for a call
whose result the host environment supplies. -/
inductive Syscall where
  /-- A call forwarded to the host (R127, R128): the environment supplies the outcome. -/
  | forward
  /-- A forwarded poll-style call with a remaining-timeout operand (R131). -/
  | poll (timeout : Src)
  /-- Clone (R136). -/
  | clone (newSp exitSignal : Src)
  /-- A thread's own exit (R137). -/
  | exit (code : Src)
  /-- A wait-style call (R138). `accepted` is the narrow set of flag words the layer accepts. -/
  | wait (target flags buf : Src) (accepted : List Word)
  /-- An anonymous mapping (R47). -/
  | mmapAnon (hint len : Src) (perm : Perm)
  /-- A file-backed mapping, filled eagerly (R50). -/
  | mmapFile (hint len : Src) (perm : Perm)
  /-- Destroying a mapping (R48). -/
  | munmap (addr len : Src)
  /-- A protection change (R49). `noneVal` is the value of `prot` that means inaccessible. -/
  | mprotect (addr len prot : Src) (noneVal : Word)
  /-- Signal registration (R139). `dflVal` and `ignVal` are the values that mean default and ignore. -/
  | sigRegister (sig handler : Src) (dflVal ignVal : Word)
  /-- Mask change (R145). The last three are the values of `how` for block, unblock and set, the model's modes (Log 9). -/
  | sigMask (how lo hi : Src) (blockVal unblockVal setVal : Word)
  /-- Sending a signal to a thread (R144, R149). -/
  | sigSend (target sig : Src)
  /-- Wait for any signal, under a temporary mask (R131, R142). -/
  | sigSuspend (lo hi : Src) (timeout : Option Src)
  /-- Return from handler (R142). -/
  | sigReturn
  deriving DecidableEq, Repr

/-- One row of the launch's call table: the number in `x[SYSNR_REG]` and the call it requests. -/
structure SyscallBinding where
  nr : Word
  call : Syscall
  deriving DecidableEq, Repr

/-- The parameters of a run: those of R6 with a REF value, and those the spec marks OPEN and gives none (ID13 to ID20).
Every state carries them, no step changes them. Log 8. -/
structure Launch where
  /-- The implementation parameters (R6). -/
  params : Params
  /-- `UNSUPPORTED_POLICY`, fixed for the run (R126). -/
  policy : UnsupportedPolicy
  /-- The call table: a number it does not list is a syscall the layer does not support (R126). -/
  syscalls : List SyscallBinding
  /-- The number of slots of the thread table (R136). -/
  maxThreads : Nat
  /-- `MMAP_DEFAULT_BASE` (R47). -/
  mmapDefaultBase : Word
  /-- More pages than this is an "oversized allocation request" (R122). -/
  maxMapPages : Nat
  /-- `STACK_TOP` (R154). -/
  stackTop : Word
  /-- The bytes of `TRAMPOLINE`'s "load signal-return syscall number" sequence (R140). -/
  trampolineSeq : List Byte
  /-- The bytes of `TRAMPOLINE`'s trap instruction (R140, D30). -/
  trampolineTrap : List Byte
  /-- The bytes of `TRAMPOLINE` after its trap instruction, if its size leaves room for any (R140). -/
  trampolinePad : List Byte
  /-- `SIG_HANDLER_ARG` (R140): `some j` names `ARG_REG[j+2]`, `none` is unset. -/
  sigHandlerArg : Option (Fin 5)
  /-- `SIGMASK_ADDR` (R142). -/
  sigmaskAddr : SigmaskAddr
  /-- The number of the abort signal (R144, ID20). -/
  abortSignal : Nat
  deriving DecidableEq, Repr

/-! ## The host environment's answers -/

/-- What the host environment answers to a forwarded call: one constructor for each outcome of R122, R127 and R128. -/
inductive HostReply where
  /-- Normal return of `v`, after the given stores to guest memory (R128). -/
  | ret (v : Word) (writes : List (Word × List Byte))
  /-- A host errno, mapped to a guest errno (R127). -/
  | error (hostErrno : Nat)
  /-- The call blocks on a pipe write, waiting on these descriptors (R130, R135). -/
  | blockPipe (fds : List Nat)
  /-- The call blocks on a poll or timeout (R130, R131). -/
  | blockPoll
  /-- The layer does not support this argument shape (R126). -/
  | unsupported
  /-- The call breaks the layer's protocol (R126). -/
  | protocolViolation
  /-- A resource is exhausted (R122). -/
  | exhausted
  deriving DecidableEq, Repr, Inhabited

/-- The errors that reach the guest as an errno in `x[RET_REG]` (R122, R126, R127). -/
inductive Errno where
  | host (n : Nat)
  | unsupported
  | protocolViolation
  | threadTableFull
  | oversizedAllocation
  | hostExhausted
  deriving DecidableEq, Repr

/-! ## Free values -/

namespace Config

/-- `EXEC(d, ops, p, len)` (R110, ID12 `parameter`), for every opcode the parameters do not give the REF semantics: an
effect no proof can see, of the form R110 allows. Log 1. -/
opaque exec (d : Descriptor) (ops : List Operand) (p : Word) (len : Nat) : Machine.Effect

/-- The byte at an attached address that nothing has written, for the region attached as number `serial`
(ID18 `any value`). Log 5. -/
opaque freshByte (serial address : Nat) : Byte

/-- The outcome of a forwarded call when the launch scripted none, at a logical time, for
`handle_trap(thread_id, syscall_number, args, pc)` (R128). Log 10. -/
opaque hostReply (time : Nat) (tid nr : Word) (args : List Word) (pc : Word) : HostReply

/-- Byte `k` of the file that a file-backed mapping made at a logical time reads (R50). Log 10. -/
opaque fileByte (time k : Nat) : Byte

/-- `ERRNO_ENCODING` (R127): the word an error leaves in `x[RET_REG]`. Log 11. -/
opaque errnoWord (e : Errno) : Word

/-- The return value of a call whose success value the spec does not state. Log 11. -/
opaque callResult (time : Nat) : Word

/-- The environment's choice of a thread id for a clone at a logical time (D39, ID17). Log 12. -/
opaque cloneId (time : Nat) : Word

/-- `SIG_PICK` (R140), of the pending and unblocked set (D33): the position of the signal delivered first in the rising list of
those of the set that can be delivered. Log 13. -/
opaque sigPick (set : SigSet) (deliverable : List Nat) : Nat

/-- The position of the live thread the scheduler falls back to, "any live thread" (R132). Log 14. -/
opaque fallbackPick (time : Nat) (liveThreads : List Nat) : Nat

/-- `x[ARG_REG[k+1]]` just after a delivery while `SIG_HANDLER_ARG` is unset (ID9 `any value`). Log 15. -/
opaque argAfterDelivery (time k : Nat) : Word

/-- The remaining-timeout argument when more logical time has elapsed than remained (R131). Log 16. -/
opaque timeoutUnderflow (time : Nat) : Word

end Config

end Sys2Proof
end

