-- ==== Sys2Proof/Decode.lean ====
section
/-! DEFINITION. The decoder: the byte order of instruction and data values (R40), the REF decode table and the flat
priority selection over any table (R61, R70), the reference configuration REF and the instruction table (R82), the
equivalent selector tree (R62, R79), operand extraction and PC-relative resolution (R90 to R93), the decoder on a list of
bytes, the REF instruction a decode result is, after it the encoder written from the same encodings, and the REF spelling
(R80). -/

namespace Sys2Proof

/-! ## Byte order (R40) -/

/-- The value of bytes in ascending address order, the formula of R40 for each byte order. -/
def assemble : Endian → List Byte → Nat
  | .little, bs => bs.foldr (fun b acc => b.toNat + 256 * acc) 0
  | .big, bs => bs.foldl (fun acc b => 256 * acc + b.toNat) 0

/-- The `n` low bytes of a value, the least significant first. -/
def littleBytes : Nat → Nat → List Byte
  | 0, _ => []
  | n + 1, v => BitVec.ofNat 8 v :: littleBytes n (v / 256)

/-- The `n` bytes of a value in ascending address order, for each byte order (R40). -/
def disassemble : Endian → Nat → Nat → List Byte
  | .little, n, v => littleBytes n v
  | .big, n, v => (littleBytes n v).reverse

/-- The four bytes of a word in ascending address order (R40). -/
def wordBytes (e : Endian) (v : Word) : List Byte := disassemble e 4 v.toNat

/-! ## The decode table (R61, R70) -/

/-- The base pattern of R61: `w & mask == match`. -/
def DecodeRule.accepts (r : DecodeRule) (w : BaseWord) : Bool := w &&& r.mask == r.pattern

/-- The extension constraint of R61, true where the rule has none. It compares 32 bits, those beyond the extension read as 0:
a constraint wider than `8 * extLen`, which R61 does not allow for, is not refused (DESIGN CHOICE, Log 27). -/
def DecodeRule.extOk (r : DecodeRule) (ext : Word) : Bool :=
  match r.extConstraint with
  | none => true
  | some (extMask, extMatch) => ext &&& extMask == extMatch

/-- `byte_length = 2 + ext_len` (R61). -/
def DecodeRule.byteLength (r : DecodeRule) : Nat := 2 + r.extLen

/-- The descriptor a rule yields (R59, R61). -/
def DecodeRule.descriptor (r : DecodeRule) : Descriptor := ⟨r.opcode, r.format, r.byteLength, r.attrs⟩

/-- The fields of a branch: the condition, and the target (R68). -/
def bccFields (cond target : Extractor) : List FieldExtractor := [⟨.cond, cond⟩, ⟨.target, target⟩]

/-- The fields of a quick form: `rd = w[9:6]`, and the 6-bit immediate (R68). -/
def quickFields (signed : Bool) : List FieldExtractor := [⟨.rd, .index 6 4⟩, ⟨.imm, .immediate .base 0 6 signed⟩]

/-- The fields of a special-register move by immediate: the index, and `imm = ext[31:0]` (R68). -/
def sprImmFields (ps : Extractor) : List FieldExtractor := [⟨.ps, ps⟩, ⟨.imm, .immediate .ext 0 32 false⟩]

/-- The REF `DECODE_TABLE`, in priority order (R70), with the field extractors of R68. -/
def refTable : List DecodeRule :=
  [ ⟨0xF000, 0x1000, 0, none, .bccS, .pcrel8, [.branch, .pcrel], bccFields (.index 8 4) (.pcrel .base 0 .w8)⟩,
    ⟨0xFC00, 0x2000, 0, none, .addq, .quickU6, [], quickFields false⟩,
    ⟨0xFC00, 0x2400, 0, none, .moveq, .quickS6, [], quickFields true⟩,
    ⟨0xFF00, 0x3000, 0, none, .addR, .rr, [], [⟨.rd, .index 4 4⟩, ⟨.rs, .index 0 4⟩]⟩,
    ⟨0xFE00, 0x4000, 0, none, .loadD, .mem, [.mem], [⟨.rd, .index 4 4⟩, ⟨.rs, .index 0 4⟩, ⟨.am, .modeBit .base 8⟩]⟩,
    ⟨0xFF0F, 0x5000, 2, none, .bccW, .pcrel16, [.branch, .pcrel, .ext], bccFields (.index 4 4) (.pcrel .ext 0 .w16)⟩,
    ⟨0xFFFF, 0x6000, 0, none, .trap, .none, [.trap], []⟩,
    ⟨0xFFFF, 0x707F, 4, some (0xFFFF0000, 0), .moveSprImm, .sprImm, [.ext], sprImmFields (.latched 7)⟩,
    ⟨0xFFFF, 0x70BF, 4, some (0xFFFF0000, 0), .moveSprImm, .sprImm, [.ext], sprImmFields (.latched 11)⟩,
    ⟨0xFF0F, 0x700F, 4, none, .moveSprImm, .sprImm, [.ext], sprImmFields (.index 4 4)⟩,
    ⟨0xFF00, 0x7000, 0, none, .moveSprReg, .sprReg, [], [⟨.ps, .index 4 4⟩, ⟨.rs, .index 0 4⟩]⟩ ]

/-- A table this spec covers: every rule is 2, 4 or 6 bytes long (R58). -/
def tableSupported (table : List DecodeRule) : Bool :=
  table.all (fun r => r.byteLength == 2 || r.byteLength == 4 || r.byteLength == 6)

/-- The descriptor is a function of the opcode id alone: rules of one opcode id yield one descriptor (R60). -/
def tableConsistent (table : List DecodeRule) : Bool :=
  table.all (fun r => table.all (fun q => r.opcode != q.opcode || r.descriptor == q.descriptor))

/-- The first rule in priority order whose base pattern matches (R61). -/
def selectIn (table : List DecodeRule) (w : BaseWord) : Option DecodeRule := table.find? (·.accepts w)

/-- The rule REF selects for a base word (R61, R70). -/
def selectRule (w : BaseWord) : Option DecodeRule := selectIn refTable w

/-! ## The reference configuration and the instruction table (R6, R82) -/

/-- The REF value of every parameter of R6 that has one (D11). -/
def Params.ref : Params :=
  { numGpr := 16, aliasGpr := 15, spReg := 14, raReg := 13, sysnrReg := 9, retReg := 10
    argRegs := #v[10, 11, 12, 5, 6, 7]
    layout := { c := 0, v := 1, z := 2, n := 3, x := 4, i := 5, ps := [6, 7, 8, 9], m := 10 }
    modeNative := false, legacyAdj8 := 2, legacyAdj16 := 4, legacyAdj32 := none, endian := .little
    table := refTable, invalidLen := 2, refExec := true, unimplemented := [], pageSize := 8192 }

/-- `ITABLE(opcode_id)` with the opcode id itself (R82): `INVALID`'s entry is fixed (D8), and any other opcode id's is that
of its rules (R60). An opcode id the table has no rule for, which no decode gives, takes the fields of `INVALID`; where
rules of one opcode id differ, so that the table breaks R60, the first rule's are taken (DESIGN CHOICE, Log 1). -/
def itable (p : Params) (op : OpcodeId) : Descriptor :=
  let invalid : Descriptor := ⟨op, .none, p.invalidLen, []⟩
  if op = .invalid then invalid
  else match p.table.find? (fun r => r.opcode == op) with
    | some r => r.descriptor
    | none => invalid

/-! ## The selector tree (R62, R79) -/

/-- Row `n` of the REF table, counted from 1 as in R70. -/
def tableRow (n : Nat) : List DecodeRule := (refTable.drop (n - 1)).take 1

/-- The leaf of the REF selector tree a base word reaches: its ordered candidate list (R79). -/
def treeLeaf (w : BaseWord) : List DecodeRule :=
  let p := w.toNat / 256
  let a := w.toNat / 16 % 16
  let b := w.toNat % 16
  if 0x10 ≤ p ∧ p ≤ 0x1F then tableRow 1
  else if 0x20 ≤ p ∧ p ≤ 0x23 then tableRow 2
  else if 0x24 ≤ p ∧ p ≤ 0x27 then tableRow 3
  else if p = 0x30 then tableRow 4
  else if p = 0x40 ∨ p = 0x41 then tableRow 5
  else if p = 0x50 then (if b = 0 then tableRow 6 else [])
  else if p = 0x60 then (if a = 0 then tableRow 7 else [])
  else if p = 0x70 then
    if 8 ≤ b then
      if a = 0x7 then tableRow 8 ++ tableRow 10 ++ tableRow 11
      else if a = 0xB then tableRow 9 ++ tableRow 10 ++ tableRow 11
      else tableRow 10 ++ tableRow 11
    else tableRow 11
  else []

/-- The rule the selector tree selects: the first candidate of the leaf whose base pattern matches (R62). -/
def treeSelect (w : BaseWord) : Option DecodeRule := selectIn (treeLeaf w) w

/-! ## Operand extraction (R90 to R93) -/

/-- The number of bits of a displacement field (R92, R93). -/
def DispWidth.bits : DispWidth → Nat
  | .w8 => 8
  | .w16 => 16
  | .w32 => 32

/-- `mode_adjustment(M, width)` (R92, R93); `none` where a legacy decode needs the unset `LEGACY_ADJ32`. -/
def modeAdjustment (p : Params) (m : Bool) (width : DispWidth) : Option Word :=
  if m == p.modeNative then some 0
  else match width with
    | .w8 => some p.legacyAdj8
    | .w16 => some p.legacyAdj16
    | .w32 => p.legacyAdj32

/-- PC-relative resolution (R91): `disp` is the displacement field sign-extended from its own width. -/
def resolveTarget (p : Params) (pc : Word) (m : Bool) (width : DispWidth) (disp : Word) : Option Word :=
  (modeAdjustment p m width).map (pc + disp + ·)

/-- A slice of the base word or of the extension (R64). Bits past the end of the word, or of a rule's shorter extension, read
as 0 (DESIGN CHOICE, Log 27). -/
def FieldSource.slice (src : FieldSource) (w : BaseWord) (ext : Word) (lo width : Nat) : BitVec width :=
  match src with
  | .base => w.extractLsb' lo width
  | .ext => ext.extractLsb' lo width

/-- The value of one field (R90), by its kind (R64); `none` is the refusal `LegacyAdj32Unset` of a PC-relative one. -/
def Extractor.value (p : Params) (w : BaseWord) (ext : Word) (pc : Word) (m : Bool) : Extractor → Option OperandValue
  | .index lo width => some (.index (w.extractLsb' lo width).toNat)
  | .immediate src lo width signed =>
    some (.immediate (if signed then (src.slice w ext lo width).signExtend 32 else (src.slice w ext lo width).setWidth 32))
  | .modeBit src bit => some (.modeBit ((src.slice w ext bit 1).getLsbD 0))
  | .pcrel src lo width =>
    (resolveTarget p pc m width ((src.slice w ext lo width.bits).signExtend 32)).map .target
  | .latched v => some (.latched v)

/-- `extract(r, w, ext, pc, M)` (R90): each field of the rule in turn. -/
def extract (p : Params) (w : BaseWord) (ext : Word) (pc : Word) (m : Bool) :
    List FieldExtractor → Option (List Operand)
  | [] => some []
  | f :: rest => do
    let v ← f.how.value p w ext pc m
    let vs ← extract p w ext pc m rest
    some (⟨f.name, v⟩ :: vs)

/-! ## Decoding -/

/-- The two cases that decode to the INVALID descriptor (R65), each with the bits read. -/
inductive InvalidReason where
  /-- No rule's base pattern matches. -/
  | noRule (w : BaseWord)
  /-- The selected rule's extension constraint fails. -/
  | extConstraint (w : BaseWord) (ext : Word)
  deriving DecidableEq, Repr

/-- The refusals of the decoder, which no REF decode meets. -/
inductive DecodeRefusal where
  /-- The table has a rule longer than 6 bytes, or of odd length (R58). -/
  | unsupportedLength
  /-- A legacy decode of a 32-bit displacement while `LEGACY_ADJ32` is unset (R93). -/
  | legacyAdj32Unset
  deriving DecidableEq, Repr

/-- The decoder's response (R81): an opcode id with its operand record, the INVALID descriptor as data (R85), or a
refusal. -/
inductive Decoded where
  | instr (d : DecodedInstr)
  | invalid (why : InvalidReason)
  | refused (why : DecodeRefusal)
  deriving DecidableEq, Repr

/-- The descriptor of the response: INVALID's where nothing matched (R83), none where the decode is refused. -/
def Decoded.descriptor (p : Params) : Decoded → Option Descriptor
  | .instr d => some (itable p d.opcode)
  | .invalid _ => some (itable p .invalid)
  | .refused _ => none

/-- The response of the selected rule once its extension is read (R83, last three lines). -/
def decodeRule (p : Params) (r : DecodeRule) (w : BaseWord) (ext : Word) (pc : Word) (m : Bool) : Decoded :=
  if r.extOk ext then
    match extract p w ext pc m r.fields with
    | some operands => .instr ⟨r.opcode, operands⟩
    | none => .refused .legacyAdj32Unset
  else .invalid (.extConstraint w ext)

/-- What decoding a list of bytes gives. -/
inductive ByteDecode where
  /-- An opcode id with its operand record, and the bytes after the instruction. -/
  | instr (d : DecodedInstr) (rest : List Byte)
  /-- The INVALID descriptor (R65). -/
  | invalid (why : InvalidReason)
  /-- A refusal of the decoder. -/
  | refused (why : DecodeRefusal)
  /-- The list ends before the base word or the extension does. -/
  | short
  deriving DecidableEq, Repr

/-- A response with the bytes after it. -/
def Decoded.leaving (rest : List Byte) : Decoded → ByteDecode
  | .instr d => .instr d rest
  | .invalid why => .invalid why
  | .refused why => .refused why

/-- Decoding the bytes at `pc` under the mode flag `m` (R83), the extension read only when a selected rule needs it. -/
def decodeBytes (p : Params) (pc : Word) (m : Bool) (bs : List Byte) : ByteDecode :=
  if tableSupported p.table then
    match bs with
    | b0 :: b1 :: rest =>
      let w : BaseWord := BitVec.ofNat 16 (assemble p.endian [b0, b1])
      match selectIn p.table w with
      | none => .invalid (.noRule w)
      | some r =>
        if rest.length < r.extLen then .short
        else (decodeRule p r w (BitVec.ofNat 32 (assemble p.endian (rest.take r.extLen))) pc m).leaving
          (rest.drop r.extLen)
    | _ => .short
  else .refused .unsupportedLength

/-! ## The REF instructions as decode results (R68) -/

/-- The opcode id an instruction carries: the three `MOVE_SPR_IMM` paths share one (R60, R63). -/
def Instr.opcode : Instr → OpcodeId
  | .bccS _ _ => .bccS
  | .addq _ _ => .addq
  | .moveq _ _ => .moveq
  | .addR _ _ => .addR
  | .loadD _ _ _ => .loadD
  | .bccW _ _ => .bccW
  | .trap => .trap
  | .moveSprImmP7 _ => .moveSprImm
  | .moveSprImmP11 _ => .moveSprImm
  | .moveSprImm _ _ => .moveSprImm
  | .moveSprReg _ _ => .moveSprReg

/-- The operand record of an instruction, in the order of R68. -/
def Instr.operands : Instr → List Operand
  | .bccS cond target => [⟨.cond, .index cond⟩, ⟨.target, .target target⟩]
  | .addq rd imm => [⟨.rd, .index rd⟩, ⟨.imm, .immediate imm⟩]
  | .moveq rd imm => [⟨.rd, .index rd⟩, ⟨.imm, .immediate imm⟩]
  | .addR rd rs => [⟨.rd, .index rd⟩, ⟨.rs, .index rs⟩]
  | .loadD am rd rs => [⟨.rd, .index rd⟩, ⟨.rs, .index rs⟩, ⟨.am, .modeBit am⟩]
  | .bccW cond target => [⟨.cond, .index cond⟩, ⟨.target, .target target⟩]
  | .trap => []
  | .moveSprImmP7 imm => [⟨.ps, .latched 7⟩, ⟨.imm, .immediate imm⟩]
  | .moveSprImmP11 imm => [⟨.ps, .latched 11⟩, ⟨.imm, .immediate imm⟩]
  | .moveSprImm ps imm => [⟨.ps, .index ps⟩, ⟨.imm, .immediate imm⟩]
  | .moveSprReg ps rs => [⟨.ps, .index ps⟩, ⟨.rs, .index rs⟩]

/-- What the decoder gives for an instruction. -/
def Instr.decoded (i : Instr) : DecodedInstr := ⟨i.opcode, i.operands⟩

/-- The descriptor of an instruction (R59, R60). -/
def Instr.descriptor (p : Params) (i : Instr) : Descriptor := itable p i.opcode

/-- The number a field value is, whichever way it was obtained (R60, R64). -/
def OperandValue.number : OperandValue → Nat
  | .index n => n
  | .immediate v => v.toNat
  | .modeBit b => b.toNat
  | .target a => a.toNat
  | .latched v => v.toNat

/-- The 32-bit value a field value is. -/
def OperandValue.word : OperandValue → Word
  | .index n => BitVec.ofNat 32 n
  | .immediate v => v
  | .modeBit b => BitVec.ofNat 32 b.toNat
  | .target a => a
  | .latched v => v

/-- A field of an operand record, by its name. -/
def DecodedInstr.field (d : DecodedInstr) (name : FieldName) : Option OperandValue :=
  (d.operands.find? (fun o => o.name == name)).map (·.value)

/-- The path of `MOVE_SPR_IMM` that gave the index: one of the two latched constants, or the field (R63, R78). -/
def sprImmPath (ps : OperandValue) (imm : Word) : Instr :=
  if ps = .latched 7 then .moveSprImmP7 imm
  else if ps = .latched 11 then .moveSprImmP11 imm
  else .moveSprImm ps.number imm

/-- The REF instruction a decode result is, if its opcode id is one of REF's and its record has the fields of R68. -/
def DecodedInstr.instr? (d : DecodedInstr) : Option Instr :=
  match d.opcode with
  | .bccS => do
    let cond ← d.field .cond
    let target ← d.field .target
    some (.bccS cond.number target.word)
  | .addq => do
    let rd ← d.field .rd
    let imm ← d.field .imm
    some (.addq rd.number imm.word)
  | .moveq => do
    let rd ← d.field .rd
    let imm ← d.field .imm
    some (.moveq rd.number imm.word)
  | .addR => do
    let rd ← d.field .rd
    let rs ← d.field .rs
    some (.addR rd.number rs.number)
  | .loadD => do
    let rd ← d.field .rd
    let rs ← d.field .rs
    let am ← d.field .am
    some (.loadD (am.number != 0) rd.number rs.number)
  | .bccW => do
    let cond ← d.field .cond
    let target ← d.field .target
    some (.bccW cond.number target.word)
  | .trap => some .trap
  | .moveSprImm => do
    let ps ← d.field .ps
    let imm ← d.field .imm
    some (sprImmPath ps imm.word)
  | .moveSprReg => do
    let ps ← d.field .ps
    let rs ← d.field .rs
    some (.moveSprReg ps.number rs.number)
  | .invalid => none
  | .other _ => none

/-- The REF instruction a list of bytes decodes to, with the bytes after it. -/
def decodeInstr (p : Params) (pc : Word) (m : Bool) (bs : List Byte) : Option (Instr × List Byte) :=
  match decodeBytes p pc m bs with
  | .instr d rest => d.instr?.map (fun i => (i, rest))
  | .invalid _ => none
  | .refused _ => none
  | .short => none

/-! ## Encoding -/

/-- The displacement that makes a target, the inverse of `resolveTarget`. -/
def displacement (p : Params) (pc : Word) (m : Bool) (width : DispWidth) (target : Word) : Word :=
  target - pc - (modeAdjustment p m width).getD 0

/-- The base word of an instruction at `pc` in mode `m`, in the REF encoding (R71 to R78). -/
def encodeBase (p : Params) (pc : Word) (m : Bool) : Instr → BaseWord
  | .bccS cond target => (0x1#4 ++ BitVec.ofNat 4 cond) ++ (displacement p pc m .w8 target).setWidth 8
  | .addq rd imm => (0b001000#6 ++ BitVec.ofNat 4 rd) ++ imm.setWidth 6
  | .moveq rd imm => (0b001001#6 ++ BitVec.ofNat 4 rd) ++ imm.setWidth 6
  | .addR rd rs => (0x30#8 ++ BitVec.ofNat 4 rd) ++ BitVec.ofNat 4 rs
  | .loadD am rd rs => ((0b0100000#7 ++ BitVec.ofBool am) ++ BitVec.ofNat 4 rd) ++ BitVec.ofNat 4 rs
  | .bccW cond _ => (0x50#8 ++ BitVec.ofNat 4 cond) ++ 0x0#4
  | .trap => 0x6000
  | .moveSprImmP7 _ => 0x707F
  | .moveSprImmP11 _ => 0x70BF
  | .moveSprImm ps _ => (0x70#8 ++ BitVec.ofNat 4 ps) ++ 0xF#4
  | .moveSprReg ps rs => (0x70#8 ++ BitVec.ofNat 4 ps) ++ BitVec.ofNat 4 rs

/-- The extension of an instruction, empty where it has none (R58). -/
def encodeExt (p : Params) (pc : Word) (m : Bool) : Instr → List Byte
  | .bccS _ _ => []
  | .addq _ _ => []
  | .moveq _ _ => []
  | .addR _ _ => []
  | .loadD _ _ _ => []
  | .bccW _ target => disassemble p.endian 2 (displacement p pc m .w16 target).toNat
  | .trap => []
  | .moveSprImmP7 imm => wordBytes p.endian imm
  | .moveSprImmP11 imm => wordBytes p.endian imm
  | .moveSprImm _ imm => wordBytes p.endian imm
  | .moveSprReg _ _ => []

/-- The bytes of an instruction at `pc` in mode `m`, in ascending address order. -/
def encode (p : Params) (pc : Word) (m : Bool) (i : Instr) : List Byte :=
  disassemble p.endian 2 (encodeBase p pc m i).toNat ++ encodeExt p pc m i

/-! ## Spelling (R80) -/

/-- `r<n>`. -/
def regName (r : RegNum) : String := "r" ++ toString r

/-- `<cc>` (R80). -/
def condName (c : CondCode) : String :=
  if c = 0 then "eq" else if c = 1 then "ne" else if c = 14 then "a" else "c" ++ toString c

/-- A value in hexadecimal (R7). -/
def hexName (v : Word) : String := "0x" ++ String.ofList ((Nat.toDigits 16 v.toNat).map Char.toUpper)

/-- The REF spelling of an instruction (R80): a target is the resolved address, and an immediate of a quick form is
decimal, signed for `moveq`. -/
def Instr.assembly : Instr → String
  | .bccS cond target => "b" ++ condName cond ++ " " ++ hexName target
  | .bccW cond target => "b" ++ condName cond ++ ".w " ++ hexName target
  | .addq rd imm => "addq " ++ regName rd ++ ", #" ++ toString imm.toNat
  | .moveq rd imm => "moveq " ++ regName rd ++ ", #" ++ toString imm.toInt
  | .addR rd rs => "add " ++ regName rd ++ ", " ++ regName rs
  | .loadD am rd rs => "ld " ++ regName rd ++ ", [" ++ regName rs ++ (if am then "+]" else "]")
  | .trap => "trap"
  | .moveSprImmP7 imm => "move p7, #" ++ hexName imm
  | .moveSprImmP11 imm => "move p11, #" ++ hexName imm
  | .moveSprImm ps imm => "move p" ++ toString ps ++ ", #" ++ hexName imm
  | .moveSprReg ps rs => "move p" ++ toString ps ++ ", " ++ regName rs

/-! ## The table's words -/

/-- The address the opcode table's words are decoded at: the program counter after reset (Log 2). -/
def tablePc : Word := 0x1000

/-- The six bytes of a table word: bit 0 is the least significant bit of the first 16-bit word, each word in the byte
order of R40, and every bit above `nbits` zero. -/
def tableBytes (e : Endian) (nbits w : Nat) : List Byte :=
  let v := w % 2 ^ nbits
  disassemble e 2 v ++ disassemble e 2 (v / 2 ^ 16) ++ disassemble e 2 (v / 2 ^ 32)

/-- The instruction the REF decoder reads from a table word, at `tablePc` in native mode. -/
def decodeTableWord (nbits w : Nat) : Option Instr :=
  (decodeInstr Params.ref tablePc Params.ref.modeNative (tableBytes Params.ref.endian nbits w)).map Prod.fst

end Sys2Proof
end

