-- ==== Sys2Proof/Machine/State.lean ====
section
/-! DEFINITION. The state of one simulator instance (R16) as plain data: the live Register File (R14, Machine/Effect.lean), the thread table
with its signal slots and parked files (R135, R139), guest memory and its attached regions (R36, R37), the mapped-page
list (R46), the logical clock (R134), the launch parameters, and how the run ended (R125). Then the reasons a step stops
and the state after reset. -/

namespace Sys2Proof.Machine

/-! ## Memory -/

/-- The kinds of access a permission grants (R39). -/
inductive AccessKind where
  | read | write | execute
  deriving DecidableEq, Repr

/-- An attached region (R37): `len` bytes from `base`, modulo 2^32. `serial` numbers the attachment, so that the
unwritten bytes of two attachments are not the same bytes (ID18). -/
structure Region where
  base : Word
  len : Nat
  perm : Perm
  serial : Nat
  deriving DecidableEq, Repr

/-! ## Threads -/

/-- The states of a thread (R135). -/
inductive ThreadState where
  | running | blockedOnPipeWrite | blockedOnWait | blockedOnPollTimeout | inSignalHandler | zombie | free
  deriving DecidableEq, Repr

/-- The handler value of a signal slot (R139). -/
inductive Handler where
  | default
  | ignore
  | address (a : Word)
  deriving DecidableEq, Repr

/-- What a thread inside a synthetic handler keeps: its saved pre-signal Register File and the recorded trampoline base
`T` (R140, R142), the stashed pre-suspend blocked set if the signal interrupted a wait-for-any-signal call (R142), and the
time at which the interrupted call blocked, if one had (R131, Log 25). -/
structure HandlerContext where
  snapshot : RegFile
  base : Word
  preSuspend : Option SigSet
  blockedAt : Option Nat
  deriving DecidableEq, Repr

/-- A thread record (R135). The 64 signal slots of R139 are held by column: the handler values, and the sets of
pending, blocked and saved-blocked-for-suspend signals, bit `k` of each belonging to slot `k`. -/
structure Thread where
  /-- The thread's synthetic id. -/
  tid : Word
  /-- The id of the thread that cloned it. -/
  parent : Word
  /-- The clone's exit signal: stored only. -/
  exitSignal : Word
  /-- The value its exit call gave, kept while a zombie (R137). -/
  exitValue : Word
  /-- Stored, and "deliberately never influences scheduling order" (R132). -/
  priority : Word
  state : ThreadState
  /-- The handler value of each signal slot. -/
  handlers : Vector Handler 64
  /-- The pending signals. -/
  pending : SigSet
  /-- The blocked signals. -/
  blocked : SigSet
  /-- The pre-suspend blocked set, stashed by a wait-for-any-signal call (R142). -/
  savedBlocked : SigSet
  /-- The owned Register File snapshot: absent while the thread is current (R105) and once it exits (R137). -/
  parked : Option RegFile
  /-- The saved pre-signal snapshot, present only inside a synthetic handler. -/
  context : Option HandlerContext
  /-- The pipe-wait descriptors. -/
  pipeWait : List Nat
  /-- The logical time of the thread's last trap (R134). -/
  lastRun : Nat
  /-- Marked when a trap blocks, to be executed again (R130). -/
  atSyscall : Bool
  /-- The logical time at which the call to be re-issued blocked: its timeout decreases by the time since (R131). -/
  blockedAt : Option Nat
  /-- Set while a wait-for-any-signal call's temporary mask is in force (R142). -/
  suspended : Bool
  deriving DecidableEq, Repr

/-! ## The end of a run -/

/-- Why a call went through the unsupported-call policy (R126). -/
inductive UnsupportedCause where
  | unsupportedSyscall
  | protocolViolation
  deriving DecidableEq, Repr

/-- What a diagnostic records: the syscall number and its six arguments (R122). -/
structure Diagnostic where
  cause : UnsupportedCause
  nr : Word
  args : List Word
  deriving DecidableEq, Repr

/-- How a run ended, with the record of R122 for each event. -/
inductive Halt where
  /-- The last live thread exited (R137). -/
  | exit (code : Word)
  /-- An AddressFault, with the first faulting address (R38, R124). -/
  | addressFault (addr : Word)
  /-- INVALID was executed, at this `pc` (R123). -/
  | illegalInstruction (pc : Word)
  /-- A single-thread run sent itself the abort signal (R144). -/
  | abort
  /-- The fatal-halt branch of the policy (R126). -/
  | unsupported (d : Diagnostic)
  /-- The semantics of an opcode ended the run, with this status (R110). -/
  | byExec (status : FinalStatus)
  deriving DecidableEq, Repr

/-- The final status of a halted run (R125). -/
def Halt.status : Halt → FinalStatus
  | .exit code => .exit code
  | .addressFault _ => .fault
  | .illegalInstruction _ => .illegalInstruction
  | .abort => .abort
  | .unsupported _ => .unsupportedHalt
  | .byExec status => status

/-! ## The whole state -/

/-- The state of one simulator instance. -/
structure State where
  /-- The live Register File (R15). -/
  live : RegFile
  /-- The thread table (R135). -/
  threads : List Thread
  /-- The index of the current thread (R15). -/
  cur : Nat
  /-- The bytes written so far, addresses strictly rising (R36). -/
  mem : List Host.Cell
  /-- The attached regions, the newest first (R37). -/
  regions : List Region
  /-- How many regions were ever attached; it numbers the next one. The model's own. -/
  attachCount : Nat
  /-- The mapped-page list: page addresses, descending (R46). -/
  pages : List Word
  /-- Logical time (R134). -/
  time : Nat
  /-- The parameters (R6), fixed for the run. -/
  launch : Launch
  /-- The host environment's scripted answers, the next one first. The model's own. -/
  replies : List HostReply
  /-- The diagnostics the unsupported-call policy issued, the latest first (R126). -/
  diagnostics : List Diagnostic
  /-- How the run ended, if it has (R125). -/
  halted : Option Halt
  deriving DecidableEq, Repr

/-- The implementation parameters of the run (R6). -/
abbrev State.params (s : State) : Params := s.launch.params

/-! ## The reasons a step stops -/

/-- The machine stops with a fault. -/
inductive Fault where
  /-- The model fault of a fetch at an odd `pc` (R22). Raised by the fetch. Safe: the hardware may go on. -/
  | misalignedFetch (pc : Word)
  /-- A step of a run that has ended: "a halted run takes no further step" (R125). Raised by `step`. Safe. -/
  | runOver (status : FinalStatus)
  deriving DecidableEq, Repr

/-- A form the spec gives no meaning (R11), under a name of its own. -/
inductive Refusal where
  /-- An instruction with no meaning yet. Raised by `exec` only. Safe. -/
  | notModelled (mnemonic : String)
  /-- A register number of `NUM_GPR` or more (R94, R95). Raised by register reads and writes, and by the trap layer's use of
  an ABI role whose register it is; no REF encoding and no REF role has one. Safe. -/
  | regIndexRange
  /-- A read or write of `x[ALIAS_GPR]` "made by an instruction's semantics or by the environment", which "the model
  therefore *refuses*" (R19, R94, R95, D13, ID5). Raised by register reads and writes, and by the trap layer's use of an ABI
  role whose register it is; no REF role is. Safe. -/
  | aliasRegisterUnmodelled
  /-- A condition code other than 0, 1 and 14 (R113). Raised by the branches. Safe. -/
  | refCondUnmodelled
  /-- An access to a special register, of which the spec describes none (R121). Raised by the special-register moves.
  Safe. -/
  | specialRegisterUnmodelled
  /-- An operation on what is no part of the Register File (R14, R11): a flag `PS[k]` with `k` at or above `NUM_PS` (R98, R99), or
  a `restore` of a value that is no file of `NUM_GPR` registers and `NUM_PS` bits (R31, R104). Raised by the run of an effect
  that is no REF semantics; no REF instruction has one. DESIGN CHOICE, Log 2. Safe. -/
  | notInRegFile
  /-- An opcode whose handler in `EXEC` is intentionally unimplemented (R111). Raised by `step`; REF has none. Safe. -/
  | intentionallyUnimplemented
  /-- A decode the decoder refuses: `UnsupportedLength` (R58) or `LegacyAdj32Unset` (R93). Raised by the fetch; no REF decode
  meets one. Safe. -/
  | decodeRefused (why : DecodeRefusal)
  deriving DecidableEq, Repr

/-- How a meaning ends before its last line: the run halts with the writes made so far (R109), a model fault, or a
refusal (R11). -/
inductive Stop where
  | halt (h : Halt) (s : State)
  | fault (f : Fault)
  | refuse (r : Refusal)
  deriving DecidableEq, Repr

/-- The outcome of a meaning. A halt is a final state (R11), so it is a next state, in which the run is over. -/
def outcome : Except Stop State → Host.Outcome State Fault Refusal
  | .ok s => .next s
  | .error (.halt h s) => .next { s with halted := some h }
  | .error (.fault f) => .fault f
  | .error (.refuse r) => .refused r

/-! ## Reset -/

/-- A thread slot that holds no thread (`FREE`, R135), every signal slot at its default (R153). -/
def Thread.empty : Thread :=
  { tid := 0, parent := 0, exitSignal := 0, exitValue := 0, priority := 0, state := .free,
    handlers := Vector.replicate 64 .default, pending := 0, blocked := 0, savedBlocked := 0,
    parked := none, context := none, pipeWait := [], lastRun := 0, atSyscall := false, blockedAt := none,
    suspended := false }

/-- The first thread of a run: current, `RUNNING`, with id `INIT_TID` (R153). No rule gives its parent id, exit signal,
exit value, priority and last-run time: each is 0, the model's choice (DESIGN CHOICE, Log 3). -/
def Thread.initial (tid : Word) : Thread := { Thread.empty with tid := tid, state := .running }

/-- The state a run starts in (R34, R153), for every launch: the live file the loader chose (`pc = ENTRY`, `x[SP_REG]`,
`INIT_GPR`, `INIT_FLAGS`, `INIT_MODE`), `INIT_TID`, the image's bytes and regions, the OPEN parameters, and the host
environment's answers. -/
def State.start (file : RegFile) (tid : Word) (mem : List Host.Cell) (regions : List Region) (launch : Launch)
    (replies : List HostReply) : State :=
  { live := file, threads := [Thread.initial tid], cur := 0, mem := mem, regions := regions,
    attachCount := regions.length, pages := [], time := 0, launch := launch, replies := replies,
    diagnostics := [], halted := none }

/-- The launch parameters of `State.reset` (Log 8): the REF parameters, the default policy, every OPEN value one the model
names. -/
def launchAtReset : Launch :=
  { params := Params.ref, policy := .fatalHalt, syscalls := [], maxThreads := 64, mmapDefaultBase := 0,
    maxMapPages := 524288, stackTop := 0, trampolineSeq := [],
    trampolineTrap := disassemble .little 2 0x6000, trampolinePad := [], sigHandlerArg := none, sigmaskAddr := .recordedBase, abortSignal := 0 }

/-- The Register File of `State.reset` (Log 2): native mode (R34), `pc` at the address the spec's programs are loaded
at, and zero for every free launch input. -/
def RegFile.reset : RegFile :=
  { gpr := List.replicate 16 0, pc := 0x1000, m := Params.ref.modeNative, c := false, z := false, n := false,
    v := false, x := false, i := false, ps := List.replicate 4 false }

/-- The machine right after reset (R34, R152, R153), before a loader attaches anything (Log 3). -/
def State.reset : State := State.start RegFile.reset 0 [] [] launchAtReset []

end Sys2Proof.Machine
end

