-- ==== Sys2Proof/Machine/Ops.lean ====
section
/-! DEFINITION. The shared operations: the memory cells in canonical form, the memory substrate (R35 to R44), the
general registers and the program counter (R94 to R97), the whole-file operations (R103 to R105), the current thread's
record, the return values and the error policy of a call (R126 to R128), taking a signal into its handler (R140) and
returning from it (R142). -/

namespace Sys2Proof.Machine

/-! ## Memory cells -/

/-- The canonical form of a memory: addresses strictly rising, each a 32-bit address. An unlisted address was never
written and reads as no stored byte, so no entry equals what an unlisted address reads as. Log 5. -/
def Memory.wf : List Host.Cell → Bool
  | [] => true
  | [(a, _)] => decide (a < 2 ^ 32)
  | (a, _) :: (b, y) :: rest => decide (a < b) && Memory.wf ((b, y) :: rest)

/-- The byte stored at an address, if anything was written there. -/
def Memory.lookup (a : Nat) : List Host.Cell → Option Byte
  | [] => none
  | (b, x) :: rest => if a = b then some x else Memory.lookup a rest

/-- Store one byte. -/
def Memory.store (a : Nat) (v : Byte) : List Host.Cell → List Host.Cell
  | [] => [(a, v)]
  | (b, x) :: rest =>
    if a < b then (a, v) :: (b, x) :: rest
    else if a = b then (a, v) :: rest
    else (b, x) :: Memory.store a v rest

/-- Store bytes at `a`, `a+1`, …, addresses modulo 2^32 (R43). -/
def Memory.storeBytes (a : Word) : List Byte → List Host.Cell → List Host.Cell
  | [], mem => mem
  | b :: bs, mem => Memory.storeBytes (a + 1) bs (Memory.store a.toNat b mem)

/-- Forget what was written at the addresses that do not satisfy `keep`. -/
def Memory.restrict (keep : Nat → Bool) (mem : List Host.Cell) : List Host.Cell := mem.filter (fun cell => keep cell.1)

/-! ## The memory substrate -/

/-- The address lies in the region, whose bytes run modulo 2^32 from its base (R37). -/
def Region.covers (r : Region) (a : Word) : Bool := decide ((a - r.base).toNat < r.len)

/-- The permission grants the kind of access (R39). -/
def permits (p : Perm) : AccessKind → Bool
  | .read => p.r
  | .write => p.w
  | .execute => p.x

/-- The attached region that holds an address: the latest attached of those that cover it (R37, Log 6). -/
def State.regionAt (s : State) (a : Word) : Option Region := s.regions.find? (·.covers a)

/-- An access of this kind to this byte is not an AddressFault (R38, R39). -/
def State.accessible (s : State) (kind : AccessKind) (a : Word) : Bool :=
  match s.regionAt a with
  | some r => permits r.perm kind
  | none => false

/-- The byte at an address: the one written last (R52), a free value where nothing was written (ID18, Log 5). -/
def State.byteAt (s : State) (a : Word) : Byte :=
  match Memory.lookup a.toNat s.mem with
  | some b => b
  | none => Config.freshByte (match s.regionAt a with | some r => r.serial | none => 0) a.toNat

/-- The first of the `n` bytes at `a` that an access of this kind faults on (R38). -/
def State.firstFault (s : State) (kind : AccessKind) : Nat → Word → Option Word
  | 0, _ => none
  | n + 1, a => if s.accessible kind a then s.firstFault kind n (a + 1) else some a

/-- The `n` bytes at `a`, addresses modulo 2^32 (R43). -/
def State.bytesAt (s : State) : Nat → Word → List Byte
  | 0, _ => []
  | n + 1, a => s.byteAt a :: s.bytesAt n (a + 1)

/-- `raise AddressFault(addr)`: the run ends (R124). -/
def addressFault {α : Type} (a : Word) (s : State) : Except Stop α := .error (.halt (.addressFault a) s)

/-- The substrate's `read` for an access of a kind (R35, R38, R39). -/
def readMem (kind : AccessKind) (a : Word) (n : Nat) (s : State) : Except Stop (List Byte) :=
  match s.firstFault kind n a with
  | some bad => addressFault bad s
  | none => .ok (s.bytesAt n a)

/-- A 32-bit data read, any alignment (R42, R43). -/
def readWord (a : Word) (s : State) : Except Stop Word := do
  let bs ← readMem .read a 4 s
  pure (BitVec.ofNat 32 (assemble s.params.endian bs))

/-- The substrate's `write`: performed whole, or not at all where any byte faults (R38, R44). -/
def writeMem (a : Word) (bs : List Byte) (s : State) : Except Stop State :=
  match s.firstFault .write bs.length a with
  | some bad => addressFault bad s
  | none => .ok { s with mem := Memory.storeBytes a bs s.mem }

/-- Several stores, one after the other (R44). -/
def writeAll : List (Word × List Byte) → State → Except Stop State
  | [], s => .ok s
  | (a, bs) :: rest, s => do
    let s ← writeMem a bs s
    writeAll rest s

/-- The substrate's `attach_region` (R35): the region's bytes are fresh, whatever was written there before (ID18). -/
def State.attachRegion (base : Word) (len : Nat) (perm : Perm) (s : State) : State :=
  let r : Region := { base := base, len := len, perm := perm, serial := s.attachCount }
  { s with
    regions := r :: s.regions
    attachCount := s.attachCount + 1
    mem := Memory.restrict (fun a => !r.covers (BitVec.ofNat 32 a)) s.mem }

/-- The region list without the latest region attached at an address. -/
def removeRegion (base : Word) : List Region → List Region
  | [] => []
  | r :: rest => if r.base = base then rest else r :: removeRegion base rest

/-- The substrate's `detach_region` (R35): bytes that no region holds any more are forgotten. -/
def State.detachRegion (base : Word) (s : State) : State :=
  let regions := removeRegion base s.regions
  { s with
    regions := regions
    mem := Memory.restrict (fun a => regions.any (·.covers (BitVec.ofNat 32 a))) s.mem }

/-- The region list with the latest region attached at an address made inaccessible (R49). -/
def guardRegion (base : Word) : List Region → List Region
  | [] => []
  | r :: rest =>
    if r.base = base then { r with perm := ⟨false, false, false⟩ } :: rest else r :: guardRegion base rest

/-! ## General registers and the program counter -/

/-- Put a value at a place of a list of registers; a place beyond its end is reached by zeros. -/
def putReg (v : Word) : Nat → List Word → List Word
  | 0, [] => [v]
  | 0, _ :: rest => v :: rest
  | k + 1, [] => 0 :: putReg v k []
  | k + 1, a :: rest => a :: putReg v k rest

/-- Register `k` of the file, with no refusal: the accessor of the ABI roles, which the trap layer checks where it uses
them (R19, R20). A register beyond the file's list, which a file of `NUM_GPR` registers has not, reads 0 (Log 2). -/
def RegFile.reg (f : RegFile) (k : Nat) : Word := f.gpr.getD k 0

/-- The file with register `k` replaced. -/
def RegFile.setReg (f : RegFile) (k : Nat) (v : Word) : RegFile := { f with gpr := putReg v k f.gpr }

/-- The file with the program counter replaced. -/
def RegFile.setPc (f : RegFile) (pc : Word) : RegFile := { f with pc := pc }

/-- The state with its live file replaced. -/
def State.setLive (s : State) (f : RegFile) : State := { s with live := f }

/-- `x[i] <- v` for an ABI register of the trap layer (R20). -/
def State.setReg (s : State) (k : Nat) (v : Word) : State := s.setLive (s.live.setReg k v)

/-- `write_pc` (R97). -/
def State.setPc (s : State) (pc : Word) : State := s.setLive (s.live.setPc pc)

/-- The two refusals of R94 and R95, for a register number. -/
def checkReg (p : Params) (i : Nat) : Except Stop Unit :=
  if p.numGpr ≤ i then .error (.refuse .regIndexRange)
  else if i = p.aliasGpr then .error (.refuse .aliasRegisterUnmodelled)
  else .ok ()

/-- Register `i` exists and is not the aliasing one, so that it may be read and written (R17, R18). -/
abbrev State.hasReg (s : State) (i : Nat) : Prop := i < s.params.numGpr ∧ i ≠ s.params.aliasGpr

/-- `read_gpr` (R94). -/
def readGpr (i : Nat) (s : State) : Except Stop Word := do
  checkReg s.params i
  pure (s.live.reg i)

/-- `write_gpr` (R95). -/
def writeGpr (i : Nat) (v : Word) (s : State) : Except Stop State := do
  checkReg s.params i
  pure (s.setReg i v)

/-- The registers every trap reads: the syscall number's and the six arguments' (R128). -/
def trapRoles (p : Params) : List Nat := p.sysnrReg :: p.argRegs.toList

/-- The argument registers after the first that a signal's delivery writes (R140 step 4): the one `SIG_HANDLER_ARG` names, or
all of them, with free values, while it is unset (ID9, Log 15). -/
def handlerRoles (l : Launch) : List Nat :=
  match l.sigHandlerArg with
  | some j => [l.params.argReg j.succ]
  | none => [1, 2, 3, 4, 5].map l.params.argReg

/-- The registers a signal's delivery writes, in the order of R140 (steps 3 and 4). -/
def deliveryRoles (l : Launch) : List Nat := l.params.spReg :: l.params.raReg :: l.params.argReg 0 :: handlerRoles l

/-- The registers the trap layer reads and writes by role (R20). -/
def abiRoles (p : Params) : List Nat := [p.sysnrReg, p.retReg, p.spReg, p.raReg] ++ p.argRegs.toList

/-- The trap layer's registers exist and none is the aliasing one, as in REF (R20). -/
abbrev State.hasRoles (s : State) : Prop := ∀ k ∈ abiRoles s.params, s.hasReg k

/-- The refusals of a use of ABI registers that are not all modelled: the environment may not read or write
`x[ALIAS_GPR]` either (R19, R94, R95). REF meets none. -/
def checkRoles (p : Params) : List Nat → Except Stop Unit
  | [] => .ok ()
  | k :: rest => do
    checkReg p k
    checkRoles p rest

/-! ## Whole-file operations -/

/-- `snapshot` (R103). -/
def State.snapshot (s : State) : RegFile := s.live

/-- `restore` (R104). -/
def State.restore (s : State) (f : RegFile) : State := s.setLive f

/-- A thread that is neither `ZOMBIE` nor `FREE` (R132, R137). -/
def Thread.live (t : Thread) : Bool := t.state != .zombie && t.state != .free

/-- The record of thread index `k`, an empty slot beyond the table. -/
def State.thread (s : State) (k : Nat) : Thread := s.threads.getD k Thread.empty

/-- The current thread's record. -/
def State.current (s : State) : Thread := s.thread s.cur

/-- The state with the record of thread index `k` replaced. -/
def State.setThread (s : State) (k : Nat) (t : Thread) : State := { s with threads := s.threads.set k t }

/-- The state with the current thread's record replaced. -/
def State.setCurrent (s : State) (t : Thread) : State := s.setThread s.cur t

/-- The state with thread `k`'s file taken out of its slot and made live. -/
def State.unpark (s : State) (k : Nat) : State :=
  match (s.thread k).parked with
  | some f => { (s.setThread k { s.thread k with parked := none }) with live := f, cur := k }
  | none => { s with cur := k }

/-- `switch(t_out, t_in)` (R105): the live file is parked with the thread that leaves, unless it has exited and owns no
file any more (R137), and the file of thread `k` becomes live. -/
def State.switchTo (s : State) (k : Nat) : State :=
  if k = s.cur then s
  else if s.current.live then (s.setCurrent { s.current with parked := some s.snapshot }).unpark k
  else s.unpark k

/-! ## Calls: arguments, outcomes, errors -/

/-- `arg_{k+1} = x[ARG_REG[k+1]]` (R128). -/
def State.argument (s : State) (k : Fin 6) : Word := s.live.reg (s.params.argReg k)

/-- The six arguments of `handle_trap` (R128). -/
def State.arguments (s : State) : List Word :=
  [s.argument 0, s.argument 1, s.argument 2, s.argument 3, s.argument 4, s.argument 5]

/-- `syscall_number = x[SYSNR_REG]` (R128). -/
def State.sysnr (s : State) : Word := s.live.reg s.params.sysnrReg

/-- What `handle_trap` did, other than ending the run (R128, R137). -/
inductive TrapResult where
  /-- Normal return of `v`. -/
  | ret (v : Word) (s : State)
  /-- A blocking transition to a thread state (R130). -/
  | block (why : ThreadState) (s : State)
  /-- Return from handler: the file is restored already (R142). -/
  | resumed (s : State)
  /-- The current thread exited and others are live (R137). -/
  | exited (s : State)
  deriving DecidableEq, Repr

/-- An error that reaches the guest as an errno in `x[RET_REG]` (R122, R127). -/
def failWith (e : Errno) (s : State) : Except Stop TrapResult := .ok (.ret (Config.errnoWord e) s)

/-- The errno of a cause, under the two errno behaviours of the policy (R126). -/
def UnsupportedCause.errno : UnsupportedCause → Errno
  | .unsupportedSyscall => .unsupported
  | .protocolViolation => .protocolViolation

/-- The unsupported-call policy (R126). -/
def unsupported (cause : UnsupportedCause) (s : State) : Except Stop TrapResult :=
  let d : Diagnostic := { cause := cause, nr := s.sysnr, args := s.arguments }
  match s.launch.policy with
  | .silentErrno => failWith cause.errno s
  | .diagnosticErrno => failWith cause.errno { s with diagnostics := d :: s.diagnostics }
  | .fatalHalt => .error (.halt (.unsupported d) { s with diagnostics := d :: s.diagnostics })

/-- A thread that is no longer blocked: `RUNNING`, or still in its handler (R135). -/
def ThreadState.unblocked : ThreadState → ThreadState
  | .blockedOnPipeWrite => .running
  | .blockedOnWait => .running
  | .blockedOnPollTimeout => .running
  | st => st

/-- The state of a thread that blocks. Only `RUNNING` goes to a blocked state: a thread that blocks inside its handler
leaves `IN_SIGNAL_HANDLER` only by the return from it (R135), and is marked at-syscall alone. -/
def ThreadState.blocking (st why : ThreadState) : ThreadState :=
  if st = .inSignalHandler then .inSignalHandler else why

/-- The ABI register an outcome writes: a normal return's `x[RET_REG]` (R128). -/
def TrapResult.roles (p : Params) : TrapResult → List Nat
  | .ret _ _ => [p.retReg]
  | .block _ _ => []
  | .resumed _ => []
  | .exited _ => []

/-- The outcome of a trap at `p = pc` whose next instruction is at `next`: `x[RET_REG]`, the next `pc` and the thread's
marks (R128, R130). A normal return clears the at-syscall mark, and a blocking one keeps the time it blocked at (R131).
Log 17. -/
def trapNext (next : Word) : TrapResult → State
  | .ret v s =>
    let t := s.current
    let s := s.setCurrent { t with state := t.state.unblocked, atSyscall := false, blockedAt := none, pipeWait := [] }
    (s.setReg s.params.retReg v).setPc next
  | .block why s =>
    let t := s.current
    s.setCurrent { t with state := t.state.blocking why, atSyscall := true, blockedAt := some s.time }
  | .resumed s => s
  | .exited s => s

/-! ## Taking a signal into its handler (R140) and returning from it (R142) -/

/-- The trampoline's bytes, in order: the two saved mask words, the sequence that loads the signal-return syscall number,
and the trap instruction (R140); then the bytes its size leaves room for. -/
def trampoline (mask : SigSet) (launch : Launch) : List Byte :=
  wordBytes launch.params.endian (mask.extractLsb' 0 32) ++ wordBytes launch.params.endian (mask.extractLsb' 32 32) ++
    launch.trampolineSeq ++ launch.trampolineTrap ++ launch.trampolinePad

/-- `TRAMPOLINE_SIZE` (R140). -/
def trampolineSize (launch : Launch) : Nat := (trampoline 0 launch).length

/-- `T = x[SP_REG] - TRAMPOLINE_SIZE` (R140). -/
def State.trampolineBase (s : State) : Word :=
  s.live.reg s.params.spReg - BitVec.ofNat 32 (trampolineSize s.launch)

/-- `x[ARG_REG[2..6]]` at a delivery (R140 step 4): the handler address in the register `SIG_HANDLER_ARG` names, or a
free value in each while it is unset (ID9, Log 15). -/
def handlerArguments (handler : Word) (s : State) (f : RegFile) : RegFile :=
  match s.launch.sigHandlerArg with
  | some j => f.setReg (s.params.argReg j.succ) handler
  | none =>
    [1, 2, 3, 4, 5].foldl (fun g (k : Fin 6) => g.setReg (s.params.argReg k) (Config.argAfterDelivery s.time k.val)) f

/-- Step 1 of a delivery (R140): the record takes the whole live file as its pre-signal snapshot, and beside it the
recorded `T` and what the return needs. With the snapshot the thread is inside its handler, since a record holds one only
there (R135). -/
def Thread.enterHandler (t : Thread) (snapshot : RegFile) (base : Word) : Thread :=
  { t with
    state := .inSignalHandler
    context := some
      { snapshot := snapshot, base := base, preSuspend := if t.suspended then some t.savedBlocked else none,
        blockedAt := t.blockedAt } }

/-- The transition `RUNNING → IN_SIGNAL_HANDLER` of the current thread for signal `sig` (R140), its steps in order: a register
the model refuses is refused where the step that uses it comes (R19), and where the trampoline's write faults the snapshot
saved before it stays (R109), the thread then being inside its handler (R135; DESIGN CHOICE, Log 25). The trampoline is one
substrate write of all its bytes, so that a fault at any of them leaves none written: R140 does not say how many writes store
it (DESIGN CHOICE, Log 25). It clears the at-syscall
mark, so that the handler is scheduled, keeps the time an interrupted call blocked at for its re-issue, and leaves that
call's pipe-wait descriptors in the record (DESIGN CHOICE, Log 25). -/
def deliverSignal (sig : Nat) (handler : Word) (s : State) : Except Stop State := do
  checkRoles s.params [s.params.spReg]
  let base := s.trampolineBase
  let t := s.current.enterHandler s.snapshot base
  let s ← writeMem base (trampoline t.blocked s.launch) (s.setCurrent t)
  checkRoles s.params (deliveryRoles s.launch)
  let f := (s.live.setReg s.params.spReg base).setReg s.params.raReg (base + 8)
  let f := handlerArguments handler s (f.setReg (s.params.argReg 0) (BitVec.ofNat 32 sig))
  let s := s.setLive (f.setPc handler)
  pure (s.setCurrent { t with
    pending := t.pending &&& ~~~(1#64 <<< sig)
    suspended := false
    atSyscall := false
    blockedAt := none })

/-- The address the saved mask words are read from (R142, `SIGMASK_ADDR`). -/
def State.savedMaskAddr (s : State) (ctx : HandlerContext) : Except Stop Word :=
  match s.launch.sigmaskAddr with
  | .recordedBase => .ok ctx.base
  | .currentSp => readGpr s.params.spReg s

/-- The blocked set a return from handler restores (R142 step 1): the pre-suspend set if the signal interrupted a
wait-for-any-signal call, else the trampoline's saved copy. -/
def restoredMask (ctx : HandlerContext) (s : State) : Except Stop SigSet :=
  match ctx.preSuspend with
  | some mask => .ok mask
  | none => do
    let a ← s.savedMaskAddr ctx
    let lo ← readWord a s
    let hi ← readWord (a + 4) s
    pure (hi ++ lo)

/-- Return from handler, the transition `IN_SIGNAL_HANDLER → RUNNING` of the current thread (R142). With no handler
active it is a ProtocolViolation. The call the signal interrupted, if one had blocked, is re-issued as blocked since then
(R131, Log 25). -/
def returnFromHandler (s : State) : Except Stop TrapResult :=
  match s.current.context with
  | none => unsupported .protocolViolation s
  | some ctx => do
    let mask ← restoredMask ctx s
    let s := s.restore ctx.snapshot
    pure (.resumed (s.setCurrent { s.current with
      state := .running
      context := none
      blocked := mask
      atSyscall := false
      blockedAt := ctx.blockedAt }))

end Sys2Proof.Machine
end

