-- ==== Sys2Proof/Machine/Flags.lean ====
section
/-! DEFINITION. The named flags (R98, R99), the flags word and its decomposition (R100, R101), and the flag computation
of the REF adds (R112). -/

namespace Sys2Proof.Machine

/-- Every named flag under a layout: `NUM_PS` of the privilege/shadow bits (R24). -/
def Flag.all (layout : FlagLayout) : List Flag :=
  [.C, .V, .Z, .N, .X, .I] ++ (List.range layout.ps.length).map .PS ++ [.M]

/-- The layout has the flag: any but a `PS[k]` with `k` at or above `NUM_PS` (R98). -/
def Flag.named (layout : FlagLayout) : Flag → Bool
  | .M => true
  | .C => true
  | .Z => true
  | .N => true
  | .V => true
  | .X => true
  | .I => true
  | .PS k => k < layout.ps.length

/-- The file is one of the machine's: `NUM_GPR` registers and `NUM_PS` privilege/shadow bits (R14). -/
def RegFile.shaped (p : Params) (f : RegFile) : Bool := f.gpr.length == p.numGpr && f.ps.length == p.layout.ps.length

/-- `FLAG_LAYOUT` (R27). -/
def Flag.position (layout : FlagLayout) : Flag → Nat
  | .C => layout.c.val
  | .V => layout.v.val
  | .Z => layout.z.val
  | .N => layout.n.val
  | .X => layout.x.val
  | .I => layout.i.val
  | .PS k => (layout.ps.getD k 0).val
  | .M => layout.m.val

/-- The layout maps no two flags to one position (R27). -/
def layoutInjective (layout : FlagLayout) : Prop := ((Flag.all layout).map (Flag.position layout)).Nodup

/-- `FLAG_MASK` (R102): a 1 at each position a flag is mapped to. -/
def flagMask (layout : FlagLayout) : Word :=
  (Flag.all layout).foldl (fun w fl => w ||| (1#32 <<< fl.position layout)) 0

/-- `read_flag` (R98). A `PS[k]` that the file has not is no flag of it: there is no bit to
read (the answer, false, is never used: `Effect.run` refuses first). -/
def RegFile.readFlag (f : RegFile) : Flag → Bool
  | .M => f.m
  | .C => f.c
  | .Z => f.z
  | .N => f.n
  | .V => f.v
  | .X => f.x
  | .I => f.i
  | .PS k => f.ps.getD k false

/-- `write_flag` (R99). A `PS[k]` that the file has not is no flag of it: there is no bit to write. -/
def RegFile.writeFlag (f : RegFile) (fl : Flag) (b : Bool) : RegFile :=
  match fl with
  | .M => { f with m := b }
  | .C => { f with c := b }
  | .Z => { f with z := b }
  | .N => { f with n := b }
  | .V => { f with v := b }
  | .X => { f with x := b }
  | .I => { f with i := b }
  | .PS k => { f with ps := f.ps.set k b }

/-- `read_flags` (R100): the flags word, every reserved bit 0 (R28). -/
def RegFile.readFlags (layout : FlagLayout) (f : RegFile) : Word :=
  (Flag.all layout).foldl
    (fun w fl => w ||| (BitVec.setWidth 32 (BitVec.ofBool (f.readFlag fl)) <<< fl.position layout)) 0

/-- `write_flags` (R101): every named flag takes its bit, reserved bits are ignored (R28). -/
def RegFile.writeFlags (layout : FlagLayout) (f : RegFile) (w : Word) : RegFile :=
  (Flag.all layout).foldl (fun g fl => g.writeFlag fl (w.bit (fl.position layout))) f

/-- `write_flag` on the live file (R99). -/
def State.writeFlag (s : State) (fl : Flag) (b : Bool) : State := s.setLive (s.live.writeFlag fl b)

/-- `read_flags` on the live file (R100). -/
def State.readFlags (s : State) : Word := s.live.readFlags s.params.layout

/-- `write_flags` on the live file (R101). -/
def State.writeFlags (s : State) (w : Word) : State := s.setLive (s.live.writeFlags s.params.layout w)

/-- The file after the flag writes of `add32(a, b)` (R112). -/
def RegFile.addFlags (f : RegFile) (a b : Word) : RegFile :=
  let sum : BitVec 33 := a.setWidth 33 + b.setWidth 33
  let r : Word := sum.setWidth 32
  let f := f.writeFlag .C (sum.getLsbD 32)
  let f := f.writeFlag .V (a.bit 31 == b.bit 31 && r.bit 31 != a.bit 31)
  let f := f.writeFlag .Z (r == 0)
  f.writeFlag .N (r.bit 31)

/-- `add32(a, b)` (R112): the sum modulo 2^32, and the state with `C`, `V`, `Z` and `N` written. -/
def add32 (a b : Word) (s : State) : Word × State := (a + b, s.setLive (s.live.addFlags a b))

end Sys2Proof.Machine
end

