-- ==== Sys2Proof/Machine/Operands.lean ====
section
/-! DEFINITION. The operand forms: the condition test and target of the branches (R113), the memory operand of the load with its
addressing-mode bit (R119), and the operands of a system call (R128, R131). -/

namespace Sys2Proof.Machine

/-- `cond_holds(c)` (R113). -/
def condHolds (c : CondCode) (s : State) : Except Stop Bool :=
  if c = 0 then .ok s.live.z
  else if c = 1 then .ok (!s.live.z)
  else if c = 14 then .ok true
  else .error (.refuse .refCondUnmodelled)

/-- The branch target of a conditional branch (R114, R115): the resolved target where the condition holds. -/
def branchTarget (cond : CondCode) (target : Word) (s : State) : Except Stop (Option Word) := do
  let taken ← condHolds cond s
  pure (if taken then some target else none)

/-- The memory operand of the load (R119): the word at `x[rs]`, and the state after the auto-increment, which comes
after the read, so that a faulting load leaves `x[rs]` as it was. -/
def loadOperand (am : Bool) (rs : Nat) (s : State) : Except Stop (Word × State) := do
  let ea ← readGpr rs s
  let v ← readWord ea s
  if am then
    let s ← writeGpr rs (ea + 4) s
    pure (v, s)
  else pure (v, s)

/-- The value of an operand of a system call. -/
def readSrc (src : Src) (s : State) : Except Stop Word :=
  match src with
  | .arg k => .ok (s.argument k)
  | .const v => .ok v
  | .mem k off => readWord (s.argument k + off) s

/-- Write a system call's operand back where it was read (R131); a fixed value has no place. -/
def writeSrc (src : Src) (v : Word) (s : State) : Except Stop State :=
  match src with
  | .arg k => .ok (s.setReg (s.params.argReg k) v)
  | .const _ => .ok s
  | .mem k off => writeMem (s.argument k + off) (wordBytes s.params.endian v) s

/-- A signal number that names one of the 64 slots (R139). -/
def signalOf (v : Word) : Option Nat := if v.toNat < Config.numSignals then some v.toNat else none

/-- The signal set of two mask words, the first the lower half (R140). -/
def maskOf (lo hi : Word) : SigSet := hi ++ lo

end Sys2Proof.Machine
end

