-- ==== Sys2Proof/Machine/Mapping.lean ====
section
/-! DEFINITION. The mapped-page list and the memory-region calls that define which addresses are attached (R46 to R50). -/

namespace Sys2Proof.Machine

/-- A page address put into the address-descending list (R46). -/
def insertPage (p : Word) : List Word → List Word
  | [] => [p]
  | q :: rest => if q.toNat < p.toNat then p :: q :: rest else q :: insertPage p rest

/-- The pages a length takes. -/
def pageCount (p : Params) (len : Word) : Nat := (len.toNat + (p.pageSize - 1)) / p.pageSize

/-- The `n` page addresses from `base`, ascending (R47). -/
def pageAddrs (p : Params) : Nat → Word → List Word
  | 0, _ => []
  | n + 1, base => base :: pageAddrs p n (base + BitVec.ofNat 32 p.pageSize)

/-- The address a request is placed at (R47): the hint, whatever its alignment, one page above the highest mapping, or the
default. A hint of 0 is no hint (Log 19). -/
def State.mapBase (hint : Word) (s : State) : Word :=
  if hint ≠ 0 then hint
  else match s.pages with
    | highest :: _ => highest + BitVec.ofNat 32 s.params.pageSize
    | [] => s.launch.mmapDefaultBase

/-- Create one page: into the list, and attached through the substrate (R47). -/
def State.mapPage (perm : Perm) (s : State) (p : Word) : State :=
  { s with pages := insertPage p s.pages }.attachRegion p s.params.pageSize perm

/-- Destroy one page: out of the list, and detached (R48). -/
def State.unmapPage (s : State) (p : Word) : State := { s with pages := s.pages.erase p }.detachRegion p

/-- Create pages one by one at ascending addresses (R47). -/
def State.mapPages (perm : Perm) (addrs : List Word) (s : State) : State := addrs.foldl (State.mapPage perm) s

/-- Destroy pages highest address first (R48). -/
def State.unmapPages (addrs : List Word) (s : State) : State := addrs.reverse.foldl State.unmapPage s

/-- The request's pages would run past the top of the address space, or are more than the layer grants: an "oversized
allocation request" (R122, which gives no bound: DESIGN CHOICE, Log 19). -/
def State.oversized (base : Word) (n : Nat) (s : State) : Bool :=
  decide (s.launch.maxMapPages < n) || decide (2 ^ 32 < base.toNat + n * s.params.pageSize)

/-- Two pages share a byte. -/
def pagesOverlap (p : Params) (a b : Word) : Bool :=
  decide (a.toNat < b.toNat + p.pageSize) && decide (b.toNat < a.toNat + p.pageSize)

/-- The overlap check of a mapping call: some page of the request shares a byte with a listed page, whether or not their
addresses are equal (they need not be, since no rule aligns a hint or `MMAP_DEFAULT_BASE`; DESIGN CHOICE, Log 19). -/
def State.overlapsMapped (addrs : List Word) (s : State) : Bool :=
  addrs.any (fun a => s.pages.any (pagesOverlap s.params a))

/-- A mapping call (R47, R50): the whole request or nothing of it. `fill` is what an eager fill stores at the base: all of
it, whatever permission the mapping has, since the layer and not the guest stores it, and the host's read of the file
does not fail (DESIGN CHOICE, Log 19). Shapes the source does not describe take the unsupported-call policy (Log 19). -/
def mapCall (hint len : Word) (perm : Perm) (fill : List Byte) (s : State) : Except Stop TrapResult :=
  let base := s.mapBase hint
  let n := pageCount s.params len
  let addrs := pageAddrs s.params n base
  if n = 0 then unsupported .unsupportedSyscall s
  else if s.oversized base n then failWith .oversizedAllocation s
  else if s.overlapsMapped addrs then unsupported .unsupportedSyscall s
  else
    let s := s.mapPages perm addrs
    .ok (.ret base { s with mem := Memory.storeBytes base fill s.mem })

/-- The `n` bytes a file-backed mapping reads, at a logical time (R50). -/
def fileBytes (time n : Nat) : List Byte := (List.range n).map (Config.fileByte time)

/-- Destroying a mapping (R48). A range that is not wholly mapped takes the unsupported-call policy (Log 19). -/
def unmapCall (addr len : Word) (s : State) : Except Stop TrapResult :=
  let n := pageCount s.params len
  let addrs := pageAddrs s.params n addr
  if n = 0 ∨ !addrs.all (s.pages.contains ·) then unsupported .unsupportedSyscall s
  else .ok (.ret (Config.callResult s.time) (s.unmapPages addrs))

/-- The one supported protection change (R49): a single already-mapped page made inaccessible, which also takes it out
of the page list (R46). Every other transition takes the unsupported-call policy. -/
def protectCall (addr len prot noneVal : Word) (s : State) : Except Stop TrapResult :=
  if prot = noneVal ∧ pageCount s.params len = 1 ∧ s.pages.contains addr then
    .ok (.ret (Config.callResult s.time)
      { s with pages := s.pages.erase addr, regions := guardRegion addr s.regions })
  else unsupported .unsupportedSyscall s

end Sys2Proof.Machine
end

