-- ==== Sys2Proof/Machine/Schedule.lean ====
section
/-! DEFINITION. The syscall return point: the round-robin scheduler (R132) and the signal check of the thread about to
run (R140). -/

namespace Sys2Proof.Machine

/-- The element a choice function picks from a list, by position; a single candidate needs no choice. -/
def pickFrom (choose : List Nat → Nat) : List Nat → Option Nat
  | [] => none
  | [k] => some k
  | k :: l :: rest => some ((k :: l :: rest).getD (choose (k :: l :: rest) % (rest.length + 2)) k)

/-- The thread indices in round-robin order: the one after the current first, the current one last (R132). -/
def State.rotation (s : State) : List Nat :=
  (List.range s.threads.length).map (fun k => (s.cur + 1 + k) % s.threads.length)

/-- A live thread not marked at-syscall (R132). -/
def State.eligible (s : State) (k : Nat) : Bool := (s.thread k).live && !(s.thread k).atSyscall

/-- The thread index the scheduler chooses (R132): the next live one not at-syscall, else any live one (Log 14). -/
def State.nextThread (s : State) : Nat :=
  match s.rotation.find? s.eligible with
  | some k => k
  | none => (pickFrom (Config.fallbackPick s.time) (s.rotation.filter (fun k => (s.thread k).live))).getD s.cur

/-- The handler value of signal slot `k` (R139). -/
def Thread.handler (t : Thread) (k : Nat) : Handler := t.handlers[k]?.getD .default

/-- The summary flag "signal-pending" of R135: some signal is pending for the thread. -/
def Thread.signalPending (t : Thread) : Bool := t.pending != 0

/-- The address a pending, unblocked signal of the thread dispatches to, if slot `k` holds one (R140, Log 18). -/
def Thread.dispatch (t : Thread) (k : Nat) : Option Word :=
  match t.handler k with
  | .address a => if t.pending.getLsbD k && !t.blocked.getLsbD k then some a else none
  | .default => none
  | .ignore => none

/-- The signals that may be delivered to the thread, rising (R140). -/
def Thread.deliverable (t : Thread) : List Nat := (List.range 64).filter (fun k => (t.dispatch k).isSome)

/-- The pending and unblocked set of the thread, which `SIG_PICK` is a function of (D33). -/
def Thread.candidates (t : Thread) : SigSet := t.pending &&& ~~~t.blocked

/-- The signal check for the thread about to run (R140): at most one delivery, and none while a handler is active
(R141, R146). -/
def checkSignals (s : State) : Except Stop State :=
  if s.current.context.isSome then .ok s
  else match pickFrom (Config.sigPick s.current.candidates) s.current.deliverable with
    | none => .ok s
    | some k =>
      match s.current.dispatch k with
      | some handler => deliverSignal k handler s
      | none => .ok s

/-- The syscall return point (R107, R132): scheduling, the switch, then the signal check. -/
def syscallReturnPoint (s : State) : Except Stop State := checkSignals (s.switchTo s.nextThread)

end Sys2Proof.Machine
end

