-- ==== Sys2Proof/Machine/Calls.lean ====
section
/-! DEFINITION. `handle_trap` (R128): the calls whose effects the spec describes, and the calls the host environment
answers. -/

namespace Sys2Proof.Machine

/-! ## Calls the host answers -/

/-- The environment's answer to `handle_trap(thread_id, syscall_number, args, pc)` (R128): the next scripted one, or a
free value where the script has ended (Log 10). -/
def State.nextReply (s : State) : HostReply × State :=
  match s.replies with
  | r :: rest => (r, { s with replies := rest })
  | [] => (Config.hostReply s.time s.current.tid s.sysnr s.arguments s.live.pc, s)

/-- The effect of an answer, one for each outcome of R122, R126, R127 and R130. -/
def applyReply (r : HostReply) (s : State) : Except Stop TrapResult :=
  match r with
  | .ret v writes => do
    let s ← writeAll writes s
    pure (.ret v s)
  | .error n => failWith (.host n) s
  | .blockPipe fds => .ok (.block .blockedOnPipeWrite (s.setCurrent { s.current with pipeWait := fds }))
  | .blockPoll => .ok (.block .blockedOnPollTimeout s)
  | .unsupported => unsupported .unsupportedSyscall s
  | .protocolViolation => unsupported .protocolViolation s
  | .exhausted => failWith .hostExhausted s

/-- A call forwarded to the host (R127, R128). -/
def hostCall (s : State) : Except Stop TrapResult := applyReply s.nextReply.1 s.nextReply.2

/-- The remaining-timeout argument of a re-issued call, decreased by the logical time elapsed since it blocked and
written back where the call reads it (R131, Log 16). -/
def decreaseTimeout (timeout : Src) (s : State) : Except Stop State :=
  match s.current.blockedAt with
  | none => .ok s
  | some blockedAt => do
    let remaining ← readSrc timeout s
    let elapsed := s.time - blockedAt
    let v := if elapsed ≤ remaining.toNat then remaining - BitVec.ofNat 32 elapsed else Config.timeoutUnderflow s.time
    writeSrc timeout v s

/-- A poll-style call (R131). -/
def pollCall (timeout : Src) (s : State) : Except Stop TrapResult := do
  let s ← decreaseTimeout timeout s
  hostCall s

/-! ## Threads -/

/-- The ids in use: those of the live and zombie threads (D39). -/
def State.usedIds (s : State) : List Word := (s.threads.filter (fun t => t.state != .free)).map (·.tid)

/-- The new synthetic id a clone returns (R136): the environment's choice where it is new, else the least number from 1
that is in no use (D39, Log 12). -/
def State.newId (s : State) : Word :=
  if s.usedIds.contains (Config.cloneId s.time) then
    (((List.range (s.threads.length + 1)).map (fun k => BitVec.ofNat 32 (k + 1))).find?
      (fun id => !s.usedIds.contains id)).getD 0
  else Config.cloneId s.time

/-- The child's Register File (R136): the caller's at the return point, with a new stack pointer and return value 0. -/
def RegFile.childOf (p : Params) (f : RegFile) (newSp next : Word) : RegFile :=
  ((f.setReg p.spReg newSp).setReg p.retReg 0).setPc next

/-- The record of a new thread: its signal slots are the defaults, and it parks its file (R136, R138). It is `RUNNING`, with no
pre-signal snapshot, where the caller is inside a handler too (DESIGN CHOICE, Log 28). -/
def Thread.child (id parent exitSignal : Word) (file : RegFile) : Thread :=
  { Thread.empty with tid := id, parent := parent, exitSignal := exitSignal, state := .running, parked := some file }

/-- The thread table with a new record in the first free slot, or in a new slot while the table is not full (R136). -/
def State.placeThread (t : Thread) (s : State) : Option State :=
  match s.threads.findIdx? (fun u => u.state == .free) with
  | some k => some (s.setThread k t)
  | none =>
    if s.threads.length < s.launch.maxThreads then some { s with threads := s.threads ++ [t] } else none

/-- Clone (R136), whatever its flags: no flags operand is read (DESIGN CHOICE, Log 12). `next` is the address after the
trap. -/
def cloneCall (next newSp exitSignal : Word) (s : State) : Except Stop TrapResult :=
  match s.placeThread (Thread.child s.newId s.current.tid exitSignal (s.live.childOf s.params newSp next)) with
  | some s' => do
    checkRoles s.params [s.params.spReg, s.params.retReg]
    pure (.ret s.newId s')
  | none => failWith .threadTableFull s

/-- The record of a thread that exited: a zombie that owns no file (R137). An exit inside a handler drops the pre-signal
snapshot with the file (DESIGN CHOICE, Log 28). -/
def Thread.exited (t : Thread) (code : Word) : Thread :=
  { t with
    state := .zombie, exitValue := code, parked := none, context := none, pipeWait := [], atSyscall := false,
    blockedAt := none, suspended := false }

/-- A thread's exit call (R137): the run halts with the last live thread. It is an exit from inside a handler too, which
R135's transitions do not list (DESIGN CHOICE, Log 28). -/
def exitCall (code : Word) (s : State) : Except Stop TrapResult :=
  let s := s.setCurrent (s.current.exited code)
  if s.threads.any (·.live) then .ok (.exited s) else .error (.halt (.exit code) s)

/-- The target of a wait-style call that means any child: -1 (R138). -/
def anyChild : Word := 0xFFFFFFFF

/-- A zombie the current thread's wait may harvest (R138, Log 20). -/
def State.harvestable (s : State) (target : Word) (t : Thread) : Bool :=
  t.state == .zombie && t.parent == s.current.tid && (target == anyChild || t.tid == target)

/-- A wait-style call (R138). Every accepted flags word asks for the same: the call blocks while no zombie matches. A buffer
address of 0 is no buffer (DESIGN CHOICE, Log 20). -/
def waitCall (target flags buf : Word) (accepted : List Word) (s : State) : Except Stop TrapResult :=
  if accepted.contains flags then
    match s.threads.findIdx? (s.harvestable target) with
    | none => .ok (.block .blockedOnWait s)
    | some k => do
      let t := s.thread k
      let s ← if buf = 0 then pure s else writeMem buf (wordBytes s.params.endian t.exitValue) s
      pure (.ret t.tid (s.setThread k Thread.empty))
  else unsupported .protocolViolation s

/-! ## Signals -/

/-- Signal registration (R139). A number of 64 or more, which names no slot, takes the unsupported-call policy (DESIGN CHOICE,
Log 18). -/
def registerCall (sig handler dflVal ignVal : Word) (s : State) : Except Stop TrapResult :=
  match signalOf sig with
  | none => unsupported .unsupportedSyscall s
  | some k =>
    let h : Handler := if handler = dflVal then .default else if handler = ignVal then .ignore else .address handler
    .ok (.ret (Config.callResult s.time)
      (s.setCurrent { s.current with handlers := s.current.handlers.setIfInBounds k h }))

/-- Mask change (R145). Its three modes, and that any other takes the unsupported-call policy, are the model's (DESIGN
CHOICE, Log 9). -/
def maskCall (how : Word) (mask : SigSet) (blockVal unblockVal setVal : Word) (s : State) : Except Stop TrapResult :=
  let t := s.current
  let done (blocked : SigSet) : Except Stop TrapResult :=
    .ok (.ret (Config.callResult s.time) (s.setCurrent { t with blocked := blocked }))
  if how = blockVal then done (t.blocked ||| mask)
  else if how = unblockVal then done (t.blocked &&& ~~~mask)
  else if how = setVal then done mask
  else unsupported .unsupportedSyscall s

/-- The run has exactly one live thread (R144). -/
def State.singleThread (s : State) : Bool := (s.threads.filter (·.live)).length == 1

/-- Sending a signal (R144, R149): the abort signal to itself halts a single-thread run; any other becomes pending for
its target, and an unknown target or number takes the unsupported-call policy (Log 18). -/
def sendCall (target sig : Word) (s : State) : Except Stop TrapResult :=
  if sig.toNat = s.launch.abortSignal ∧ target = s.current.tid ∧ s.singleThread then .error (.halt .abort s)
  else match signalOf sig, s.threads.findIdx? (fun t => t.live && t.tid == target) with
    | some k, some j =>
      .ok (.ret (Config.callResult s.time)
        (s.setThread j { s.thread j with pending := (s.thread j).pending ||| (1#64 <<< k) }))
    | _, _ => unsupported .unsupportedSyscall s

/-- Enter a wait-for-any-signal call: stash the blocked set and take the temporary mask, once (R139, R142). -/
def State.suspend (mask : SigSet) (s : State) : State :=
  if s.current.suspended then s
  else s.setCurrent { s.current with savedBlocked := s.current.blocked, blocked := mask, suspended := true }

/-- Leave a wait-for-any-signal call that completes with no handler run: the stashed set is blocked again (Log 21). -/
def State.unsuspend (s : State) : State :=
  if s.current.suspended then s.setCurrent { s.current with blocked := s.current.savedBlocked, suspended := false }
  else s

/-- A wait-for-any-signal call (R131, R142): the environment answers whether it blocks (Log 21). -/
def suspendCall (mask : SigSet) (timeout : Option Src) (s : State) : Except Stop TrapResult := do
  let s ← match timeout with
    | some src => decreaseTimeout src s
    | none => pure s
  match ← hostCall (s.suspend mask) with
  | .ret v s => pure (.ret v s.unsuspend)
  | r => pure r

/-! ## `handle_trap` -/

/-- The call a trap requests: the launch's row for `x[SYSNR_REG]` (R128). -/
def State.requestedCall (s : State) : Option Syscall :=
  (s.launch.syscalls.find? (fun b => b.nr == s.sysnr)).map (·.call)

/-- The effects of one call, its operands read first; `next` is the address after the trap. -/
def runCall (next : Word) (call : Syscall) (s : State) : Except Stop TrapResult :=
  match call with
  | .forward => hostCall s
  | .poll timeout => pollCall timeout s
  | .clone newSp exitSignal => do
    let newSp ← readSrc newSp s
    let exitSignal ← readSrc exitSignal s
    cloneCall next newSp exitSignal s
  | .exit code => do
    let code ← readSrc code s
    exitCall code s
  | .wait target flags buf accepted => do
    let target ← readSrc target s
    let flags ← readSrc flags s
    let buf ← readSrc buf s
    waitCall target flags buf accepted s
  | .mmapAnon hint len perm => do
    let hint ← readSrc hint s
    let len ← readSrc len s
    mapCall hint len perm [] s
  | .mmapFile hint len perm => do
    let hint ← readSrc hint s
    let len ← readSrc len s
    mapCall hint len perm (fileBytes s.time len.toNat) s
  | .munmap addr len => do
    let addr ← readSrc addr s
    let len ← readSrc len s
    unmapCall addr len s
  | .mprotect addr len prot noneVal => do
    let addr ← readSrc addr s
    let len ← readSrc len s
    let prot ← readSrc prot s
    protectCall addr len prot noneVal s
  | .sigRegister sig handler dflVal ignVal => do
    let sig ← readSrc sig s
    let handler ← readSrc handler s
    registerCall sig handler dflVal ignVal s
  | .sigMask how lo hi blockVal unblockVal setVal => do
    let how ← readSrc how s
    let lo ← readSrc lo s
    let hi ← readSrc hi s
    maskCall how (maskOf lo hi) blockVal unblockVal setVal s
  | .sigSend target sig => do
    let target ← readSrc target s
    let sig ← readSrc sig s
    sendCall target sig s
  | .sigSuspend lo hi timeout => do
    let lo ← readSrc lo s
    let hi ← readSrc hi s
    suspendCall (maskOf lo hi) timeout s
  | .sigReturn => returnFromHandler s

/-- `handle_trap` (R128), of a trap whose next instruction is at `next`: a number the layer does not support takes the
unsupported-call policy (R126). -/
def handleTrap (next : Word) (s : State) : Except Stop TrapResult :=
  match s.requestedCall with
  | some call => runCall next call s
  | none => unsupported .unsupportedSyscall s

end Sys2Proof.Machine
end

