-- ==== Sys2Proof/Machine/Trap.lean ====
section
/-! DEFINITION. The end of every step (R107): the `pc` update, and for an opcode with attribute `trap` the crossing into the
trap layer (R128); then the trap family, `TRAP` (R120). -/

namespace Sys2Proof.Machine

/-- The logical clock after an executed trap (R134): the count of syscalls goes up by one, and the thread that trapped
keeps the time of its trap. -/
def State.tick (s : State) (index : Nat) : State :=
  { s.setThread index { s.thread index with lastRun := s.time } with time := s.time + 1 }

/-- The trap at `pc`, of an instruction whose next one is at `next` (R107, R128, R146): the trap's own outcome, the `pc`
update, the clock, then the return point. A role whose register the model refuses is refused where it is used (R19). -/
def trapStep (next : Word) (s : State) : Except Stop State := do
  checkRoles s.params (trapRoles s.params)
  let r ← handleTrap next s
  checkRoles s.params (r.roles s.params)
  syscallReturnPoint ((trapNext next r).tick s.cur)

/-- The opcode has attribute `trap` (R69, R107). -/
def State.traps (s : State) (op : OpcodeId) : Bool := (itable s.params op).attrs.contains .trap

/-- The address after the instruction at `p` (R107): `p + len` (mod 2^32). -/
def State.after (s : State) (p : Word) (op : OpcodeId) : Word := p + BitVec.ofNat 32 (itable s.params op).byteLength

/-- The end of a step of the instruction at `p`, once `EXEC` has given its branch target or none (R107): an opcode with
attribute `trap` goes to the trap layer, with `pc = p` (R128); any other takes its target, or goes on at `p + len`. -/
def finish (p : Word) (op : OpcodeId) (target : Option Word) (s : State) : Except Stop State :=
  if s.traps op then trapStep (s.after p op) (s.setPc p)
  else pure (s.setPc (target.getD (s.after p op)))

/-- `TRAP` (R120): "`EXEC` performs nothing itself". -/
def execTrap (s : State) : Host.Outcome State Fault Refusal := outcome (finish s.live.pc .trap none s)

end Sys2Proof.Machine
end

