-- ==== Sys2Proof/Machine/Arith.lean ====
section
/-! DEFINITION. The arithmetic family: `ADDQ`, `MOVEQ`, `ADD_R` (R116 to R118). -/

namespace Sys2Proof.Machine

/-- `ADDQ` (R116): `write_gpr(rd, add32(read_gpr(rd), imm))`. -/
def execAddq (rd : RegNum) (imm : Word) (s : State) : Host.Outcome State Fault Refusal :=
  outcome do
    let a ← readGpr rd s
    let (r, s) := add32 a imm s
    let s ← writeGpr rd r s
    finish s.live.pc .addq none s

/-- `MOVEQ` (R117): `write_gpr(rd, imm)`, no flag written. -/
def execMoveq (rd : RegNum) (imm : Word) (s : State) : Host.Outcome State Fault Refusal :=
  outcome do
    let s ← writeGpr rd imm s
    finish s.live.pc .moveq none s

/-- `ADD_R` (R118): both registers are read before the write (R106). -/
def execAddR (rd rs : RegNum) (s : State) : Host.Outcome State Fault Refusal :=
  outcome do
    let a ← readGpr rd s
    let b ← readGpr rs s
    let (r, s) := add32 a b s
    let s ← writeGpr rd r s
    finish s.live.pc .addR none s

end Sys2Proof.Machine
end

