-- ==== Sys2Proof/Machine/Branch.lean ====
section
/-! DEFINITION. The branch family: `BCC_S` and `BCC_W` (R114, R115). -/

namespace Sys2Proof.Machine

/-- `BCC_S` (R114). -/
def execBccS (cond : CondCode) (target : Word) (s : State) : Host.Outcome State Fault Refusal :=
  outcome do
    let br ← branchTarget cond target s
    finish s.live.pc .bccS br s

/-- `BCC_W` (R115). -/
def execBccW (cond : CondCode) (target : Word) (s : State) : Host.Outcome State Fault Refusal :=
  outcome do
    let br ← branchTarget cond target s
    finish s.live.pc .bccW br s

end Sys2Proof.Machine
end

