-- ==== Sys2Proof/Machine/Load.lean ====
section
/-! DEFINITION. The memory family: `LOAD_D` (R119). -/

namespace Sys2Proof.Machine

/-- `LOAD_D` (R119): the loaded value is written last, so it stays where `rd` is also the incremented register. -/
def execLoadD (am : Bool) (rd rs : RegNum) (s : State) : Host.Outcome State Fault Refusal :=
  outcome do
    let (v, s) ← loadOperand am rs s
    let s ← writeGpr rd v s
    finish s.live.pc .loadD none s

end Sys2Proof.Machine
end

