-- ==== Sys2Proof/Machine/Special.lean ====
section
/-! DEFINITION. The special-register moves (R121): decoded in full (R78), refused when executed, since the source
describes no special register (R30, ID7). -/

namespace Sys2Proof.Machine

/-- The pseudocode of R121: `refuse(SpecialRegisterUnmodelled)`. -/
def refuseSpecial : Except Stop State := .error (.refuse .specialRegisterUnmodelled)

/-- `MOVE_SPR_IMM` by the specific path of row 8, `ps = 7` (R121). -/
def execMoveSprImmP7 (_imm : Word) (_s : State) : Host.Outcome State Fault Refusal := outcome refuseSpecial

/-- `MOVE_SPR_IMM` by the specific path of row 9, `ps = 11` (R121). -/
def execMoveSprImmP11 (_imm : Word) (_s : State) : Host.Outcome State Fault Refusal := outcome refuseSpecial

/-- `MOVE_SPR_IMM` by the generic path of row 10 (R121). -/
def execMoveSprImm (_ps : RegNum) (_imm : Word) (_s : State) : Host.Outcome State Fault Refusal := outcome refuseSpecial

/-- `MOVE_SPR_REG` (R121). -/
def execMoveSprReg (_ps _rs : RegNum) (_s : State) : Host.Outcome State Fault Refusal := outcome refuseSpecial

end Sys2Proof.Machine
end

