-- ==== Sys2Proof/Machine/Dispatch.lean ====
section
/-! DEFINITION. `EXEC` and the `pc` update that follows it (R107): one arm per instruction. -/

namespace Sys2Proof.Machine

/-- Execute one decoded instruction (R107). -/
def exec (i : Instr) (s : State) : Host.Outcome State Fault Refusal :=
  match i with
  | .bccS cond target => Sys2Proof.Machine.execBccS cond target s
  | .addq rd imm => Sys2Proof.Machine.execAddq rd imm s
  | .moveq rd imm => Sys2Proof.Machine.execMoveq rd imm s
  | .addR rd rs => Sys2Proof.Machine.execAddR rd rs s
  | .loadD am rd rs => Sys2Proof.Machine.execLoadD am rd rs s
  | .bccW cond target => Sys2Proof.Machine.execBccW cond target s
  | .trap => Sys2Proof.Machine.execTrap s
  | .moveSprImmP7 imm => Sys2Proof.Machine.execMoveSprImmP7 imm s
  | .moveSprImmP11 imm => Sys2Proof.Machine.execMoveSprImmP11 imm s
  | .moveSprImm ps imm => Sys2Proof.Machine.execMoveSprImm ps imm s
  | .moveSprReg ps rs => Sys2Proof.Machine.execMoveSprReg ps rs s

end Sys2Proof.Machine
end

