-- ==== Sys2Proof/Machine/Fetch.lean ====
section
/-! DEFINITION. The decode of the instruction at `pc`, with the fetches it makes (R83, R88, R89), and the placing of a
word where the next fetch finds it. -/

namespace Sys2Proof.Machine

/-- `decode(pc, M)` (R83), in the order of R89: the odd-`pc` model fault, the base word's fetch, the base-pattern match,
the extension's fetch on demand, the extension constraint. `M` is read once (R87). A table this spec does not cover is
refused before any of them (R58). -/
def fetchDecode (s : State) : Except Stop Decoded :=
  let pc := s.live.pc
  let m := s.live.m
  if !tableSupported s.params.table then .ok (.refused .unsupportedLength)
  else if pc.bit 0 then .error (.fault (.misalignedFetch pc))
  else do
    let base ← readMem .execute pc 2 s
    let w : BaseWord := BitVec.ofNat 16 (assemble s.params.endian base)
    match selectIn s.params.table w with
    | none => pure (.invalid (.noRule w))
    | some r => do
      let ext ← readMem .execute (pc + 2) r.extLen s
      pure (decodeRule s.params r w (BitVec.ofNat 32 (assemble s.params.endian ext)) pc m)

/-- Executing INVALID (R123): nothing changes, and the run halts. -/
def illegalInstruction (s : State) : Except Stop State := .error (.halt (.illegalInstruction s.live.pc) s)

/-- The REF instruction whose semantics `EXEC` gives a decode result, if the parameters give it any (R110, D25). -/
def State.refInstr (s : State) (d : DecodedInstr) : Option Instr := if s.params.refExec then d.instr? else none

/-- The state with bytes placed at an address, attached for execution where a byte of them is not. -/
def State.placeCode (a : Word) (bs : List Byte) (s : State) : State :=
  let s := match s.firstFault .execute bs.length a with
    | none => s
    | some _ => s.attachRegion a bs.length ⟨true, true, true⟩
  { s with mem := Memory.storeBytes a bs s.mem }

end Sys2Proof.Machine
end

