-- ==== Sys2Proof/Machine/Exec.lean ====
section
/-! DEFINITION. `EXEC` of a real table (R110): an effect, run through the operations of 41_regfile_ops.md and the memory
substrate alone, for the opcodes the parameters do not give the REF semantics; and what a step does with what its decode
gave (R107). -/

namespace Sys2Proof.Machine

/-- Run an effect (R110), its operations one at a time in order (R106), to its branch target or to the end of the run. A
register the model refuses is refused (R94, R95), as is an operation on what is no part of the file (Log 2), and a fault of
the substrate ends the run (R124). `read_pc` returns `p`, the address of the instruction, throughout (R107, D24); a snapshot
copies the stored `pc`, which the effect's own writes have changed (DESIGN CHOICE, Log 26). -/
def Effect.run (p : Word) : Effect → State → Except Stop (Option Word × State)
  | .done target, s => .ok (target, s)
  | .readGpr i rest, s =>
    match Machine.readGpr i s with
    | .ok v => (rest v).run p s
    | .error e => .error e
  | .writeGpr i v rest, s =>
    match Machine.writeGpr i v s with
    | .ok s => rest.run p s
    | .error e => .error e
  | .readPc rest, s => (rest p).run p s
  | .writePc v rest, s => rest.run p (s.setPc v)
  | .readFlag f rest, s =>
    if f.named s.params.layout then (rest (s.live.readFlag f)).run p s else .error (.refuse .notInRegFile)
  | .writeFlag f b rest, s =>
    if f.named s.params.layout then rest.run p (s.writeFlag f b) else .error (.refuse .notInRegFile)
  | .readFlags rest, s => (rest s.readFlags).run p s
  | .writeFlags v rest, s => rest.run p (s.writeFlags v)
  | .snapshot rest, s => (rest s.snapshot).run p s
  | .restore f rest, s => if f.shaped s.params then rest.run p (s.restore f) else .error (.refuse .notInRegFile)
  | .memRead addr n rest, s =>
    match readMem .read addr n s with
    | .ok bs => (rest (assemble s.params.endian bs)).run p s
    | .error e => .error e
  | .memWrite addr n v rest, s =>
    match writeMem addr (disassemble s.params.endian n v) s with
    | .ok s => rest.run p s
    | .error e => .error e
  | .endRun status, s => .error (.halt (.byExec status) s)

/-- The step of an instruction whose `EXEC` has this effect (R107): the effect, then the end of the step. -/
def execEffect (e : Effect) (op : OpcodeId) (s : State) : Host.Outcome State Fault Refusal :=
  outcome do
    let p := s.live.pc
    let (target, s) ← e.run p s
    finish p op target s

/-- The step of an instruction whose semantics are no REF semantics (R110): that of the free effect which the parameter `EXEC`
gives its descriptor and operand record. -/
def execOpen (d : DecodedInstr) (s : State) : Host.Outcome State Fault Refusal :=
  let desc := itable s.params d.opcode
  execEffect (Config.exec desc d.operands s.live.pc desc.byteLength) d.opcode s

/-- The step once its decode has answered (R107): INVALID, or a rule that yields the INVALID opcode id, halts (R123); an
opcode whose handler is intentionally unimplemented is refused (R111); any other is executed, by the REF semantics where
the parameters give it those, else by the free effect (R110). -/
def execDecoded (d : Decoded) (s : State) : Host.Outcome State Fault Refusal :=
  match d with
  | .invalid _ => outcome (illegalInstruction s)
  | .refused why => .refused (.decodeRefused why)
  | .instr d =>
    if d.opcode = .invalid then outcome (illegalInstruction s)
    else if s.params.unimplemented.contains d.opcode then .refused .intentionallyUnimplemented
    else match s.refInstr d with
      | some i => exec i s
      | none => execOpen d s

end Sys2Proof.Machine
end

