-- ==== Sys2Proof/Machine/Step.lean ====
section
/-! DEFINITION. One step of the current thread (R107). -/

namespace Sys2Proof.Machine

/-- One step (R107): a halted run takes none (R125), and the decode's descriptor decides the rest. -/
def step (s : State) : Host.Outcome State Fault Refusal :=
  match s.halted with
  | some h => .fault (.runOver h.status)
  | none =>
    match fetchDecode s with
    | .error stop => outcome (.error stop)
    | .ok d => execDecoded d s

/-- The state with a table word placed at `pc`, in attached executable memory, so that the next step runs it (Log 4). -/
def State.withFetchWord (s : State) (nbits w : Nat) : State := s.placeCode s.live.pc (tableBytes s.params.endian nbits w)

end Sys2Proof.Machine
end

