-- ==== Sys2Proof/Machine/Launch.lean ====
section
/-! DEFINITION. The initial stack layout a run expects to find (R154), and the operation that writes one below the
configured stack top. -/

namespace Sys2Proof.Machine

/-- A string an argument or environment pointer names: its address, and its bytes with whatever ends them. -/
structure GuestString where
  addr : Word
  bytes : List Byte
  deriving DecidableEq, Repr

/-- The words of the initial stack, ascending from `x[SP_REG]` (R154): `argc`, the argument pointers and a null, the
environment pointers and a null, the auxiliary `(type, value)` pairs, and the pair `(0, 0)`. -/
def stackWords (argv envp : List Word) (auxv : List (Word × Word)) : List Word :=
  BitVec.ofNat 32 argv.length :: (argv ++ [0] ++ envp ++ [0] ++ auxv.flatMap (fun p => [p.1, p.2]) ++ [0, 0])

/-- The bytes of consecutive words (R154, D35). -/
def wordsBytes (e : Endian) (ws : List Word) : List Byte := ws.flatMap (wordBytes e)

/-- What the bootstrap places in memory, each block of bytes with its address (R154): the words at `base`, then the
strings they point to. -/
def stackBlocks (e : Endian) (base : Word) (argv envp : List GuestString) (auxv : List (Word × Word)) :
    List (Word × List Byte) :=
  (base, wordsBytes e (stackWords (argv.map (·.addr)) (envp.map (·.addr)) auxv)) ::
    (argv ++ envp).map (fun g => (g.addr, g.bytes))

/-- "The whole layout, and the strings it points to, lie below `STACK_TOP`" (R154). -/
def blocksBelow (top : Word) (blocks : List (Word × List Byte)) : Bool :=
  blocks.all (fun b => decide (b.1.toNat + b.2.length ≤ top.toNat))

/-- The state holds the layout at `x[SP_REG]`, below `STACK_TOP` (R154). -/
def State.stackLaidOut (s : State) (argv envp : List GuestString) (auxv : List (Word × Word)) : Prop :=
  let blocks := stackBlocks s.params.endian (s.live.reg s.params.spReg) argv envp auxv
  blocksBelow s.launch.stackTop blocks = true ∧ ∀ b ∈ blocks, s.bytesAt b.2.length b.1 = b.2

/-- Write the layout, the strings first, and point `x[SP_REG]` at it, as the loader does before a run (R153, R154); `none`
where it does not lie below `STACK_TOP`, or the loader may not write `x[SP_REG]` (R19). -/
def State.layStack (base : Word) (argv envp : List GuestString) (auxv : List (Word × Word)) (s : State) :
    Option State :=
  let blocks := stackBlocks s.params.endian base argv envp auxv
  if blocksBelow s.launch.stackTop blocks then
    (writeGpr s.params.spReg base
      { s with mem := blocks.reverse.foldl (fun mem b => Memory.storeBytes b.1 b.2 mem) s.mem }).toOption
  else none

end Sys2Proof.Machine
end

