-- ==== Sys2Proof/Safety.lean ====
section
/-! DEFINITION. What claims about a run speak of: how it ended (R125), the premise "no model fault and no refusal" (R11),
and the invariants of the machine's state. -/

namespace Sys2Proof.Machine

/-- The run has ended (R125). -/
def State.over (s : State) : Bool := s.halted.isSome

/-- The final status of a run that has ended (R125). -/
def State.finalStatus (s : State) : Option FinalStatus := s.halted.map Halt.status

/-- Every status other than `EXIT` is abnormal (R125). -/
def FinalStatus.abnormal : FinalStatus → Bool
  | .exit _ => false
  | _ => true

/-- The next `k` steps end in no model fault and no refusal (R11); a run that is over takes no more steps. -/
def State.runsClean : Nat → State → Prop
  | 0, _ => True
  | k + 1, s => s.over = true ∨ ∃ t, step s = .next t ∧ t.runsClean k

/-- The memory is in canonical form. -/
def State.memCanonical (s : State) : Prop := Memory.wf s.mem = true

/-- The mapped-page list is address-descending, each page once (R46). -/
def State.pagesDescending (s : State) : Prop := s.pages.Pairwise (fun p q => q.toNat < p.toNat)

/-- Exactly one Register File is live, the current thread's, and every other live thread owns a parked one (R15). While
the run goes on the current thread is live. -/
def State.oneLiveFile (s : State) : Prop :=
  s.cur < s.threads.length ∧
    (∀ k, k < s.threads.length → (s.thread k).parked.isSome = (decide (k ≠ s.cur) && (s.thread k).live)) ∧
    (s.halted = none → s.current.live = true)

/-- A thread keeps a pre-signal snapshot exactly while it is inside a synthetic handler (R135). -/
def State.snapshotsInHandlers (s : State) : Prop :=
  ∀ t ∈ s.threads, t.context.isSome = (t.state == .inSignalHandler)

/-- Every Register File, the live one, the parked ones and the pre-signal snapshots, has `NUM_GPR` registers and `NUM_PS` bits
(R14, R31). -/
def State.filesShaped (s : State) : Prop :=
  s.live.shaped s.params = true ∧
    ∀ t ∈ s.threads, (∀ f ∈ t.parked, f.shaped s.params = true) ∧ ∀ c ∈ t.context, c.snapshot.shaped s.params = true

/-- The thread table fits its capacity, which leaves a 32-bit id unused (R136). -/
def State.tableFits (s : State) : Prop :=
  s.threads.length ≤ s.launch.maxThreads ∧ s.launch.maxThreads + 1 < 2 ^ 32

/-- The ids of the live and zombie threads are distinct (D39). -/
def State.idsDistinct (s : State) : Prop := s.usedIds.Nodup

/-! ## Frames -/

/-- Every general register but those numbered in the list is unchanged. -/
def State.sameRegsBut (s : State) (ks : List Nat) (t : State) : Prop :=
  ∀ j : Nat, j ∉ ks → t.live.reg j = s.live.reg j

/-- Every named flag but those in the list is unchanged. -/
def State.sameFlagsBut (s : State) (fs : List Flag) (t : State) : Prop :=
  ∀ f, f ∉ fs → t.live.readFlag f = s.live.readFlag f

/-- Every byte of memory reads as before, and may be accessed as before. -/
def State.sameMemory (s t : State) : Prop :=
  ∀ a, t.byteAt a = s.byteAt a ∧ ∀ kind, t.accessible kind a = s.accessible kind a

/-- The thread table, the page list, the clock, the launch parameters and the host's script are unchanged. -/
def State.sameEnvironment (s t : State) : Prop :=
  t.threads = s.threads ∧ t.cur = s.cur ∧ t.pages = s.pages ∧ t.attachCount = s.attachCount ∧ t.time = s.time ∧
    t.launch = s.launch ∧ t.replies = s.replies ∧ t.diagnostics = s.diagnostics

/-- The Register File of thread `k`: the live one for the current thread, the parked one for any other (R15). -/
def State.fileOf (s : State) (k : Nat) : Option RegFile :=
  if k = s.cur then some s.live else (s.thread k).parked

/-- The state with the flags that steer no instruction replaced: `M`, `X`, `I` and `PS` (R26, R147). -/
def State.withStorageFlags (s : State) (m x i : Bool) (ps : List Bool) : State :=
  s.setLive { s.live with m := m, x := x, i := i, ps := ps }

/-- A function applied to the next state of an outcome. -/
def mapNext (f : State → State) : Host.Outcome State Fault Refusal → Host.Outcome State Fault Refusal
  | .next s => .next (f s)
  | .fault r => .fault r
  | .refused r => .refused r

end Sys2Proof.Machine

namespace Sys2Proof

/-- A field of an operand record, but for the address a PC-relative one resolved to (R64). -/
def Operand.forgetTarget (o : Operand) : Operand :=
  match o.value with
  | .target _ => { o with value := .target 0 }
  | .index _ => o
  | .immediate _ => o
  | .modeBit _ => o
  | .latched _ => o

/-- Two decode results are the same but for the addresses their PC-relative fields resolved to. -/
def DecodedInstr.sameButTargets (d e : DecodedInstr) : Prop :=
  d.opcode = e.opcode ∧ d.operands.map Operand.forgetTarget = e.operands.map Operand.forgetTarget

end Sys2Proof
end

