-- ==== Sys2Proof/WellFormed.lean ====
section
/-! DEFINITION. Which instruction terms an encoding can carry: the range of each field of R68, the path each
`MOVE_SPR_IMM` form needs (R78), and the reach of a PC-relative field at an address in a mode (R91). -/

namespace Sys2Proof

/-- The value is the sign-extension of its low `n` bits. -/
def fitsSigned (n : Nat) (v : Word) : Bool := (v.setWidth n).signExtend 32 == v

/-- The value is the zero-extension of its low `n` bits. -/
def fitsUnsigned (n : Nat) (v : Word) : Bool := (v.setWidth n).setWidth 32 == v

/-- The number fits a 4-bit field (R67). -/
def fitsField (n : Nat) : Bool := n < 16

/-- An instruction some word of the REF encoding carries at address `pc` in mode `m`. -/
def Instr.wellFormed (p : Params) (pc : Word) (m : Bool) : Instr → Bool
  | .bccS cond target => fitsField cond && fitsSigned 8 (displacement p pc m .w8 target)
  | .addq rd imm => fitsField rd && fitsUnsigned 6 imm
  | .moveq rd imm => fitsField rd && fitsSigned 6 imm
  | .addR rd rs => fitsField rd && fitsField rs
  | .loadD _ rd rs => fitsField rd && fitsField rs
  | .bccW cond target => fitsField cond && fitsSigned 16 (displacement p pc m .w16 target)
  | .trap => true
  | .moveSprImmP7 imm => fitsUnsigned 16 imm
  | .moveSprImmP11 imm => fitsUnsigned 16 imm
  | .moveSprImm ps _ => fitsField ps && ps != 7 && ps != 11
  | .moveSprReg ps rs => fitsField ps && fitsField rs && rs != 15

end Sys2Proof
end

