-- ==== Sys2Proof/Certificates/Slice0/Obligations.lean ====
section
/-! DEFINITION. The statements about the machine. Each docstring names the rule of the spec it formalises; where that
rule is marked as the spec's own choice, or the model chose a value, the docstring says so and names the decision or the
log entry. A statement holds for every value of the parameters of R6 but those it names, such as the REF table
(`s.params.table = refTable`, D11). A statement about `exec` is about the REF `EXEC` (D25, log 1); one about `step` holds
for every `EXEC` (`Config.exec`, R110). -/

open Sys2Proof Sys2Proof.Machine

/-! ## Encoding and decoding -/

/-- Decoding the bytes of a well-formed instruction gives its opcode id and operand record, which are read back as the
instruction, and leaves the bytes after it (R83 over the REF encodings of R71 to R78, which are the spec's own choice,
D11), at every address, in both modes and both byte orders. -/
def Obligations.DecodeOfEncode : Prop :=
  ∀ (p : Params) (pc : Word) (m : Bool) (i : Instr) (rest : List Byte), p.table = refTable →
    i.wellFormed p pc m = true →
    decodeBytes p pc m (encode p pc m i ++ rest) = .instr i.decoded rest ∧
      decodeInstr p pc m (encode p pc m i ++ rest) = some (i, rest)

/-- Bytes that decode are the bytes of the instruction whose opcode id and operand record they decode to, and it is well
formed: no two encodings have one meaning (R70, D11). -/
def Obligations.EncodeOfDecode : Prop :=
  ∀ (p : Params) (pc : Word) (m : Bool) (bs rest : List Byte) (d : DecodedInstr), p.table = refTable →
    decodeBytes p pc m bs = .instr d rest →
    ∃ i : Instr, d = i.decoded ∧ i.wellFormed p pc m = true ∧ bs = encode p pc m i ++ rest

/-- The selector tree of R79 selects, for every base word, the rule the flat table selects: the correctness of R62 for
REF (D11). -/
def Obligations.SelectorTreeSelectsTableRule : Prop := ∀ w : BaseWord, treeSelect w = selectRule w

/-- The base words no rule's pattern matches: the unused primary values of R79, the words `0x50` with a low nibble that
is not 0 (R76), and every word with `w[15:8] = 0x60` but `0x6000` (R77). REF is the spec's own choice (D11). -/
def Obligations.UnmatchedBaseWords : Prop :=
  ∀ w : BaseWord, selectRule w = none ↔
    let p := w.toNat / 256
    p ≤ 0x0F ∨ (0x28 ≤ p ∧ p ≤ 0x2F) ∨ (0x31 ≤ p ∧ p ≤ 0x3F) ∨ (0x42 ≤ p ∧ p ≤ 0x4F) ∨
      (p = 0x50 ∧ w.toNat % 16 ≠ 0) ∨ (0x51 ≤ p ∧ p ≤ 0x5F) ∨ (p = 0x60 ∧ w ≠ 0x6000) ∨
      (0x61 ≤ p ∧ p ≤ 0x6F) ∨ 0x71 ≤ p

/-- A list of bytes decodes to INVALID in exactly the two cases of R65, for every supported table in both byte orders: no
rule's base pattern matches, or the first that does has an extension constraint the extension fails. The list is as long
as the selected rule needs. That a constraint is compared over 32 bits, those beyond the extension read as 0, is the model's
choice where a table has one wider than its extension (log 27). A rule that yields the INVALID opcode id is no case of R65:
its decode has that opcode id and an operand record, and halts as INVALID does (R107, log 1). -/
def Obligations.InvalidInExactlyTwoCases : Prop :=
  ∀ (p : Params) (pc : Word) (m : Bool) (b0 b1 : Byte) (rest : List Byte), tableSupported p.table = true →
    let w : BaseWord := BitVec.ofNat 16 (assemble p.endian [b0, b1])
    (∀ r, p.table.find? (fun r => w &&& r.mask == r.pattern) = some r → r.extLen ≤ rest.length) →
    ((∃ why, decodeBytes p pc m (b0 :: b1 :: rest) = .invalid why) ↔
      (∀ r ∈ p.table, w &&& r.mask ≠ r.pattern) ∨
      ∃ r mask pattern, p.table.find? (fun r => w &&& r.mask == r.pattern) = some r ∧
        r.extConstraint = some (mask, pattern) ∧
        BitVec.ofNat 32 (assemble p.endian (rest.take r.extLen)) &&& mask ≠ pattern)

/-- The two specific special-register paths accept an extension whose upper half is 0 and decode any other to INVALID,
never by the generic path; the generic path takes every other index with any extension (R63, R78; D10, D11). -/
def Obligations.SpecificSprPathsKeepTheirConstraint : Prop :=
  ∀ (p : Params) (pc : Word) (m : Bool) (e : Word) (rest : List Byte), p.table = refTable →
    let bytes := fun (w : BaseWord) => disassemble p.endian 2 w.toNat ++ (wordBytes p.endian e ++ rest)
    (e.toNat < 0x10000 →
      decodeInstr p pc m (bytes 0x707F) = some (.moveSprImmP7 e, rest) ∧
      decodeInstr p pc m (bytes 0x70BF) = some (.moveSprImmP11 e, rest)) ∧
    (0x10000 ≤ e.toNat →
      decodeBytes p pc m (bytes 0x707F) = .invalid (.extConstraint 0x707F e) ∧
      decodeBytes p pc m (bytes 0x70BF) = .invalid (.extConstraint 0x70BF e)) ∧
    ∀ ps : BitVec 4, ps ≠ 7 → ps ≠ 11 →
      decodeInstr p pc m (bytes ((0x70#8 ++ ps) ++ 0xF#4)) = some (.moveSprImm ps.toNat e, rest)

/-- PC-relative resolution (R91) with the mode adjustment of R92: 0 in native mode, in legacy mode `LEGACY_ADJ8` for an
8-bit field and `LEGACY_ADJ16` for a 16-bit field, REF 2 and 4 (the assignment is the spec's own choice, D4). A 32-bit
field, which REF has not, takes `LEGACY_ADJ32` in legacy mode and is refused while that is unset (R93). First the branches
of REF, then a field of every width in any rule of any table. -/
def Obligations.PcRelativeTargets : Prop :=
  (∀ (p : Params) (pc : Word) (m : Bool) (cond : BitVec 4) (d8 : Byte) (d16 : BitVec 16) (rest : List Byte),
    p.table = refTable →
    decodeInstr p pc m (disassemble p.endian 2 ((0x1#4 ++ cond) ++ d8).toNat ++ rest) =
      some (.bccS cond.toNat (pc + d8.signExtend 32 + (if m = p.modeNative then 0 else p.legacyAdj8)), rest) ∧
    decodeInstr p pc m
        (disassemble p.endian 2 ((0x50#8 ++ cond) ++ 0x0#4).toNat ++ disassemble p.endian 2 d16.toNat ++ rest) =
      some (.bccW cond.toNat (pc + d16.signExtend 32 + (if m = p.modeNative then 0 else p.legacyAdj16)), rest)) ∧
  Params.ref.modeNative = false ∧ Params.ref.legacyAdj8 = 2 ∧ Params.ref.legacyAdj16 = 4 ∧
  ∀ (p : Params) (pc : Word) (m : Bool) (w : BaseWord) (ext : Word) (src : FieldSource) (lo : Nat),
    let resolved := fun (width : DispWidth) => (Extractor.pcrel src lo width).value p w ext pc m
    let raw := fun (n : Nat) => (src.slice w ext lo n).signExtend 32
    (m = p.modeNative → ∀ width, resolved width = some (.target (pc + raw width.bits))) ∧
    (m ≠ p.modeNative →
      resolved .w8 = some (.target (pc + raw 8 + p.legacyAdj8)) ∧
      resolved .w16 = some (.target (pc + raw 16 + p.legacyAdj16)) ∧
      (∀ adj, p.legacyAdj32 = some adj → resolved .w32 = some (.target (pc + raw 32 + adj))) ∧
      (p.legacyAdj32 = none → ∀ (r : DecodeRule) (name : FieldName), r.extOk ext = true →
        ⟨name, .pcrel src lo .w32⟩ ∈ r.fields → decodeRule p r w ext pc m = .refused .legacyAdj32Unset))

/-- The descriptor is a function of the opcode id alone: in a table that obeys R60, as REF does, every rule has its
opcode's format, length and attributes (R82), and an instruction takes as many bytes as its descriptor says (R66). The
opcode id is not that of the INVALID sentinel, whose descriptor is fixed (D8). -/
def Obligations.LengthIsTheDescriptors : Prop :=
  tableConsistent refTable = true ∧
  ∀ p : Params, tableConsistent p.table = true →
    (∀ r ∈ p.table, r.opcode ≠ .invalid → itable p r.opcode = r.descriptor) ∧
    ∀ (pc : Word) (m : Bool) (bs rest : List Byte) (d : DecodedInstr), decodeBytes p pc m bs = .instr d rest →
      d.opcode ≠ .invalid → bs.length = (itable p d.opcode).byteLength + rest.length

/-- The mode changes no pattern, no length and no field but a resolved target (R66, D6), for every table. Of any two
modes: bytes that are an instruction in one are, in the other, the same opcode id with the same bytes after it and the
same fields but for the addresses PC-relative ones resolve to, or the refusal of R93; and bytes that are INVALID in one
are INVALID in the other, for the same reason. No REF decode is refused. -/
def Obligations.ModeChangesOnlyTargets : Prop :=
  ∀ (p : Params) (pc : Word) (m n : Bool) (bs : List Byte),
    (∀ d rest, decodeBytes p pc m bs = .instr d rest →
      decodeBytes p pc n bs = .refused .legacyAdj32Unset ∨
      ∃ e, decodeBytes p pc n bs = .instr e rest ∧ e.sameButTargets d) ∧
    (∀ why, decodeBytes p pc m bs = .invalid why → decodeBytes p pc n bs = .invalid why) ∧
    (p.table = refTable → ∀ why, decodeBytes p pc m bs ≠ .refused why)

/-- Words written out from the encodings of R71 to R78 decode to the instructions they stand for (the vectors of
95_test_vectors.md section 2.1 at `0x1000` in native mode; REF is the spec's own choice, D11). -/
def Obligations.WrittenWordsDecode : Prop :=
  decodeInstr Params.ref 0x1000 false [0xC5, 0x20] = some (.addq 3 5, []) ∧
  decodeInstr Params.ref 0x1000 false [0xA0, 0x24] = some (.moveq 2 0xFFFFFFE0, []) ∧
  decodeInstr Params.ref 0x1000 false [0x12, 0x30] = some (.addR 1 2, []) ∧
  decodeInstr Params.ref 0x1000 false [0x34, 0x41] = some (.loadD true 3 4, []) ∧
  decodeInstr Params.ref 0x1000 false [0xFE, 0x11] = some (.bccS 1 0xFFE, []) ∧
  decodeInstr Params.ref 0x1000 false [0xE0, 0x50, 0x00, 0x80] = some (.bccW 14 0xFFFF9000, []) ∧
  decodeInstr Params.ref 0x1000 false [0x00, 0x60] = some (.trap, []) ∧
  decodeInstr Params.ref 0x1000 false [0x7F, 0x70, 0x34, 0x12, 0x00, 0x00] = some (.moveSprImmP7 0x1234, []) ∧
  decodeInstr Params.ref 0x1000 false [0xBF, 0x70, 0xFF, 0xFF, 0x00, 0x00] = some (.moveSprImmP11 0xFFFF, []) ∧
  decodeInstr Params.ref 0x1000 false [0x3F, 0x70, 0xEF, 0xBE, 0xAD, 0xDE] = some (.moveSprImm 3 0xDEADBEEF, []) ∧
  decodeInstr Params.ref 0x1000 false [0x78, 0x70] = some (.moveSprReg 7 8, [])

/-! ## The step loop -/

/-- A step runs the instruction its bytes decode to (R107). In the REF encodings (D11): where the run goes on, `pc` is even,
and the bytes at `pc` are executable and are those of a well-formed instruction that `EXEC` implements, the step is that
instruction's execution, `pc` still at its base word. For every table and `EXEC`: a decode result that the REF semantics
cover is executed by them where the parameters say so, and any other by the free effect (R110). -/
def Obligations.StepRunsTheDecodedInstruction : Prop :=
  (∀ (s : State) (i : Instr), s.params.table = refTable → s.params.refExec = true → i.opcode ∉ s.params.unimplemented →
    s.halted = none → s.live.pc.toNat % 2 = 0 → i.wellFormed s.params s.live.pc s.live.m = true →
    s.firstFault .execute (i.descriptor s.params).byteLength s.live.pc = none →
    s.bytesAt (i.descriptor s.params).byteLength s.live.pc = encode s.params s.live.pc s.live.m i →
    step s = exec i s) ∧
  ∀ (s : State) (d : DecodedInstr), s.halted = none → fetchDecode s = .ok (.instr d) → d.opcode ≠ .invalid →
    d.opcode ∉ s.params.unimplemented →
    (∀ i, s.params.refExec = true → d.instr? = some i → step s = exec i s) ∧
    (s.params.refExec = false ∨ d.instr? = none → step s = execOpen d s)

/-- The decode of a step, in the order of R89 (D46). A table with a longer instruction than R58 allows is refused first
(D2). An odd `pc` is the model fault `MisalignedFetch(pc)` and nothing is fetched (R22, D20). A base word with a byte that
is not executable ends the run at that byte. A base word no rule matches halts the run with `ILLEGAL_INSTRUCTION`, every
register and `pc` as they were, whatever lies after it (R123, D23; R88, D9). A base word that selects a rule faults on its
extension; then it halts as INVALID where the extension fails the rule's constraint (R78, D10), is refused where the
decode is (R93), halts where the rule yields the INVALID opcode id (R107), and is refused where its opcode's handler is intentionally unimplemented (R111, D25). -/
def Obligations.FetchFaultsInOrder : Prop :=
  ∀ s : State, s.halted = none →
    (tableSupported s.params.table = false → step s = .refused (.decodeRefused .unsupportedLength)) ∧
    (tableSupported s.params.table = true →
      (s.live.pc.toNat % 2 = 1 → step s = .fault (.misalignedFetch s.live.pc)) ∧
      (s.live.pc.toNat % 2 = 0 → ∀ bad, s.firstFault .execute 2 s.live.pc = some bad →
        step s = .next { s with halted := some (.addressFault bad) }) ∧
      (s.live.pc.toNat % 2 = 0 → s.firstFault .execute 2 s.live.pc = none →
        let w : BaseWord :=
          BitVec.ofNat 16 (assemble s.params.endian [s.byteAt s.live.pc, s.byteAt (s.live.pc + 1)])
        (selectIn s.params.table w = none →
          step s = .next { s with halted := some (.illegalInstruction s.live.pc) }) ∧
        ∀ r, selectIn s.params.table w = some r →
          (∀ bad, s.firstFault .execute r.extLen (s.live.pc + 2) = some bad →
            step s = .next { s with halted := some (.addressFault bad) }) ∧
          (s.firstFault .execute r.extLen (s.live.pc + 2) = none →
            let ext : Word := BitVec.ofNat 32 (assemble s.params.endian (s.bytesAt r.extLen (s.live.pc + 2)))
            (r.extOk ext = false → step s = .next { s with halted := some (.illegalInstruction s.live.pc) }) ∧
            (∀ why, decodeRule s.params r w ext s.live.pc s.live.m = .refused why →
              step s = .refused (.decodeRefused why)) ∧
            ∀ d, decodeRule s.params r w ext s.live.pc s.live.m = .instr d →
              (d.opcode = .invalid → step s = .next { s with halted := some (.illegalInstruction s.live.pc) }) ∧
              (d.opcode ≠ .invalid → d.opcode ∈ s.params.unimplemented →
                step s = .refused .intentionallyUnimplemented))))

/-- An AddressFault is always fatal to the run (R124): whatever was to follow the access, a read, a fetch or a write, the
run ends at once with final status `FAULT`, with the state as the access found it, and takes no further step. -/
def Obligations.AddressFaultIsFatal : Prop :=
  (∀ (s : State) (kind : AccessKind) (a : Word) (n : Nat) (bad : Word) (rest : List Byte → Except Stop State),
    s.firstFault kind n a = some bad →
    ∃ t, outcome (readMem kind a n s >>= rest) = .next t ∧ t.finalStatus = some .fault ∧ t.live = s.live ∧
      t.mem = s.mem ∧ step t = .fault (.runOver .fault)) ∧
  ∀ (s : State) (a : Word) (bs : List Byte) (bad : Word) (rest : State → Except Stop State),
    s.firstFault .write bs.length a = some bad →
    ∃ t, outcome (writeMem a bs s >>= rest) = .next t ∧ t.finalStatus = some .fault ∧ t.live = s.live ∧
      t.mem = s.mem ∧ step t = .fault (.runOver .fault)

/-- A step that ends the run gives a final state (R125): no further step is taken from it. -/
def Obligations.HaltedRunTakesNoStep : Prop :=
  ∀ s t : State, step s = .next t → ∀ status, t.finalStatus = some status → step t = .fault (.runOver status)

/-- The state a run starts in (R34, R153): one thread, current and running with the given id and every signal at its
default, no parked file, an empty page list, logical time 0, and the live file the launch gives. The reset state is such
a start, with every launch input one the model names (logs 2, 3 and 8), in native mode, which is the spec's own choice
(D18), and with the default policy "diagnostic + halt" (R126). -/
def Obligations.StartOfARun : Prop :=
  (∀ file tid mem regions launch replies,
    let s := State.start file tid mem regions launch replies
    s.live = file ∧ s.threads.length = 1 ∧ s.cur = 0 ∧ s.pages = [] ∧ s.time = 0 ∧ s.halted = none ∧
      s.current.tid = tid ∧ s.current.state = .running ∧ s.current.pending = 0 ∧ s.current.blocked = 0 ∧
      (∀ k, s.current.handler k = .default) ∧ s.current.parked = none ∧ s.current.context = none ∧
      s.current.atSyscall = false) ∧
  State.reset = State.start RegFile.reset 0 [] [] launchAtReset [] ∧
  State.reset.live.m = State.reset.params.modeNative ∧ State.reset.launch.policy = .fatalHalt

/-! ## The Register File -/

/-- The ports of a general register. Reading one returns the value last written to it, and a write replaces it and changes
no other state, no other register's stored bits included (R18, R95; that no register is hardwired is the spec's own choice,
D12). The aliasing register and a number out of range are refused, for reads and writes (R19, R94, R95; the spec's own
choice, D13). -/
def Obligations.GeneralRegisterPorts : Prop :=
  (∀ (s : State) (i : Nat) (v : Word), s.hasReg i →
    ∃ t, writeGpr i v s = .ok t ∧ readGpr i t = .ok v ∧ s.sameRegsBut [i] t ∧
      (∀ j, j ≠ i → readGpr j t = readGpr j s) ∧
      t.live.pc = s.live.pc ∧ s.sameFlagsBut [] t ∧ t = s.setLive t.live) ∧
  ∀ (s : State) (v : Word) (i : Nat),
    (i = s.params.aliasGpr → i < s.params.numGpr →
      readGpr i s = .error (.refuse .aliasRegisterUnmodelled) ∧
      writeGpr i v s = .error (.refuse .aliasRegisterUnmodelled)) ∧
    (s.params.numGpr ≤ i →
      readGpr i s = .error (.refuse .regIndexRange) ∧ writeGpr i v s = .error (.refuse .regIndexRange))

/-- `write_flag` writes one flag: no other flag and no register changes (R99). The flags are those of R98, of a file with
`NUM_PS` privilege/shadow bits (R14). -/
def Obligations.FlagWriteTouchesOneFlag : Prop :=
  ∀ (s : State) (f : Flag) (b : Bool), s.live.shaped s.params = true → f.named s.params.layout = true →
    (s.writeFlag f b).live.readFlag f = b ∧ s.sameFlagsBut [f] (s.writeFlag f b) ∧
      s.sameRegsBut [] (s.writeFlag f b) ∧ (s.writeFlag f b).live.pc = s.live.pc ∧
      s.writeFlag f b = s.setLive (s.writeFlag f b).live

/-- The flags word holds each named flag at the position REF gives it, and 0 in every reserved bit (R27, R28, R100; the
layout is the spec's own choice, D14). -/
def Obligations.FlagsWordLayout : Prop :=
  ∀ (f : RegFile),
    let w := f.readFlags Params.ref.layout
    w.bit 0 = f.c ∧ w.bit 1 = f.v ∧ w.bit 2 = f.z ∧ w.bit 3 = f.n ∧ w.bit 4 = f.x ∧ w.bit 5 = f.i ∧
      w.bit 6 = f.readFlag (.PS 0) ∧ w.bit 7 = f.readFlag (.PS 1) ∧ w.bit 8 = f.readFlag (.PS 2) ∧
      w.bit 9 = f.readFlag (.PS 3) ∧ w.bit 10 = f.m ∧
      ∀ k, 11 ≤ k → w.bit k = false

/-- The two laws of the flags word (R102), for every layout that maps the flags to distinct positions and every file
with its `NUM_PS` bits (R14): writing what was read changes no state, and what was written reads back under the mask. REF's layout is one of them and its mask is
`0x7FF` (the spec's own choice, D14). -/
def Obligations.FlagsWordLaws : Prop :=
  (∀ s : State, layoutInjective s.params.layout → s.live.shaped s.params = true →
    s.writeFlags s.readFlags = s ∧
      ∀ v, (s.writeFlags v).readFlags = v &&& flagMask s.params.layout) ∧
  layoutInjective Params.ref.layout ∧ flagMask Params.ref.layout = 0x7FF

/-- A switch moves whole files (R105, D47): the thread that leaves parks exactly its live file, the one that enters runs
with exactly its parked file and no longer holds one, and every other thread's record is untouched. -/
def Obligations.SwitchMovesWholeFiles : Prop :=
  ∀ (s : State) (k : Nat) (f : RegFile), s.cur < s.threads.length → k < s.threads.length → k ≠ s.cur →
    s.current.live = true → (s.thread k).parked = some f →
    let t := s.switchTo k
    t.cur = k ∧ t.live = f ∧ t.current = { s.thread k with parked := none } ∧
      t.thread s.cur = { s.current with parked := some s.live } ∧
      ∀ j, j ≠ k → j ≠ s.cur → t.thread j = s.thread j

/-! ## Memory -/

/-- A read returns the bytes of the latest write (R52), and a write leaves every other byte alone: the write of at most
2^32 bytes that is granted, then a granted read of the same bytes. -/
def Obligations.MemoryReadsBackLastWrite : Prop :=
  ∀ (s t : State) (a : Word) (bs : List Byte), bs.length ≤ 2 ^ 32 → writeMem a bs s = .ok t →
    (∀ k, (h : k < bs.length) → t.byteAt (a + BitVec.ofNat 32 k) = bs[k]) ∧
    (∀ b, (∀ k, k < bs.length → b ≠ a + BitVec.ofNat 32 k) → t.byteAt b = s.byteAt b) ∧
    (s.firstFault .read bs.length a = none → readMem .read a bs.length t = .ok bs)

/-- Multi-byte values are little-endian (R40, the spec's own choice D1), at any alignment (R43, D21): the word read at
`a` is the sum of its four bytes by weight. With `ENDIAN` set to big the weights are the other way round. -/
def Obligations.WordsAreLittleEndian : Prop :=
  Params.ref.endian = .little ∧
  ∀ (s : State) (a : Word), s.firstFault .read 4 a = none →
    ∃ v, readWord a s = .ok v ∧
      (s.params.endian = .little →
        v.toNat = (s.byteAt a).toNat + 2 ^ 8 * (s.byteAt (a + 1)).toNat + 2 ^ 16 * (s.byteAt (a + 2)).toNat +
          2 ^ 24 * (s.byteAt (a + 3)).toNat) ∧
      (s.params.endian = .big →
        v.toNat = 2 ^ 24 * (s.byteAt a).toNat + 2 ^ 16 * (s.byteAt (a + 1)).toNat + 2 ^ 8 * (s.byteAt (a + 2)).toNat +
          (s.byteAt (a + 3)).toNat)

/-- A read of any kind, or a write, faults exactly where some byte of it is unattached or lacks the permission, and the
fault names the first such byte (R38; that a missing permission faults the same is the spec's own choice, R39, D31). -/
def Obligations.FaultNamesTheFirstBadByte : Prop :=
  ∀ (s : State) (a bad : Word),
    let first := fun (kind : AccessKind) (n : Nat) =>
      ∃ k, k < n ∧ bad = a + BitVec.ofNat 32 k ∧ s.accessible kind bad = false ∧
        ∀ j, j < k → s.accessible kind (a + BitVec.ofNat 32 j) = true
    (∀ kind n, readMem kind a n s = .error (.halt (.addressFault bad) s) ↔ first kind n) ∧
    ∀ bs, writeMem a bs s = .error (.halt (.addressFault bad) s) ↔ first .write bs.length

/-- `munmap(mmap(len))` leaves the page list as it was, addresses and order (R48): a mapping call that returns its base
and maps at least one page, then the unmapping of the same range. -/
def Obligations.UnmapUndoesMap : Prop :=
  ∀ (s t : State) (hint len base : Word) (perm : Perm) (fill : List Byte),
    mapCall hint len perm fill s = .ok (.ret base t) → t.pages ≠ s.pages →
    ∃ v u, unmapCall base len t = .ok (.ret v u) ∧ u.pages = s.pages

/-- Mapping calls (R47, R46, R50). Two successive requests with no hint, of one page each, in a state with an empty page list
return the default base and the page above it, and the list is then those two in descending order (Scenario C; the base and
the page size are OPEN, D40). A request of any number of pages is placed at its base, a hint being the base as it is, aligned
or not: the list takes the pages from the base at ascending addresses and keeps every page it had, each byte of them has the
permission asked for, and what an eager fill reads lies at the base. It is taken whole or not at all: an oversized one
returns its errno (R122), and one that would share a byte with a listed page, or that takes no page, takes the
unsupported-call policy, with nothing mapped. A file-backed mapping is filled with the file's bytes, as many as the length
asks for. The model's choices: that a hint of 0 is no hint, that a length is rounded up to pages, that a fill needs no
permission, what an overlap and a request of no page do, and which requests are oversized, those of more than `maxMapPages`
pages and those whose pages would pass the top of the address space, a bound R122 does not give (log 19); that a new page
covers an older region's bytes (log 6); that the host's read of the file does not fail (log 10). -/
def Obligations.SuccessiveMapsAreDistinctPages : Prop :=
  (∀ (s : State) (perm : Perm), s.pages = [] → 1 ≤ s.launch.maxMapPages → 0 < s.params.pageSize →
    s.launch.mmapDefaultBase.toNat + 2 * s.params.pageSize ≤ 2 ^ 32 →
    let b := s.launch.mmapDefaultBase
    let page : Word := BitVec.ofNat 32 s.params.pageSize
    ∃ t u, mapCall 0 page perm [] s = .ok (.ret b t) ∧ mapCall 0 page perm [] t = .ok (.ret (b + page) u) ∧
      u.pages = [b + page, b]) ∧
  (∀ (s : State) (perm : Perm) (hint len : Word) (fill : List Byte),
    let page := s.params.pageSize
    let n := pageCount s.params len
    let base := s.mapBase hint
    let clear := ∀ p ∈ s.pages, p.toNat + page ≤ base.toNat ∨ base.toNat + n * page ≤ p.toNat
    (hint ≠ 0 → base = hint) ∧
    (0 < n → n ≤ s.launch.maxMapPages → base.toNat + n * page ≤ 2 ^ 32 → clear → fill.length ≤ n * page →
      ∃ t, mapCall hint len perm fill s = .ok (.ret base t) ∧
        (∀ q, q ∈ t.pages ↔ q ∈ s.pages ∨ ∃ i, i < n ∧ q = base + BitVec.ofNat 32 (i * page)) ∧
        (∀ kind k, k < n * page → t.accessible kind (base + BitVec.ofNat 32 k) = permits perm kind) ∧
        ∀ k, (h : k < fill.length) → t.byteAt (base + BitVec.ofNat 32 k) = fill[k]) ∧
    (n = 0 → mapCall hint len perm fill s = unsupported .unsupportedSyscall s) ∧
    (0 < n → s.launch.maxMapPages < n ∨ 2 ^ 32 < base.toNat + n * page →
      mapCall hint len perm fill s = failWith .oversizedAllocation s) ∧
    (0 < n → n ≤ s.launch.maxMapPages → base.toNat + n * page ≤ 2 ^ 32 → (∃ p ∈ s.pages, ∃ i, i < n ∧
        p.toNat < base.toNat + i * page + page ∧ base.toNat + i * page < p.toNat + page) →
      mapCall hint len perm fill s = unsupported .unsupportedSyscall s)) ∧
  ∀ (s : State) (next : Word) (hint len : Src) (perm : Perm) (h l : Word),
    readSrc hint s = .ok h → readSrc len s = .ok l →
    ∃ fill, fill.length = l.toNat ∧ (∀ k, (hk : k < fill.length) → fill[k] = Config.fileByte s.time k) ∧
      (0 < s.params.pageSize → fill.length ≤ pageCount s.params l * s.params.pageSize) ∧
      runCall next (.mmapFile hint len perm) s = mapCall h l perm fill s

/-- A page the one supported protection change made inaccessible faults on every access to every byte of it, and is out
of the page list (R49, R46; that an access without permission faults is the spec's own choice, R39, D31). Every other
transition takes the unsupported-call policy: another protection, a length that is not one page's, a page that is not
mapped. That a length from 1 byte to a page's counts as the one page, and that the overlap check of R49 asks whether the
page is in the page list, are the model's choices (log 19). -/
def Obligations.GuardedPageIsInaccessible : Prop :=
  ∀ (s : State) (addr len prot noneVal : Word),
    let page := s.params.pageSize
    (prot = noneVal → 1 ≤ len.toNat → len.toNat ≤ page → addr ∈ s.pages →
      (∃ r ∈ s.regions, r.base = addr) →
      (∀ r ∈ s.regions, r.base ≠ addr → ∀ k, k < page → r.covers (addr + BitVec.ofNat 32 k) = false) →
      (∀ r ∈ s.regions, r.base = addr → r.len = page) →
      ∃ v t, protectCall addr len prot noneVal s = .ok (.ret v t) ∧ t.pages = s.pages.erase addr ∧
        ∀ kind k, k < page → t.accessible kind (addr + BitVec.ofNat 32 k) = false) ∧
    (prot ≠ noneVal ∨ len.toNat = 0 ∨ page < len.toNat ∨ addr ∉ s.pages →
      protectCall addr len prot noneVal s = unsupported .unsupportedSyscall s)

/-! ## The arithmetic, load and branch instructions -/

/-- The flags of an add (R112; the meanings of `C` and `V` are the spec's own choice, D27): `C` is the carry out of the
unsigned sum, `V` says that the signed sum is out of range, `Z` and `N` are the result's, and no other flag, no register
and not `pc` is written. -/
def Obligations.AddFlagsAreCarryAndOverflow : Prop :=
  ∀ (a b : Word) (s : State),
    let (r, t) := add32 a b s
    r = a + b ∧ t.live.c = decide (2 ^ 32 ≤ a.toNat + b.toNat) ∧
      t.live.v = decide (a.toInt + b.toInt < -2 ^ 31 ∨ 2 ^ 31 ≤ a.toInt + b.toInt) ∧
      t.live.z = decide (r.toNat = 0) ∧ t.live.n = decide (r.toInt < 0) ∧
      s.sameFlagsBut [.C, .V, .Z, .N] t ∧ t.live.gpr = s.live.gpr ∧ t.live.pc = s.live.pc

/-- `ADDQ` (R116, spec's own choice D25, D27): for every register but the aliasing one, the register takes the sum, the
four flags those of the add, `pc` moves past the word. -/
def Obligations.AddqResult : Prop :=
  ∀ (rd : RegNum) (imm : Word) (s : State), s.hasReg rd → s.params.table = refTable →
    exec (.addq rd imm) s =
      .next (s.setLive ((((add32 (s.live.reg rd) imm s).2.live).setReg rd (s.live.reg rd + imm)).setPc (s.live.pc + 2)))

/-- `MOVEQ` (R117, D25): the register takes the immediate, no flag is written, `pc` moves past the word. -/
def Obligations.MoveqResult : Prop :=
  ∀ (rd : RegNum) (imm : Word) (s : State), s.hasReg rd → s.params.table = refTable →
    exec (.moveq rd imm) s = .next (s.setLive ((s.live.setReg rd imm).setPc (s.live.pc + 2)))

/-- `ADD_R` (R118, D25, D27), the two registers equal or not: both are read before the write (R106). -/
def Obligations.AddRegisterResult : Prop :=
  ∀ (rd rs : RegNum) (s : State), s.hasReg rd → s.hasReg rs → s.params.table = refTable →
    let a := s.live.reg rd
    let b := s.live.reg rs
    exec (.addR rd rs) s =
      .next (s.setLive ((((add32 a b s).2.live).setReg rd (a + b)).setPc (s.live.pc + 2)))

/-- `LOAD_D` (R119, D25, D28), both addressing modes: where the four bytes at `x[rs]` are readable, `x[rd]` takes their
value in the byte order of R40, in auto-increment mode `x[rs]` goes up by 4 before that, so the loaded value stays where
the two are one register. -/
def Obligations.LoadResult : Prop :=
  ∀ (am : Bool) (rd rs : RegNum) (s : State), s.hasReg rd → s.hasReg rs → s.params.table = refTable →
    let ea := s.live.reg rs
    s.firstFault .read 4 ea = none →
    let v : Word := BitVec.ofNat 32 (assemble s.params.endian (s.bytesAt 4 ea))
    let f := if am then s.live.setReg rs (ea + 4) else s.live
    exec (.loadD am rd rs) s = .next (s.setLive ((f.setReg rd v).setPc (s.live.pc + 2)))

/-- A load whose address faults halts the run before any write: no register, flag, memory byte or `pc` changes, the
auto-increment's register included (R119, D28; R109). -/
def Obligations.FaultingLoadChangesNothing : Prop :=
  ∀ (am : Bool) (rd rs : RegNum) (s : State) (bad : Word), s.hasReg rs →
    s.firstFault .read 4 (s.live.reg rs) = some bad →
    exec (.loadD am rd rs) s = .next { s with halted := some (.addressFault bad) }

/-- `BCC_S` and `BCC_W` (R113 to R115, D25, D26), for the three condition codes REF gives a meaning: the target where the
condition holds, else the address after the instruction; nothing but `pc` changes. -/
def Obligations.BranchResult : Prop :=
  ∀ (target : Word) (s : State), s.params.table = refTable →
    exec (.bccS 0 target) s = .next (s.setPc (if s.live.z then target else s.live.pc + 2)) ∧
    exec (.bccS 1 target) s = .next (s.setPc (if s.live.z then s.live.pc + 2 else target)) ∧
    exec (.bccS 14 target) s = .next (s.setPc target) ∧
    exec (.bccW 0 target) s = .next (s.setPc (if s.live.z then target else s.live.pc + 4)) ∧
    exec (.bccW 1 target) s = .next (s.setPc (if s.live.z then s.live.pc + 4 else target)) ∧
    exec (.bccW 14 target) s = .next (s.setPc target)

/-- The forms the spec gives no meaning are refused by name. One that names the aliasing register (R116 to R119, R19; D13):
as destination, as source, and in a load whose address is readable as its destination too. One whose register number is
out of range (R94, R95), which no REF number is, at each place of the instruction in the same way. A branch on a condition
code other than 0, 1 and 14 (R113, D26). A use by the trap layer of a role whose register is one of those (R19, "or by the
environment"): a trap reads the syscall number and the arguments (R128), and a delivery reads the stack pointer before it
writes the trampoline, and after that writes the stack pointer, the return address and its argument registers (R140). That
those are all six while `SIG_HANDLER_ARG` is unset is the model's choice (log 15). -/
def Obligations.FormsWithoutMeaningAreRefused : Prop :=
  ∀ (s : State) (a r : RegNum) (imm : Word) (am : Bool) (c : CondCode) (target handler : Word) (sig : Nat),
    let named := fun {α : Type} (x : Except Stop α) =>
      x = .error (.refuse .aliasRegisterUnmodelled) ∨ x = .error (.refuse .regIndexRange)
    (a = s.params.aliasGpr → a < s.params.numGpr →
      exec (.addq a imm) s = .refused .aliasRegisterUnmodelled ∧
      exec (.moveq a imm) s = .refused .aliasRegisterUnmodelled ∧
      exec (.addR a r) s = .refused .aliasRegisterUnmodelled ∧
      (r < s.params.numGpr → exec (.addR r a) s = .refused .aliasRegisterUnmodelled) ∧
      exec (.loadD am r a) s = .refused .aliasRegisterUnmodelled ∧
      (s.hasReg r → s.firstFault .read 4 (s.live.reg r) = none →
        exec (.loadD am a r) s = .refused .aliasRegisterUnmodelled)) ∧
    (s.params.numGpr ≤ a →
      exec (.addq a imm) s = .refused .regIndexRange ∧ exec (.moveq a imm) s = .refused .regIndexRange ∧
      exec (.addR a r) s = .refused .regIndexRange ∧
      (s.hasReg r → exec (.addR r a) s = .refused .regIndexRange) ∧
      exec (.loadD am r a) s = .refused .regIndexRange ∧
      (s.hasReg r → s.firstFault .read 4 (s.live.reg r) = none →
        exec (.loadD am a r) s = .refused .regIndexRange)) ∧
    (c ≠ 0 → c ≠ 1 → c ≠ 14 →
      exec (.bccS c target) s = .refused .refCondUnmodelled ∧ exec (.bccW c target) s = .refused .refCondUnmodelled) ∧
    (s.traps .trap = true → ∀ k ∈ trapRoles s.params, ¬ s.hasReg k →
      exec .trap s = .refused .aliasRegisterUnmodelled ∨ exec .trap s = .refused .regIndexRange) ∧
    (¬ s.hasReg s.params.spReg → named (deliverSignal sig handler s)) ∧
    (s.hasReg s.params.spReg → s.firstFault .write (trampolineSize s.launch) s.trampolineBase = none →
      ∀ k ∈ deliveryRoles s.launch, ¬ s.hasReg k → named (deliverSignal sig handler s))

/-- Executing a special-register move, by any of its decode paths, is refused (R121, D49). -/
def Obligations.SpecialRegisterMovesAreRefused : Prop :=
  ∀ (s : State) (ps rs : RegNum) (imm : Word),
    exec (.moveSprImmP7 imm) s = .refused .specialRegisterUnmodelled ∧
    exec (.moveSprImmP11 imm) s = .refused .specialRegisterUnmodelled ∧
    exec (.moveSprImm ps imm) s = .refused .specialRegisterUnmodelled ∧
    exec (.moveSprReg ps rs) s = .refused .specialRegisterUnmodelled

/-- The frame of the instructions that access no memory (R114 to R118, D25). `ADDQ` and `ADD_R` leave every register but
the destination and every flag but `C`, `V`, `Z`, `N` unchanged; `MOVEQ` leaves every register but the destination and
every flag unchanged; `BCC_S` and `BCC_W` leave every register and every flag unchanged. All leave every byte of memory
and the whole environment unchanged, and the run goes on as it did. Only `TRAP` has attribute `trap`, as in REF (R70, R107). -/
def Obligations.RegisterInstructionFrame : Prop :=
  ∀ (rd rs : RegNum) (imm target : Word) (c : CondCode) (s t : State), (∀ op, op ≠ .trap → s.traps op = false) →
    (exec (.addq rd imm) s = .next t ∨ exec (.addR rd rs) s = .next t →
      s.sameRegsBut [rd] t ∧ s.sameFlagsBut [.C, .V, .Z, .N] t ∧ s.sameMemory t ∧ s.sameEnvironment t ∧
        t.halted = s.halted) ∧
    (exec (.moveq rd imm) s = .next t →
      s.sameRegsBut [rd] t ∧ s.sameFlagsBut [] t ∧ s.sameMemory t ∧ s.sameEnvironment t ∧
        t.halted = s.halted) ∧
    (exec (.bccS c target) s = .next t ∨ exec (.bccW c target) s = .next t →
      s.sameRegsBut [] t ∧ s.sameFlagsBut [] t ∧ s.sameMemory t ∧ s.sameEnvironment t ∧ t.halted = s.halted)

/-- The frame of `LOAD_D` (R119, D25): every register but the destination and, in auto-increment mode, the address
register, every flag, every byte of memory and the whole environment are unchanged. `LOAD_D`
has no attribute `trap`, as in REF (R70, R107). -/
def Obligations.LoadFrame : Prop :=
  ∀ (am : Bool) (rd rs : RegNum) (s t : State), s.traps .loadD = false → exec (.loadD am rd rs) s = .next t →
    s.sameRegsBut (if am then [rd, rs] else [rd]) t ∧ s.sameFlagsBut [] t ∧ s.sameMemory t ∧
      s.sameEnvironment t ∧ (t.halted = s.halted ∨ t.finalStatus = some .fault)

/-- No instruction but one with attribute `trap` reads the flags that steer nothing (`M` once decoded, `X`, `I` and `PS`;
R26, R147, D36): with other values of them it does exactly the same and leaves them as they were. `TRAP` is left out: it
parks and saves them with the file. -/
def Obligations.StorageFlagsSteerNothing : Prop :=
  ∀ (j : Instr) (s : State) (m x i : Bool) (ps : List Bool), s.traps j.opcode = false →
    exec j (s.withStorageFlags m x i ps) = mapNext (fun t => t.withStorageFlags m x i ps) (exec j s)

/-! ## The trap -/

/-- A forwarded call that returns normally (R120, R128; D34), in a single-thread run with no signal to deliver:
`x[RET_REG]` takes the value, `pc` moves past the trap, logical time goes up by one. In the thread's record the at-syscall
mark, the time it blocked at and the pipe-wait list are cleared, a blocked state becomes `RUNNING`, and the last-run time
is the trap's: the model's choices (log 17). Nothing else changes. The answer is the next one of the host's script (log
10). -/
def Obligations.ForwardedCallReturns : Prop :=
  ∀ (s : State) (v : Word) (rest : List HostReply) (th : Thread), s.hasRoles → s.params.table = refTable →
    s.threads = [th] → s.cur = 0 → th.live = true →
    s.requestedCall = some .forward → s.replies = .ret v [] :: rest →
    th.context.isSome = true ∨ th.deliverable = [] →
    exec .trap s = .next { s with
      live := (s.live.setReg s.params.retReg v).setPc (s.live.pc + 2)
      threads := [{ th with
        state := th.state.unblocked, atSyscall := false, blockedAt := none, pipeWait := [], lastRun := s.time }]
      time := s.time + 1
      replies := rest }

/-- A call that blocks rewinds `pc` to the trap, marks the thread at-syscall and leaves its registers and flags alone, so
the trap is executed again (R130, D34): whatever the call blocks on, the thread takes that blocked state from `RUNNING`,
and no other thread and no memory changes. A call whose answer is to block on a pipe write does. A wait blocks while no
zombie matches, even where the caller has no child, and whichever accepted flags word it has: the model's choices (log 20). A timed call executed again has its
remaining timeout decreased by the elapsed logical time, where the call reads it (R131); that the decrease is made at the
re-issue and counts from the time the call blocked, kept before the clock's increment, are the model's choices (logs 16
and 17). The suspend-style call is such a call: it
stashes the blocked set and takes its temporary mask where it does not wait already, decreases its timeout as any other, and
where it completes with no handler run the stashed set is blocked again (R131, R142); that the environment answers whether it
blocks, that a re-issue stashes nothing, and that a completion restores the stash are the model's choices (log 21). In a
single-thread run a forwarded call answered `blockPoll` by the host's script (log 10) is such a step: the
clock counts it (R134), and the scheduler falls back to the same thread (R132). -/
def Obligations.BlockedCallIsExecutedAgain : Prop :=
  (∀ (next : Word) (s : State) (why : ThreadState), s.cur < s.threads.length →
    let t := trapNext next (.block why s)
    t.live = s.live ∧ t.cur = s.cur ∧ t.current.atSyscall = true ∧ t.current.blockedAt = some s.time ∧
      (s.current.state = .running → t.current.state = why) ∧ (∀ j, j ≠ s.cur → t.thread j = s.thread j) ∧
      s.sameMemory t) ∧
  (∀ (s : State) (target flags buf : Word) (accepted : List Word), flags ∈ accepted →
    (∀ th ∈ s.threads, s.harvestable target th = false) →
    waitCall target flags buf accepted s = .ok (.block .blockedOnWait s)) ∧
  (∀ (s : State) (fds : List Nat), s.cur < s.threads.length →
    ∃ t, applyReply (.blockPipe fds) s = .ok (.block .blockedOnPipeWrite t) ∧ t.current.pipeWait = fds ∧
      t.live = s.live) ∧
  (∀ (s : State) (timeout : Src) (remaining : Word) (since : Nat), s.current.blockedAt = some since →
    readSrc timeout s = .ok remaining → s.time - since ≤ remaining.toNat →
    let again := writeSrc timeout (remaining - BitVec.ofNat 32 (s.time - since)) s
    pollCall timeout s = again >>= hostCall ∧ ∀ mask, suspendCall mask (some timeout) s = again >>= suspendCall mask none) ∧
  (∀ (s : State) (mask : SigSet) (timeout : Option Src) (rest : List HostReply), s.cur < s.threads.length →
    timeout = none ∨ s.current.blockedAt = none →
    (s.replies = .blockPoll :: rest →
      ∃ t, suspendCall mask timeout s = .ok (.block .blockedOnPollTimeout t) ∧ t.current.suspended = true ∧
        (s.current.suspended = false → t.current.savedBlocked = s.current.blocked ∧ t.current.blocked = mask) ∧
        (s.current.suspended = true → t.current = s.current) ∧
        (∀ j, j ≠ s.cur → t.thread j = s.thread j) ∧ t.live = s.live ∧ s.sameMemory t) ∧
    ∀ v, s.replies = .ret v [] :: rest →
      ∃ t, suspendCall mask timeout s = .ok (.ret v t) ∧ t.current.suspended = false ∧
        t.current.blocked = (if s.current.suspended then s.current.savedBlocked else s.current.blocked) ∧
        (∀ j, j ≠ s.cur → t.thread j = s.thread j) ∧ t.live = s.live ∧ s.sameMemory t) ∧
  ∀ (s : State) (rest : List HostReply) (th : Thread), s.hasRoles → s.traps .trap = true → s.threads = [th] →
    s.cur = 0 → th.live = true → s.requestedCall = some .forward → s.replies = .blockPoll :: rest →
    th.context.isSome = true ∨ th.deliverable = [] →
    ∃ t, exec .trap s = .next t ∧ t.live = s.live ∧ t.current.atSyscall = true ∧
      t.current.blockedAt = some s.time ∧ t.time = s.time + 1 ∧ t.cur = 0 ∧ s.sameMemory t

/-- The unsupported-call policy (R126): silent errno return, diagnostic and errno return, or diagnostic and fatal halt.
Under the errno behaviours the trap returns the cause's errno, encoded as the OPEN `ERRNO_ENCODING` says (R127, log 11),
in `x[RET_REG]` (D16), and the run goes on after the trap; under the fatal halt it ends with `UNSUPPORTED_HALT`. The
default is the fatal halt, and no step changes the policy. A syscall number the launch's call table does not list takes it
(log 9), and so does a ProtocolViolation, such as a return from handler with no active handler (R122, R142). -/
def Obligations.UnsupportedCallPolicy : Prop :=
  (∀ (s : State) (next : Word) (cause : UnsupportedCause),
    let d : Diagnostic := ⟨cause, s.sysnr, s.arguments⟩
    let e := Config.errnoWord cause.errno
    let returned := (s.live.setReg s.params.retReg e).setPc next
    (s.launch.policy = .silentErrno → unsupported cause s = .ok (.ret e s) ∧
      (trapNext next (.ret e s)).live = returned ∧ (trapNext next (.ret e s)).halted = s.halted) ∧
    (s.launch.policy = .diagnosticErrno → ∃ u, unsupported cause s = .ok (.ret e u) ∧
      u.diagnostics = d :: s.diagnostics ∧ (trapNext next (.ret e u)).live = returned ∧
      (trapNext next (.ret e u)).halted = s.halted) ∧
    (s.launch.policy = .fatalHalt →
      ∃ t, outcome (unsupported cause s >>= fun r => .ok (trapNext next r)) = .next t ∧
        t.finalStatus = some .unsupportedHalt ∧ t.diagnostics = d :: s.diagnostics ∧ t.live = s.live)) ∧
  State.reset.launch.policy = .fatalHalt ∧
  (∀ s t : State, step s = .next t → t.launch.policy = s.launch.policy) ∧
  (∀ (s : State) (next : Word), s.requestedCall = none → handleTrap next s = unsupported .unsupportedSyscall s) ∧
  ∀ (s : State) (next : Word), s.requestedCall = some .sigReturn → s.current.context = none →
    handleTrap next s = unsupported .protocolViolation s

/-- Clone, from a single-thread state (R136, D39; Scenario B): the caller keeps every register but `x[RET_REG]`, which
takes the new id, the child's file is the caller's with the new stack pointer and return value 0, both are past the trap,
the id differs from the caller's, and the child's signal slots are the defaults. From any state: where a slot is free the
child takes it with no residual state (R138), an id no live or zombie thread has, and no other thread changes; where the table
is full the call returns an errno and makes no thread (R122). That the child takes the first free slot, else the next, that a
child's other marks are clear, and that the call reads no flags are the model's choices (log 12), as is that a child of a
thread inside a handler is not inside one (log 28). -/
def Obligations.CloneMakesAThread : Prop :=
  (∀ (s : State) (newSp exitSignal : Src) (sp sg : Word) (th : Thread), s.hasRoles → s.params.table = refTable →
    s.threads = [th] → s.cur = 0 → th.live = true → s.requestedCall = some (.clone newSp exitSignal) →
    readSrc newSp s = .ok sp → readSrc exitSignal s = .ok sg → 2 ≤ s.launch.maxThreads →
    ∃ t id, exec .trap s = .next t ∧ id ≠ th.tid ∧ t.threads.length = 2 ∧ (t.thread 0).tid = th.tid ∧
      (t.thread 1).tid = id ∧ (t.thread 1).pending = 0 ∧ (t.thread 1).blocked = 0 ∧
      (∀ k, (t.thread 1).handler k = .default) ∧
      t.fileOf 0 = some ((s.live.setReg s.params.retReg id).setPc (s.live.pc + 2)) ∧
      t.fileOf 1 = some (((s.live.setReg s.params.spReg sp).setReg s.params.retReg 0).setPc (s.live.pc + 2)) ∧
      t.time = s.time + 1 ∧ s.sameMemory t) ∧
  (∀ (s : State) (next newSp exitSignal : Word) (k : Nat), s.hasReg s.params.spReg → s.hasReg s.params.retReg →
    s.threads.length + 1 < 2 ^ 32 → k < s.threads.length → (s.thread k).state = .free →
    (∀ j, j < k → (s.thread j).state ≠ .free) →
    ∃ id t, cloneCall next newSp exitSignal s = .ok (.ret id t) ∧
      (∀ th ∈ s.threads, th.state ≠ .free → th.tid ≠ id) ∧
      t = s.setThread k { Thread.empty with
        tid := id, parent := s.current.tid, exitSignal := exitSignal, state := .running
        parked := some (((s.live.setReg s.params.spReg newSp).setReg s.params.retReg 0).setPc next) }) ∧
  ∀ (s : State) (next newSp exitSignal : Word), (∀ th ∈ s.threads, th.state ≠ .free) →
    s.launch.maxThreads ≤ s.threads.length →
    cloneCall next newSp exitSignal s = .ok (.ret (Config.errnoWord .threadTableFull) s)

/-- A thread's exit call leaves a zombie that owns no file and keeps its exit value (R137). The exit of the last live
thread halts the run with `EXIT(code)`; while another is live the run goes on, and that the call then changes no other
thread, its pending signals included, is the model's reading (log 24). That a thread inside a handler exits as any other, its
pre-signal snapshot dropped, is the model's choice (log 28). -/
def Obligations.ExitLeavesAZombie : Prop :=
  ∀ (s : State) (code : Src) (v : Word), s.requestedCall = some (.exit code) → readSrc code s = .ok v →
    s.cur < s.threads.length →
    (s.hasRoles → s.traps .trap = true → (∀ k, k ≠ s.cur → (s.thread k).live = false) →
      ∃ t, exec .trap s = .next t ∧ t.finalStatus = some (.exit v) ∧ t.current.state = .zombie ∧
        t.current.exitValue = v ∧ t.current.parked = none ∧ t.current.context = none) ∧
    ((∃ k, k ≠ s.cur ∧ (s.thread k).live = true) →
      ∀ next, ∃ u, handleTrap next s = .ok (.exited u) ∧ u.current.state = .zombie ∧ u.current.exitValue = v ∧
        u.current.parked = none ∧ u.current.context = none ∧ (∀ k, k ≠ s.cur → u.thread k = s.thread k) ∧
        u.halted = s.halted)

/-- Clone, exit and wait (R138, R137): where some zombie matches and the buffer, if one is given, is writable, a wait
completes. It returns the id of a matching zombie, leaves its exit value in the buffer and every other byte as it was, and
frees its slot with no residue. A buffer that is not writable ends the run at its first such byte (R124). That every
accepted flags word asks for the same, that only the caller's own children match, that the first of several in the table is
harvested, that the exit status is the exit value as four bytes in the machine's byte order, and that a buffer address of 0 is
no buffer are the model's choices (log 20). -/
def Obligations.WaitHarvestsAZombie : Prop :=
  ∀ (s : State) (target flags buf : Word) (accepted : List Word), flags ∈ accepted →
    let matching := fun (th : Thread) =>
      th.state = .zombie ∧ th.parent = s.current.tid ∧ (target = 0xFFFFFFFF ∨ th.tid = target)
    (∃ th ∈ s.threads, matching th) →
    (buf = 0 ∨ s.firstFault .write 4 buf = none →
      ∃ k t, waitCall target flags buf accepted s = .ok (.ret (s.thread k).tid t) ∧
        k < s.threads.length ∧ matching (s.thread k) ∧ (∀ j, j < k → ¬ matching (s.thread j)) ∧
        t.thread k = Thread.empty ∧
        (∀ j, j ≠ k → t.thread j = s.thread j) ∧
        (buf ≠ 0 → t.bytesAt 4 buf = wordBytes s.params.endian (s.thread k).exitValue) ∧
        (∀ a, buf = 0 ∨ (∀ j, j < 4 → a ≠ buf + BitVec.ofNat 32 j) → t.byteAt a = s.byteAt a) ∧ t.live = s.live) ∧
    ∀ bad, buf ≠ 0 → s.firstFault .write 4 buf = some bad →
      waitCall target flags buf accepted s = .error (.halt (.addressFault bad) s)

/-- The scheduler (R132). At every syscall return point, after the trap's `pc` update, it takes the next live thread, round
robin, not marked at-syscall; if there is none, some live thread. The Register File is switched where the choice is not the
current thread, and the signal check runs for the thread about to run. The priorities play no part. -/
def Obligations.RoundRobinScheduling : Prop :=
  ∀ s : State, s.cur < s.threads.length →
    let n := s.threads.length
    let next := s.after s.live.pc .trap
    (s.hasRoles → s.traps .trap = true →
      exec .trap s =
        outcome (handleTrap next s >>= fun r => syscallReturnPoint ((trapNext next r).tick s.cur))) ∧
    syscallReturnPoint s = checkSignals (s.switchTo s.nextThread) ∧
    (∀ d, d < n → s.eligible ((s.cur + 1 + d) % n) = true →
      (∀ e, e < d → s.eligible ((s.cur + 1 + e) % n) = false) → s.nextThread = (s.cur + 1 + d) % n) ∧
    ((∀ k, k < n → s.eligible k = false) → (∃ k, k < n ∧ (s.thread k).live = true) →
      s.nextThread < n ∧ (s.thread s.nextThread).live = true) ∧
    ∀ priority : Thread → Word,
      ({ s with threads := s.threads.map (fun t => { t with priority := priority t }) } : State).nextThread =
        s.nextThread

/-- Scheduler fairness (R133): `N` successive choices of the scheduler visit the `N` runnable threads, those live and not
at-syscall, exactly once before any repeats, and visit no other slot of the table: no zombie, no free slot and no thread that
waits. -/
def Obligations.SchedulerVisitsEveryThread : Prop :=
  ∀ (s : State), s.cur < s.threads.length →
    let runnable := (List.range s.threads.length).filter s.eligible
    let choice := fun (j : Nat) => (fun c => ({ s with cur := c } : State).nextThread)^[j] s.cur
    (∀ k ∈ runnable, ∃ j, 1 ≤ j ∧ j ≤ runnable.length ∧ choice j = k) ∧
    (runnable ≠ [] → ∀ j, 1 ≤ j → choice j ∈ runnable) ∧
    ∀ i j, 1 ≤ i → i < j → j ≤ runnable.length → choice i ≠ choice j

/-- Logical time is the count of executed syscalls (R134, D34): the execution of an instruction with attribute `trap` that
goes on raises it by one, and no other instruction changes it, by the REF semantics or by any other effect `EXEC` may have (R107, R110). -/
def Obligations.LogicalTimeCountsTraps : Prop :=
  ∀ s t : State,
    let counted := fun (op : OpcodeId) =>
      if s.traps op then t.time = s.time + 1 ∨ (t.time = s.time ∧ t.over = true) else t.time = s.time
    (∀ i : Instr, exec i s = .next t → counted i.opcode) ∧
    ∀ (e : Effect) (op : OpcodeId), execEffect e op s = .next t → counted op

/-- Only an instruction with attribute `trap` touches the threads, the page list, the clock and the launch's script:
ordinary instructions never suspend, and a signal takes effect at a return point alone (R108, R139). This holds of every
effect `EXEC` may have, which writes the Register File and bytes of memory alone (R110); that the instructions of REF but `TRAP` write
no byte of memory is the REF semantics' (42_ref_semantics.md section 2, the spec's own choice D25; log 1). No instruction
changes the launch parameters (R6). -/
def Obligations.OnlyTrapsTouchTheEnvironment : Prop :=
  (∀ (i : Instr) (s t : State), s.traps i.opcode = false → exec i s = .next t →
    s.sameEnvironment t ∧ s.sameMemory t) ∧
  (∀ (e : Effect) (op : OpcodeId) (s t : State), s.traps op = false → execEffect e op s = .next t →
    s.sameEnvironment t ∧ ∀ kind a, t.accessible kind a = s.accessible kind a) ∧
  ∀ s t : State, step s = .next t → t.launch = s.launch

/-! ## Signals -/

/-- The calls that set the signal slots (R139, R144, R145, R149). Registration sets one slot's handler value of the
current thread: the default, ignore, or an address. A mask change sets the blocked set; that it has three modes, block,
unblock and set, and that any other takes the unsupported-call policy, is the model's choice (log 9). A signal sent to a live
thread becomes pending for that thread alone, unless it is the abort signal that a single-thread run sends to itself (R144);
that the abort signal is sent like any other where another thread is live or is its target, and that a signal's number is its
slot's index, are the model's choices (log 18). The places and values of the operands are launch parameters (D42, log 9). -/
def Obligations.SignalCallsSetTheSlots : Prop :=
  (∀ (s : State) (sig handler dflVal ignVal : Word), s.cur < s.threads.length → sig.toNat < 64 →
    ∃ v t, registerCall sig handler dflVal ignVal s = .ok (.ret v t) ∧
      t.current.handler sig.toNat =
        (if handler = dflVal then .default else if handler = ignVal then .ignore else .address handler) ∧
      (∀ k, k ≠ sig.toNat → t.current.handler k = s.current.handler k) ∧
      t.current.pending = s.current.pending ∧ t.current.blocked = s.current.blocked ∧
      (∀ j, j ≠ s.cur → t.thread j = s.thread j) ∧ t.live = s.live) ∧
  (∀ (s : State) (how a b c : Word) (mask : SigSet), s.cur < s.threads.length → a ≠ b → a ≠ c → b ≠ c →
    (how = a → ∃ v t, maskCall how mask a b c s = .ok (.ret v t) ∧ t.current.blocked = s.current.blocked ||| mask) ∧
    (how = b → ∃ v t, maskCall how mask a b c s = .ok (.ret v t) ∧ t.current.blocked = s.current.blocked &&& ~~~mask) ∧
    (how = c → ∃ v t, maskCall how mask a b c s = .ok (.ret v t) ∧ t.current.blocked = mask) ∧
    (how ≠ a → how ≠ b → how ≠ c → maskCall how mask a b c s = unsupported .unsupportedSyscall s)) ∧
  ∀ (s : State) (target sig : Word) (j : Nat), sig.toNat < 64 →
    (sig.toNat ≠ s.launch.abortSignal ∨ target ≠ s.current.tid ∨ ∃ k, k ≠ j ∧ (s.thread k).live = true) →
    j < s.threads.length → (s.thread j).live = true → (s.thread j).tid = target →
    (∀ i, i < j → ¬((s.thread i).live = true ∧ (s.thread i).tid = target)) →
    ∃ v t, sendCall target sig s = .ok (.ret v t) ∧ (t.thread j).pending.getLsbD sig.toNat = true ∧
      (∀ k, k ≠ sig.toNat → (t.thread j).pending.getLsbD k = (s.thread j).pending.getLsbD k) ∧
      (∀ i, i ≠ j → t.thread i = s.thread i) ∧ t.live = s.live

/-- The delivery of a signal (R140; the register effects and the placement are the spec's own choice, D29, D30), under
parameters that give its roles distinct registers that exist, as REF does: where the trampoline's bytes are writable it
completes. The file as it was is saved, the trampoline's mask words and code lie at `T`, `x[SP_REG] = T`, `x[RA_REG] = T +
8`, `x[ARG_REG[1]]` is the signal number, `pc` is the handler, `x[ARG_REG[k]]` that `SIG_HANDLER_ARG` names is the handler
address, and no register outside those, no flag and no byte outside the trampoline changes. Where some byte is not writable
the run ends at the first (R124), before any register but the stack pointer plays a part, with the snapshot already saved
(R109) and the file, the memory and every other thread as they were; that the thread is then inside its handler, its pending
and blocked sets as they were, is the model's choice, as is that no byte of the trampoline is then written, it being one
write of the substrate (log 25). The pending bit is cleared, the blocked set is kept, and
the lower mask word comes first: the model's choices (log 18). The trampoline's bytes are the launch's, its size is theirs and
the mask words', and after reset its trap instruction is REF's `TRAP` (OPEN, D30; log 8). That the argument registers
`SIG_HANDLER_ARG` does not name keep their values while it is set is the model's choice (log 15). The time an interrupted call
blocked at is kept for its re-issue (log 25). -/
def Obligations.DeliveryEntersTheHandler : Prop :=
  ∀ (s : State) (sig : Nat) (handler : Word),
    let code := s.launch.trampolineSeq ++ s.launch.trampolineTrap ++ s.launch.trampolinePad
    let base := s.live.reg s.params.spReg - BitVec.ofNat 32 (8 + code.length)
    (s.cur < s.threads.length → sig < 64 → (deliveryRoles s.launch).Nodup → (∀ k ∈ deliveryRoles s.launch, s.hasReg k) →
      code.length ≤ 2 ^ 16 → s.firstFault .write (8 + code.length) base = none →
      ∃ t, deliverSignal sig handler s = .ok t ∧
        t.live.reg s.params.spReg = base ∧ t.live.reg s.params.raReg = base + 8 ∧
        t.live.reg (s.params.argReg 0) = BitVec.ofNat 32 sig ∧ t.live.pc = handler ∧
        (∀ j : Fin 5, s.launch.sigHandlerArg = some j → t.live.reg (s.params.argReg j.succ) = handler) ∧
        s.sameRegsBut (deliveryRoles s.launch) t ∧ s.sameFlagsBut [] t ∧ t.current.state = .inSignalHandler ∧
        (∃ ctx, t.current.context = some ctx ∧ ctx.snapshot = s.live ∧ ctx.base = base ∧
          ctx.blockedAt = s.current.blockedAt) ∧
        t.current.pending.getLsbD sig = false ∧ t.current.blocked = s.current.blocked ∧
        t.bytesAt 4 base = wordBytes s.params.endian (s.current.blocked.extractLsb' 0 32) ∧
        t.bytesAt 4 (base + 4) = wordBytes s.params.endian (s.current.blocked.extractLsb' 32 32) ∧
        t.bytesAt code.length (base + 8) = code ∧
        ∀ a, (∀ k, k < 8 + code.length → a ≠ base + BitVec.ofNat 32 k) → t.byteAt a = s.byteAt a) ∧
    (s.cur < s.threads.length → s.hasReg s.params.spReg → ∀ bad, s.firstFault .write (8 + code.length) base = some bad →
      ∃ t, deliverSignal sig handler s = .error (.halt (.addressFault bad) t) ∧
        (∃ ctx, t.current.context = some ctx ∧ ctx.snapshot = s.live ∧ ctx.base = base) ∧
        t.current.state = .inSignalHandler ∧ t.current.pending = s.current.pending ∧
        t.current.blocked = s.current.blocked ∧ (∀ k, k ≠ s.cur → t.thread k = s.thread k) ∧
        t.live = s.live ∧ t.mem = s.mem) ∧
    decodeInstr Params.ref 0 false State.reset.launch.trampolineTrap = some (.trap, [])

/-- Return from handler (R142; D29, D30): the whole Register File is the pre-signal snapshot, `pc`, `x[RET_REG]` and every
flag included, the thread runs outside any handler, and the blocked set is the pre-suspend one where the signal
interrupted a wait-for-any-signal call. A call the signal interrupted is re-issued as blocked since then (log 25). -/
def Obligations.ReturnFromHandlerRestoresTheFile : Prop :=
  ∀ (s : State) (next : Word) (r : TrapResult) (ctx : HandlerContext), s.cur < s.threads.length →
    s.current.context = some ctx → returnFromHandler s = .ok r →
    (trapNext next r).live = ctx.snapshot ∧ (trapNext next r).current.context = none ∧
      (trapNext next r).current.state = .running ∧ (trapNext next r).current.blockedAt = ctx.blockedAt ∧
      (∀ mask, ctx.preSuspend = some mask → (trapNext next r).current.blocked = mask) ∧ (trapNext next r).mem = s.mem

/-- The signal round trip (R143): a delivery whose trampoline is writable and readable completes, and then, whatever the
handler did to the live file and to the blocked set, a return from handler that finds the trampoline's bytes as they were
written, with the stack pointer back at the trampoline, completes and gives every register its pre-signal value, and the
blocked set the pre-signal one, or the pre-suspend one where the signal interrupted a wait-for-any-signal call (R142). A
call that had blocked counts as blocked since then (R131, log 25). The roles have distinct registers that exist, as in
REF. -/
def Obligations.SignalRoundTrip : Prop :=
  ∀ (s : State) (sig : Nat) (handler next : Word) (file : RegFile) (blocked : SigSet),
    s.cur < s.threads.length → sig < 64 → trampolineSize s.launch ≤ 2 ^ 16 →
    (deliveryRoles s.launch).Nodup → (∀ k ∈ deliveryRoles s.launch, s.hasReg k) →
    s.firstFault .write (trampolineSize s.launch) s.trampolineBase = none →
    s.firstFault .read 8 s.trampolineBase = none →
    file.reg s.params.spReg = s.trampolineBase →
    ∃ t r, deliverSignal sig handler s = .ok t ∧
      returnFromHandler ((t.setLive file).setCurrent { t.current with blocked := blocked }) = .ok r ∧
      (trapNext next r).live = s.live ∧
      (trapNext next r).current.blocked =
        (if s.current.suspended then s.current.savedBlocked else s.current.blocked) ∧
      (trapNext next r).current.context = none ∧
      (trapNext next r).current.blockedAt = s.current.blockedAt

/-- The signal check of the thread about to run (R139 to R141). Inside a handler it delivers nothing and changes nothing, so
pending signals wait. Outside any handler it delivers nothing where no pending, unblocked signal has a handler; where one
has, it is delivered; and where several have, one of them is (which one is `SIG_PICK`, OPEN, log 13). That a signal whose
handler value is no address is not dispatched is the model's choice (log 18). -/
def Obligations.SignalCheckOfTheThread : Prop :=
  ∀ s : State,
    let may := fun (sig : Nat) (handler : Word) => sig < 64 ∧ s.current.handler sig = .address handler ∧
      s.current.pending.getLsbD sig = true ∧ s.current.blocked.getLsbD sig = false
    (s.current.context.isSome = true → checkSignals s = .ok s) ∧
    ((∀ sig handler, ¬ may sig handler) → checkSignals s = .ok s) ∧
    (s.current.context = none → ∀ sig handler, may sig handler →
      (∃ k h, may k h ∧ checkSignals s = deliverSignal k h s) ∧
      ((∀ k h, may k h → k = sig) → checkSignals s = deliverSignal sig handler s))

/-- A single-thread run that sends the abort signal to itself halts with the status `ABORT`, not the
illegal-instruction status (R144; the number is a launch parameter, D42). -/
def Obligations.AbortToSelfHalts : Prop :=
  ∀ (s : State) (target sig : Src) (v : Word) (th : Thread), s.hasRoles → s.traps .trap = true → s.threads = [th] → s.cur = 0 →
    th.live = true → s.requestedCall = some (.sigSend target sig) → readSrc target s = .ok th.tid → readSrc sig s = .ok v →
    v.toNat = s.launch.abortSignal →
    ∃ t, exec .trap s = .next t ∧ t.finalStatus = some .abort ∧ t.live = s.live

/-! ## Invariants of the whole machine -/

/-- Every step keeps the memory's canonical form, from every state that has it. The form is the model's own (log 5): the
written bytes in rising order of address, each once, each at a 32-bit address (R36). -/
def Obligations.StepKeepsMemoryCanonical : Prop :=
  ∀ s t : State, s.memCanonical → step s = .next t → t.memCanonical

/-- Every step keeps the mapped-page list address-descending, each page once (R46). -/
def Obligations.StepKeepsPagesDescending : Prop :=
  ∀ s t : State, s.pagesDescending → step s = .next t → t.pagesDescending

/-- Every step keeps exactly one Register File live, the current thread's, and every other live thread's parked (R15,
R105); and it keeps every file, live, parked or saved before a signal, one of `NUM_GPR` registers and `NUM_PS` bits (R14,
R31). -/
def Obligations.StepKeepsOneLiveFile : Prop :=
  (∀ s t : State, s.oneLiveFile → step s = .next t → t.oneLiveFile) ∧
  ∀ s t : State, s.filesShaped → step s = .next t → t.filesShaped

/-- Every step keeps a pre-signal snapshot exactly with the threads inside a handler (R135). -/
def Obligations.StepKeepsSnapshotsInHandlers : Prop :=
  ∀ s t : State, s.snapshotsInHandlers → step s = .next t → t.snapshotsInHandlers

/-- Every step keeps the ids of the live and zombie threads distinct (D39), from every state whose thread table fits its
capacity, has one live file, and has distinct ids; the table fits after it too. -/
def Obligations.StepKeepsIdsDistinct : Prop :=
  ∀ s t : State, s.tableFits → s.oneLiveFile → s.idsDistinct → step s = .next t → t.tableFits ∧ t.idsDistinct

/-- The invariants hold after reset (R153). -/
def Obligations.ResetMeetsTheInvariants : Prop :=
  State.reset.memCanonical ∧ State.reset.pagesDescending ∧ State.reset.oneLiveFile ∧
    State.reset.filesShaped ∧ State.reset.snapshotsInHandlers ∧ State.reset.tableFits ∧ State.reset.idsDistinct
end

