-- ==== Sys2Proof/Laws/Decode.lean ====
section
/-! SUPPORT. What the decode table selects, in terms of the fields of the base word, and the byte-order round trips. -/

namespace Sys2Proof

/-! ## The masks of the table -/

/-- The base pattern of a rule, on the number of the word. -/
theorem accepts_toNat (r : DecodeRule) (w : BaseWord) :
    r.accepts w = (w.toNat &&& r.mask.toNat == r.pattern.toNat) := by
  rw [DecodeRule.accepts, Bool.eq_iff_iff]
  simp only [beq_iff_eq]
  rw [← BitVec.toNat_inj]
  simp

/-- A mask of the `j` bits above the low `k` keeps the quotient. -/
theorem and_high (k j n : Nat) (hn : n < 2 ^ (k + j)) : n &&& ((2 ^ j - 1) * 2 ^ k) = 2 ^ k * (n / 2 ^ k) := by
  apply Nat.eq_of_testBit_eq
  intro i
  rw [Nat.testBit_and, Nat.testBit_mul_two_pow, Nat.mul_comm, Nat.testBit_mul_two_pow, Nat.testBit_div_two_pow]
  by_cases hk : k ≤ i
  · have e : i - k + k = i := by omega
    by_cases hj : i - k < j
    · simp [hk, hj, e]
    · have : n.testBit i = false := Nat.testBit_lt_two_pow (Nat.lt_of_lt_of_le hn (Nat.pow_le_pow_right (by omega) (by omega)))
      simp [hk, hj, e, this]
  · simp [hk]

theorem mask_F000 {n : Nat} (hn : n < 65536) (c : Nat) : (n &&& 0xF000 = 4096 * c) ↔ n / 4096 = c := by
  have := and_high 12 4 n hn
  norm_num at this
  omega

theorem mask_FC00 {n : Nat} (hn : n < 65536) (c : Nat) : (n &&& 0xFC00 = 1024 * c) ↔ n / 1024 = c := by
  have := and_high 10 6 n hn
  norm_num at this
  omega

theorem mask_FE00 {n : Nat} (hn : n < 65536) (c : Nat) : (n &&& 0xFE00 = 512 * c) ↔ n / 512 = c := by
  have := and_high 9 7 n hn
  norm_num at this
  omega

theorem mask_FF00 {n : Nat} (hn : n < 65536) (c : Nat) : (n &&& 0xFF00 = 256 * c) ↔ n / 256 = c := by
  have := and_high 8 8 n hn
  norm_num at this
  omega

theorem mask_FF0F {n : Nat} (hn : n < 65536) (c d : Nat) (hd : d < 16) :
    (n &&& 0xFF0F = 256 * c + d) ↔ n / 256 = c ∧ n % 16 = d := by
  have hi := and_high 8 8 n hn
  have lo : n &&& 0xF = n % 16 := Nat.and_two_pow_sub_one_eq_mod n 4
  have split : n &&& 0xFF0F = 256 * (n / 256) + n % 16 := by
    rw [show (0xFF0F : Nat) = (2 ^ 8 - 1) * 2 ^ 8 ||| 0xF by decide, Nat.and_or_distrib_left, hi, lo]
    exact (Nat.two_pow_add_eq_or_of_lt (i := 8) (by omega) _).symm
  omega

theorem mask_FFFF {n : Nat} (hn : n < 65536) : n &&& 0xFFFF = n := by
  rw [show (0xFFFF : Nat) = 2 ^ 16 - 1 by decide, Nat.and_two_pow_sub_one_eq_mod]
  omega

/-! ## The selected rule -/

theorem find_cons {α : Type} (p : α → Bool) (a : α) (l : List α) :
    (a :: l).find? p = if p a = true then some a else l.find? p := by
  cases h : p a <;> simp [h]

theorem accepts_eq {r : DecodeRule} {w : BaseWord} {P : Prop} [Decidable P]
    (h : (w.toNat &&& r.mask.toNat = r.pattern.toNat) ↔ P) : r.accepts w = decide P := by
  rw [accepts_toNat, Bool.eq_iff_iff, beq_iff_eq, decide_eq_true_eq, h]

/-- The rule REF selects, by the number of the base word (R70). -/
theorem selectRule_eq (w : BaseWord) :
    selectRule w =
      if w.toNat / 4096 = 1 then refTable[0]?
      else if w.toNat / 1024 = 8 then refTable[1]?
      else if w.toNat / 1024 = 9 then refTable[2]?
      else if w.toNat / 256 = 0x30 then refTable[3]?
      else if w.toNat / 512 = 0x20 then refTable[4]?
      else if w.toNat / 256 = 0x50 ∧ w.toNat % 16 = 0 then refTable[5]?
      else if w.toNat = 0x6000 then refTable[6]?
      else if w.toNat = 0x707F then refTable[7]?
      else if w.toNat = 0x70BF then refTable[8]?
      else if w.toNat / 256 = 0x70 ∧ w.toNat % 16 = 15 then refTable[9]?
      else if w.toNat / 256 = 0x70 then refTable[10]?
      else none := by
  have hn := w.isLt
  have full : ∀ c, (w.toNat &&& 0xFFFF = c) ↔ w.toNat = c := fun c => by rw [mask_FFFF hn]
  have a0 := accepts_eq (r := ⟨0xF000, 0x1000, 0, none, .bccS, .pcrel8, [.branch, .pcrel], bccFields (.index 8 4) (.pcrel .base 0 .w8)⟩) (mask_F000 hn 1)
  have a1 := accepts_eq (r := ⟨0xFC00, 0x2000, 0, none, .addq, .quickU6, [], quickFields false⟩) (mask_FC00 hn 8)
  have a2 := accepts_eq (r := ⟨0xFC00, 0x2400, 0, none, .moveq, .quickS6, [], quickFields true⟩) (mask_FC00 hn 9)
  have a3 := accepts_eq (r := ⟨0xFF00, 0x3000, 0, none, .addR, .rr, [], [⟨.rd, .index 4 4⟩, ⟨.rs, .index 0 4⟩]⟩) (mask_FF00 hn 0x30)
  have a4 := accepts_eq (r := ⟨0xFE00, 0x4000, 0, none, .loadD, .mem, [.mem], [⟨.rd, .index 4 4⟩, ⟨.rs, .index 0 4⟩, ⟨.am, .modeBit .base 8⟩]⟩) (mask_FE00 hn 0x20)
  have a5 := accepts_eq (r := ⟨0xFF0F, 0x5000, 2, none, .bccW, .pcrel16, [.branch, .pcrel, .ext], bccFields (.index 4 4) (.pcrel .ext 0 .w16)⟩) (mask_FF0F hn 0x50 0 (by decide))
  have a6 := accepts_eq (r := ⟨0xFFFF, 0x6000, 0, none, .trap, .none, [.trap], []⟩) (full 0x6000)
  have a7 := accepts_eq (r := ⟨0xFFFF, 0x707F, 4, some (0xFFFF0000, 0), .moveSprImm, .sprImm, [.ext], sprImmFields (.latched 7)⟩) (full 0x707F)
  have a8 := accepts_eq (r := ⟨0xFFFF, 0x70BF, 4, some (0xFFFF0000, 0), .moveSprImm, .sprImm, [.ext], sprImmFields (.latched 11)⟩) (full 0x70BF)
  have a9 := accepts_eq (r := ⟨0xFF0F, 0x700F, 4, none, .moveSprImm, .sprImm, [.ext], sprImmFields (.index 4 4)⟩)
    (mask_FF0F hn 0x70 15 (by decide))
  have a10 := accepts_eq (r := ⟨0xFF00, 0x7000, 0, none, .moveSprReg, .sprReg, [], [⟨.ps, .index 4 4⟩, ⟨.rs, .index 0 4⟩]⟩) (mask_FF00 hn 0x70)
  simp only [selectRule, selectIn, refTable, find_cons, List.find?_nil, a0, a1, a2, a3, a4, a5, a6, a7, a8, a9, a10,
    decide_eq_true_eq, List.getElem?_cons_succ, List.getElem?_cons_zero]

/-! ## The instruction table -/

/-- The descriptor REF gives an opcode id is that of its table, whatever the other parameters (R82). -/
theorem itable_ref {p : Params} (h : p.table = refTable) {op : OpcodeId} : (itable p op).byteLength =
    match op with
    | .bccS => 2 | .addq => 2 | .moveq => 2 | .addR => 2 | .loadD => 2 | .bccW => 4 | .trap => 2 | .moveSprImm => 6
    | .moveSprReg => 2 | .invalid => p.invalidLen | .other _ => p.invalidLen := by
  cases op <;> (simp only [itable, h]; rfl)

/-- In REF `TRAP` has attribute `trap` and no other opcode has (R70). -/
theorem itable_ref_trap {p : Params} (h : p.table = refTable) (op : OpcodeId) :
    (itable p op).attrs.contains .trap = decide (op = .trap) := by
  cases op <;> (simp only [itable, h]; rfl)

/-! ## The REF instruction of a decode result -/

/-- The record of a REF instruction is read back as it (R68), the three `MOVE_SPR_IMM` paths apart (R63). -/
@[simp] theorem instr?_decoded (i : Instr) : i.decoded.instr? = some i := by
  cases i <;>
    simp [Instr.decoded, Instr.opcode, Instr.operands, DecodedInstr.instr?, DecodedInstr.field, sprImmPath,
      OperandValue.number, OperandValue.word]

/-! ## Bytes -/

@[simp] theorem littleBytes_length (n v : Nat) : (littleBytes n v).length = n := by
  induction n generalizing v with
  | zero => rfl
  | succ n ih => simp [littleBytes, ih]

@[simp] theorem disassemble_length (e : Endian) (n v : Nat) : (disassemble e n v).length = n := by
  cases e <;> simp [disassemble]

@[simp] theorem wordBytes_length (e : Endian) (v : Word) : (wordBytes e v).length = 4 := disassemble_length e 4 _

/-- The length of an encoding: the base word and the extension (R58). -/
theorem encode_length (p : Params) (pc : Word) (m : Bool) (i : Instr) :
    (encode p pc m i).length = match i with
      | .bccS _ _ => 2 | .addq _ _ => 2 | .moveq _ _ => 2 | .addR _ _ => 2 | .loadD _ _ _ => 2 | .bccW _ _ => 4
      | .trap => 2 | .moveSprImmP7 _ => 6 | .moveSprImmP11 _ => 6 | .moveSprImm _ _ => 6 | .moveSprReg _ _ => 2 := by
  cases i <;> simp [encode, encodeExt]

/-- The value of the little-endian bytes of a number that fits them. -/
theorem assemble_littleBytes (n v : Nat) : assemble .little (littleBytes n v) = v % 2 ^ (8 * n) := by
  induction n generalizing v with
  | zero => simp [littleBytes, assemble, Nat.mod_one]
  | succ n ih =>
    have := ih (v / 256)
    simp only [assemble] at this
    simp only [littleBytes, assemble, List.foldr_cons, this, BitVec.toNat_ofNat]
    rw [show 8 * (n + 1) = 8 + 8 * n by omega, Nat.pow_add, show (256 : Nat) = 2 ^ 8 from rfl,
      Nat.mod_mul]

/-- Reversing the bytes reverses the byte order (R40). -/
theorem assemble_reverse (bs : List Byte) : assemble .big bs.reverse = assemble .little bs := by
  simp only [assemble, List.foldl_reverse]
  congr 1
  funext b acc
  omega

/-- Bytes assemble to the value they were made from, in both byte orders (R40). -/
theorem assemble_disassemble (e : Endian) (n v : Nat) : assemble e (disassemble e n v) = v % 2 ^ (8 * n) := by
  cases e
  · exact assemble_littleBytes n v
  · rw [disassemble, assemble_reverse, assemble_littleBytes]

/-- A base word's bytes assemble to it (R41). -/
theorem base_of_bytes (e : Endian) (w : BaseWord) : BitVec.ofNat 16 (assemble e (disassemble e 2 w.toNat)) = w := by
  rw [assemble_disassemble]
  apply BitVec.eq_of_toNat_eq
  have := w.isLt
  simp
  omega

/-- A word's bytes assemble to it (R40). -/
theorem word_of_bytes (e : Endian) (w : Word) : BitVec.ofNat 32 (assemble e (wordBytes e w)) = w := by
  rw [wordBytes, assemble_disassemble]
  apply BitVec.eq_of_toNat_eq
  have := w.isLt
  simp
  omega

/-- The number of a concatenation. -/
theorem append_toNat {n m : Nat} (x : BitVec n) (y : BitVec m) : (x ++ y).toNat = x.toNat * 2 ^ m + y.toNat := by
  rw [BitVec.toNat_append, ← Nat.shiftLeft_add_eq_or_of_lt y.isLt, Nat.shiftLeft_eq]

/-- Two bytes are the list of their disassembly. -/
theorem disassemble_two_eq (e : Endian) (v : Nat) : ∃ b0 b1, disassemble e 2 v = [b0, b1] := by
  cases e <;> exact ⟨_, _, rfl⟩

/-- Decoding the bytes of a base word and of the extension its rule needs (R83). -/
theorem decodeBytes_base (p : Params) (hp : tableSupported p.table = true) (pc : Word) (m : Bool) (w : BaseWord)
    (ext rest : List Byte) (r : DecodeRule) (hr : selectIn p.table w = some r) (hl : ext.length = r.extLen) :
    decodeBytes p pc m (disassemble p.endian 2 w.toNat ++ ext ++ rest) =
      (decodeRule p r w (BitVec.ofNat 32 (assemble p.endian ext)) pc m).leaving rest := by
  have hb := base_of_bytes p.endian w
  obtain ⟨b0, b1, e⟩ := disassemble_two_eq p.endian w.toNat
  rw [e] at hb ⊢
  simp only [List.cons_append, List.nil_append, decodeBytes, hp, if_true, hb, hr]
  rw [if_neg (by simp; omega), ← hl, List.take_left, List.drop_left]

/-- The displacement of a target resolves to it (R91). -/
theorem target_of_displacement (p : Params) (pc : Word) (m : Bool) (width : DispWidth) (target adj : Word)
    (h : modeAdjustment p m width = some adj) :
    resolveTarget p pc m width (displacement p pc m width target) = some target := by
  simp only [resolveTarget, displacement, h, Option.map_some, Option.getD_some, Option.some.injEq]
  ring

/-- The displacement of a resolved target (R91). -/
theorem displacement_of_target (p : Params) (pc : Word) (m : Bool) (width : DispWidth) (disp target : Word)
    (h : resolveTarget p pc m width disp = some target) : displacement p pc m width target = disp := by
  simp only [resolveTarget, Option.map_eq_some_iff] at h
  obtain ⟨adj, h, rfl⟩ := h
  simp only [displacement, h, Option.getD_some]
  ring

end Sys2Proof
end

