-- ==== Sys2Proof/Laws/State.lean ====
section
/-! SUPPORT. One lemma for each field and each update of the state, so that no later proof unfolds a record update. -/

namespace Sys2Proof.Machine

/-! ## The Register File -/

@[simp] theorem RegFile_setReg_gpr (f : RegFile) (k : Nat) (w : Word) : (f.setReg k w).gpr = putReg w k f.gpr := rfl
@[simp] theorem RegFile_setReg_pc (f : RegFile) (k : Nat) (w : Word) : (f.setReg k w).pc = f.pc := rfl
@[simp] theorem RegFile_setReg_m (f : RegFile) (k : Nat) (w : Word) : (f.setReg k w).m = f.m := rfl
@[simp] theorem RegFile_setReg_c (f : RegFile) (k : Nat) (w : Word) : (f.setReg k w).c = f.c := rfl
@[simp] theorem RegFile_setReg_z (f : RegFile) (k : Nat) (w : Word) : (f.setReg k w).z = f.z := rfl
@[simp] theorem RegFile_setReg_n (f : RegFile) (k : Nat) (w : Word) : (f.setReg k w).n = f.n := rfl
@[simp] theorem RegFile_setReg_v (f : RegFile) (k : Nat) (w : Word) : (f.setReg k w).v = f.v := rfl
@[simp] theorem RegFile_setReg_x (f : RegFile) (k : Nat) (w : Word) : (f.setReg k w).x = f.x := rfl
@[simp] theorem RegFile_setReg_i (f : RegFile) (k : Nat) (w : Word) : (f.setReg k w).i = f.i := rfl
@[simp] theorem RegFile_setReg_ps (f : RegFile) (k : Nat) (w : Word) : (f.setReg k w).ps = f.ps := rfl

@[simp] theorem RegFile_setPc_gpr (f : RegFile) (w : Word) : (f.setPc w).gpr = f.gpr := rfl
@[simp] theorem RegFile_setPc_pc (f : RegFile) (w : Word) : (f.setPc w).pc = w := rfl
@[simp] theorem RegFile_setPc_m (f : RegFile) (w : Word) : (f.setPc w).m = f.m := rfl
@[simp] theorem RegFile_setPc_c (f : RegFile) (w : Word) : (f.setPc w).c = f.c := rfl
@[simp] theorem RegFile_setPc_z (f : RegFile) (w : Word) : (f.setPc w).z = f.z := rfl
@[simp] theorem RegFile_setPc_n (f : RegFile) (w : Word) : (f.setPc w).n = f.n := rfl
@[simp] theorem RegFile_setPc_v (f : RegFile) (w : Word) : (f.setPc w).v = f.v := rfl
@[simp] theorem RegFile_setPc_x (f : RegFile) (w : Word) : (f.setPc w).x = f.x := rfl
@[simp] theorem RegFile_setPc_i (f : RegFile) (w : Word) : (f.setPc w).i = f.i := rfl
@[simp] theorem RegFile_setPc_ps (f : RegFile) (w : Word) : (f.setPc w).ps = f.ps := rfl

/-! ## The state -/

@[simp] theorem State_setLive_live (s : State) (g : RegFile) : (s.setLive g).live = g := rfl
@[simp] theorem State_setLive_threads (s : State) (g : RegFile) : (s.setLive g).threads = s.threads := rfl
@[simp] theorem State_setLive_cur (s : State) (g : RegFile) : (s.setLive g).cur = s.cur := rfl
@[simp] theorem State_setLive_mem (s : State) (g : RegFile) : (s.setLive g).mem = s.mem := rfl
@[simp] theorem State_setLive_regions (s : State) (g : RegFile) : (s.setLive g).regions = s.regions := rfl
@[simp] theorem State_setLive_attachCount (s : State) (g : RegFile) : (s.setLive g).attachCount = s.attachCount := rfl
@[simp] theorem State_setLive_pages (s : State) (g : RegFile) : (s.setLive g).pages = s.pages := rfl
@[simp] theorem State_setLive_time (s : State) (g : RegFile) : (s.setLive g).time = s.time := rfl
@[simp] theorem State_setLive_launch (s : State) (g : RegFile) : (s.setLive g).launch = s.launch := rfl
@[simp] theorem State_setLive_replies (s : State) (g : RegFile) : (s.setLive g).replies = s.replies := rfl
@[simp] theorem State_setLive_diagnostics (s : State) (g : RegFile) : (s.setLive g).diagnostics = s.diagnostics := rfl
@[simp] theorem State_setLive_halted (s : State) (g : RegFile) : (s.setLive g).halted = s.halted := rfl

@[simp] theorem State_setReg_live (s : State) (k : Nat) (w : Word) : (s.setReg k w).live = s.live.setReg k w := rfl
@[simp] theorem State_setReg_threads (s : State) (k : Nat) (w : Word) : (s.setReg k w).threads = s.threads := rfl
@[simp] theorem State_setReg_cur (s : State) (k : Nat) (w : Word) : (s.setReg k w).cur = s.cur := rfl
@[simp] theorem State_setReg_mem (s : State) (k : Nat) (w : Word) : (s.setReg k w).mem = s.mem := rfl
@[simp] theorem State_setReg_regions (s : State) (k : Nat) (w : Word) : (s.setReg k w).regions = s.regions := rfl
@[simp] theorem State_setReg_attachCount (s : State) (k : Nat) (w : Word) : (s.setReg k w).attachCount = s.attachCount := rfl
@[simp] theorem State_setReg_pages (s : State) (k : Nat) (w : Word) : (s.setReg k w).pages = s.pages := rfl
@[simp] theorem State_setReg_time (s : State) (k : Nat) (w : Word) : (s.setReg k w).time = s.time := rfl
@[simp] theorem State_setReg_launch (s : State) (k : Nat) (w : Word) : (s.setReg k w).launch = s.launch := rfl
@[simp] theorem State_setReg_replies (s : State) (k : Nat) (w : Word) : (s.setReg k w).replies = s.replies := rfl
@[simp] theorem State_setReg_diagnostics (s : State) (k : Nat) (w : Word) : (s.setReg k w).diagnostics = s.diagnostics := rfl
@[simp] theorem State_setReg_halted (s : State) (k : Nat) (w : Word) : (s.setReg k w).halted = s.halted := rfl

@[simp] theorem State_setPc_live (s : State) (w : Word) : (s.setPc w).live = s.live.setPc w := rfl
@[simp] theorem State_setPc_threads (s : State) (w : Word) : (s.setPc w).threads = s.threads := rfl
@[simp] theorem State_setPc_cur (s : State) (w : Word) : (s.setPc w).cur = s.cur := rfl
@[simp] theorem State_setPc_mem (s : State) (w : Word) : (s.setPc w).mem = s.mem := rfl
@[simp] theorem State_setPc_regions (s : State) (w : Word) : (s.setPc w).regions = s.regions := rfl
@[simp] theorem State_setPc_attachCount (s : State) (w : Word) : (s.setPc w).attachCount = s.attachCount := rfl
@[simp] theorem State_setPc_pages (s : State) (w : Word) : (s.setPc w).pages = s.pages := rfl
@[simp] theorem State_setPc_time (s : State) (w : Word) : (s.setPc w).time = s.time := rfl
@[simp] theorem State_setPc_launch (s : State) (w : Word) : (s.setPc w).launch = s.launch := rfl
@[simp] theorem State_setPc_replies (s : State) (w : Word) : (s.setPc w).replies = s.replies := rfl
@[simp] theorem State_setPc_diagnostics (s : State) (w : Word) : (s.setPc w).diagnostics = s.diagnostics := rfl
@[simp] theorem State_setPc_halted (s : State) (w : Word) : (s.setPc w).halted = s.halted := rfl

@[simp] theorem State_setThread_live (s : State) (k : Nat) (t : Thread) : (s.setThread k t).live = s.live := rfl
@[simp] theorem State_setThread_threads (s : State) (k : Nat) (t : Thread) : (s.setThread k t).threads = s.threads.set k t := rfl
@[simp] theorem State_setThread_cur (s : State) (k : Nat) (t : Thread) : (s.setThread k t).cur = s.cur := rfl
@[simp] theorem State_setThread_mem (s : State) (k : Nat) (t : Thread) : (s.setThread k t).mem = s.mem := rfl
@[simp] theorem State_setThread_regions (s : State) (k : Nat) (t : Thread) : (s.setThread k t).regions = s.regions := rfl
@[simp] theorem State_setThread_attachCount (s : State) (k : Nat) (t : Thread) : (s.setThread k t).attachCount = s.attachCount := rfl
@[simp] theorem State_setThread_pages (s : State) (k : Nat) (t : Thread) : (s.setThread k t).pages = s.pages := rfl
@[simp] theorem State_setThread_time (s : State) (k : Nat) (t : Thread) : (s.setThread k t).time = s.time := rfl
@[simp] theorem State_setThread_launch (s : State) (k : Nat) (t : Thread) : (s.setThread k t).launch = s.launch := rfl
@[simp] theorem State_setThread_replies (s : State) (k : Nat) (t : Thread) : (s.setThread k t).replies = s.replies := rfl
@[simp] theorem State_setThread_diagnostics (s : State) (k : Nat) (t : Thread) : (s.setThread k t).diagnostics = s.diagnostics := rfl
@[simp] theorem State_setThread_halted (s : State) (k : Nat) (t : Thread) : (s.setThread k t).halted = s.halted := rfl

@[simp] theorem State_setCurrent_live (s : State) (t : Thread) : (s.setCurrent t).live = s.live := rfl
@[simp] theorem State_setCurrent_threads (s : State) (t : Thread) : (s.setCurrent t).threads = s.threads.set s.cur t := rfl
@[simp] theorem State_setCurrent_cur (s : State) (t : Thread) : (s.setCurrent t).cur = s.cur := rfl
@[simp] theorem State_setCurrent_mem (s : State) (t : Thread) : (s.setCurrent t).mem = s.mem := rfl
@[simp] theorem State_setCurrent_regions (s : State) (t : Thread) : (s.setCurrent t).regions = s.regions := rfl
@[simp] theorem State_setCurrent_attachCount (s : State) (t : Thread) : (s.setCurrent t).attachCount = s.attachCount := rfl
@[simp] theorem State_setCurrent_pages (s : State) (t : Thread) : (s.setCurrent t).pages = s.pages := rfl
@[simp] theorem State_setCurrent_time (s : State) (t : Thread) : (s.setCurrent t).time = s.time := rfl
@[simp] theorem State_setCurrent_launch (s : State) (t : Thread) : (s.setCurrent t).launch = s.launch := rfl
@[simp] theorem State_setCurrent_replies (s : State) (t : Thread) : (s.setCurrent t).replies = s.replies := rfl
@[simp] theorem State_setCurrent_diagnostics (s : State) (t : Thread) : (s.setCurrent t).diagnostics = s.diagnostics := rfl
@[simp] theorem State_setCurrent_halted (s : State) (t : Thread) : (s.setCurrent t).halted = s.halted := rfl

@[simp] theorem State_restore_live (s : State) (g : RegFile) : (s.restore g).live = g := rfl
@[simp] theorem State_restore_threads (s : State) (g : RegFile) : (s.restore g).threads = s.threads := rfl
@[simp] theorem State_restore_cur (s : State) (g : RegFile) : (s.restore g).cur = s.cur := rfl
@[simp] theorem State_restore_mem (s : State) (g : RegFile) : (s.restore g).mem = s.mem := rfl
@[simp] theorem State_restore_regions (s : State) (g : RegFile) : (s.restore g).regions = s.regions := rfl
@[simp] theorem State_restore_attachCount (s : State) (g : RegFile) : (s.restore g).attachCount = s.attachCount := rfl
@[simp] theorem State_restore_pages (s : State) (g : RegFile) : (s.restore g).pages = s.pages := rfl
@[simp] theorem State_restore_time (s : State) (g : RegFile) : (s.restore g).time = s.time := rfl
@[simp] theorem State_restore_launch (s : State) (g : RegFile) : (s.restore g).launch = s.launch := rfl
@[simp] theorem State_restore_replies (s : State) (g : RegFile) : (s.restore g).replies = s.replies := rfl
@[simp] theorem State_restore_diagnostics (s : State) (g : RegFile) : (s.restore g).diagnostics = s.diagnostics := rfl
@[simp] theorem State_restore_halted (s : State) (g : RegFile) : (s.restore g).halted = s.halted := rfl

@[simp] theorem State_setLive_params (s : State) (g : RegFile) : (s.setLive g).params = s.params := rfl
@[simp] theorem State_setReg_params (s : State) (k : Nat) (w : Word) : (s.setReg k w).params = s.params := rfl
@[simp] theorem State_setPc_params (s : State) (w : Word) : (s.setPc w).params = s.params := rfl
@[simp] theorem State_setCurrent_params (s : State) (t : Thread) : (s.setCurrent t).params = s.params := rfl

end Sys2Proof.Machine
end

