-- ==== Sys2Proof/Laws/Memory.lean ====
section
/-! SUPPORT. The laws of memory: read after write, the canonical form every operation keeps, and what an access of the
substrate can do (R35 to R44). -/

namespace Sys2Proof.Machine

/-- The address of byte `k + 1` from `a`, counted from the byte after `a` (R43). -/
theorem next_address (a : Word) (k : Nat) : a + 1 + BitVec.ofNat 32 k = a + BitVec.ofNat 32 (k + 1) := by
  apply BitVec.eq_of_toNat_eq
  simp [BitVec.toNat_add]
  omega

/-! ## Cells -/

@[simp] theorem Memory.lookup_store (a b : Nat) (v : Byte) (mem : List Host.Cell) :
    Memory.lookup a (Memory.store b v mem) = if a = b then some v else Memory.lookup a mem := by
  induction mem with
  | nil => simp [Memory.store, Memory.lookup]
  | cons c rest ih =>
    obtain ⟨d, x⟩ := c
    simp only [Memory.store]
    split
    · simp [Memory.lookup]
    · split
      · rename_i h; subst h
        by_cases e : a = b <;> simp [Memory.lookup, e]
      · rename_i h1 h2
        simp only [Memory.lookup, ih]
        by_cases e : a = d
        · subst e; simp; intro e; exact absurd e.symm h2
        · simp [e]

/-- The canonical form, as an order on the addresses and a bound on each. -/
theorem Memory.wf_iff (mem : List Host.Cell) :
    Memory.wf mem = true ↔ mem.Pairwise (fun p q => p.1 < q.1) ∧ ∀ p ∈ mem, p.1 < 2 ^ 32 := by
  induction mem with
  | nil => simp [Memory.wf]
  | cons c rest ih =>
    obtain ⟨a, x⟩ := c
    cases rest with
    | nil => simp [Memory.wf]
    | cons d rest =>
      obtain ⟨b, y⟩ := d
      simp only [Memory.wf, Bool.and_eq_true, decide_eq_true_eq, ih]
      constructor
      · rintro ⟨hab, hp, hb⟩
        refine ⟨List.pairwise_cons.2 ⟨?_, hp⟩, ?_⟩
        · intro q hq
          rcases List.mem_cons.1 hq with rfl | hq
          · exact hab
          · exact Nat.lt_trans hab ((List.pairwise_cons.1 hp).1 q hq)
        · intro p hp'
          rcases List.mem_cons.1 hp' with rfl | hp'
          · exact Nat.lt_trans hab (hb _ (List.mem_cons_self ..))
          · exact hb p hp'
      · rintro ⟨hp, hb⟩
        have h := List.pairwise_cons.1 hp
        exact ⟨h.1 _ (List.mem_cons_self ..), h.2, fun p hp' => hb p (List.mem_cons_of_mem _ hp')⟩

theorem Memory.mem_store {p : Host.Cell} {a : Nat} {v : Byte} {mem : List Host.Cell}
    (h : p ∈ Memory.store a v mem) : p = (a, v) ∨ p ∈ mem := by
  induction mem with
  | nil => simpa [Memory.store] using h
  | cons c rest ih =>
    obtain ⟨b, x⟩ := c
    simp only [Memory.store] at h
    split at h
    · simpa using h
    · split at h
      · rcases List.mem_cons.1 h with h | h
        · exact .inl h
        · exact .inr (List.mem_cons_of_mem _ h)
      · rcases List.mem_cons.1 h with h | h
        · exact .inr (h ▸ List.mem_cons_self ..)
        · exact (ih h).imp id (List.mem_cons_of_mem _)

/-- Storing a byte keeps the canonical form. -/
theorem Memory.wf_store {a : Nat} (v : Byte) {mem : List Host.Cell} (ha : a < 2 ^ 32) (h : Memory.wf mem = true) :
    Memory.wf (Memory.store a v mem) = true := by
  rw [Memory.wf_iff] at h ⊢
  refine ⟨?_, fun p hp => (Memory.mem_store hp).elim (fun e => e ▸ ha) (h.2 p)⟩
  obtain ⟨h, -⟩ := h
  induction mem with
  | nil => simp [Memory.store]
  | cons c rest ih =>
    obtain ⟨b, x⟩ := c
    have hc := List.pairwise_cons.1 h
    simp only [Memory.store]
    split
    · rename_i hab
      refine List.pairwise_cons.2 ⟨fun q hq => ?_, h⟩
      rcases List.mem_cons.1 hq with rfl | hq
      · exact hab
      · exact Nat.lt_trans hab (hc.1 q hq)
    · split
      · rename_i hab
        exact List.pairwise_cons.2 ⟨fun q hq => hab ▸ hc.1 q hq, hc.2⟩
      · rename_i h1 h2
        refine List.pairwise_cons.2 ⟨fun q hq => ?_, ih hc.2⟩
        rcases Memory.mem_store hq with rfl | hq
        · show b < a; omega
        · exact hc.1 q hq

/-- Storing bytes keeps the canonical form. -/
theorem Memory.wf_storeBytes (a : Word) (bs : List Byte) {mem : List Host.Cell} (h : Memory.wf mem = true) :
    Memory.wf (Memory.storeBytes a bs mem) = true := by
  induction bs generalizing a mem with
  | nil => exact h
  | cons b bs ih => exact ih (a + 1) (Memory.wf_store b a.isLt h)

/-- Forgetting bytes keeps the canonical form. -/
theorem Memory.wf_restrict (keep : Nat → Bool) {mem : List Host.Cell} (h : Memory.wf mem = true) :
    Memory.wf (Memory.restrict keep mem) = true := by
  rw [Memory.wf_iff] at h ⊢
  exact ⟨h.1.filter _, fun p hp => h.2 p (List.mem_filter.1 hp).1⟩

/-- A byte outside the stored ones is as it was. -/
theorem Memory.lookup_storeBytes_other (a b : Word) (bs : List Byte) (mem : List Host.Cell)
    (h : ∀ k, k < bs.length → b ≠ a + BitVec.ofNat 32 k) :
    Memory.lookup b.toNat (Memory.storeBytes a bs mem) = Memory.lookup b.toNat mem := by
  induction bs generalizing a mem with
  | nil => rfl
  | cons x bs ih =>
    rw [Memory.storeBytes, ih (a + 1)]
    · have : b ≠ a := by simpa using h 0 (by simp)
      simp [show b.toNat ≠ a.toNat from fun e => this (BitVec.eq_of_toNat_eq e)]
    · intro k hk
      have := h (k + 1) (by simpa using hk)
      rwa [next_address]

/-- A stored byte reads back, where the bytes do not run once around the address space. -/
theorem Memory.lookup_storeBytes_self (a : Word) (bs : List Byte) (mem : List Host.Cell) (hlen : bs.length ≤ 2 ^ 32)
    {k : Nat} (hk : k < bs.length) :
    Memory.lookup (a + BitVec.ofNat 32 k).toNat (Memory.storeBytes a bs mem) = some bs[k] := by
  induction bs generalizing a mem k with
  | nil => simp at hk
  | cons x bs ih =>
    rw [Memory.storeBytes]
    simp only [List.length_cons] at hk hlen
    cases k with
    | zero =>
      rw [Memory.lookup_storeBytes_other]
      · simp
      · intro j hj e
        have := congrArg BitVec.toNat e
        simp only [BitVec.toNat_add, BitVec.toNat_ofNat] at this
        have := a.isLt
        simp at *
        omega
    | succ k =>
      have h := ih (a + 1) (Memory.store a.toNat x mem) (by omega) (k := k) (by omega)
      rw [next_address] at h
      simpa using h

/-! ## The substrate -/

/-- Everything a read can do (R38). -/
theorem readMem_cases (kind : AccessKind) (a : Word) (n : Nat) (s : State) :
    (s.firstFault kind n a = none ∧ readMem kind a n s = .ok (s.bytesAt n a)) ∨
    (∃ bad, s.firstFault kind n a = some bad ∧ readMem kind a n s = .error (.halt (.addressFault bad) s)) := by
  cases h : s.firstFault kind n a with
  | none => exact .inl ⟨rfl, by simp [readMem, h]⟩
  | some bad => exact .inr ⟨bad, rfl, by simp [readMem, h, addressFault]⟩

/-- Everything a write can do: all its bytes, or none of them (R44). -/
theorem writeMem_cases (a : Word) (bs : List Byte) (s : State) :
    (s.firstFault .write bs.length a = none ∧
      writeMem a bs s = .ok { s with mem := Memory.storeBytes a bs s.mem }) ∨
    (∃ bad, s.firstFault .write bs.length a = some bad ∧
      writeMem a bs s = .error (.halt (.addressFault bad) s)) := by
  cases h : s.firstFault .write bs.length a with
  | none => exact .inl ⟨rfl, by simp [writeMem, h]⟩
  | some bad => exact .inr ⟨bad, rfl, by simp [writeMem, h, addressFault]⟩

/-- Where an access faults depends on the attached regions alone (R38). -/
theorem firstFault_congr {s t : State} (h : t.regions = s.regions) (kind : AccessKind) (n : Nat) (a : Word) :
    t.firstFault kind n a = s.firstFault kind n a := by
  have ha : t.accessible kind = s.accessible kind := by funext b; simp only [State.accessible, State.regionAt, h]
  induction n generalizing a with
  | zero => rfl
  | succ n ih => simp only [State.firstFault, ha, ih]

/-- What a thread's record holds plays no part in where an access faults. -/
@[simp] theorem State_setCurrent_firstFault (s : State) (u : Thread) (kind : AccessKind) (n : Nat) (a : Word) :
    (s.setCurrent u).firstFault kind n a = s.firstFault kind n a :=
  firstFault_congr (by rfl) kind n a

/-- An access faults nowhere exactly where every byte of it is accessible (R38). -/
theorem firstFault_none_iff (s : State) (kind : AccessKind) (n : Nat) (a : Word) :
    s.firstFault kind n a = none ↔ ∀ k, k < n → s.accessible kind (a + BitVec.ofNat 32 k) = true := by
  induction n generalizing a with
  | zero => simp [State.firstFault]
  | succ n ih =>
    simp only [State.firstFault]
    split
    · rename_i h
      rw [ih]
      constructor
      · intro hall k hk
        cases k with
        | zero => simpa using h
        | succ k => rw [← next_address]; exact hall k (by omega)
      · intro hall k hk
        rw [next_address]; exact hall (k + 1) (by omega)
    · rename_i h
      simp only [reduceCtorEq, false_iff]
      intro hall
      exact h (by simpa using hall 0 (by omega))

@[simp] theorem bytesAt_length (s : State) (n : Nat) (a : Word) : (s.bytesAt n a).length = n := by
  induction n generalizing a with
  | zero => rfl
  | succ n ih => simp [State.bytesAt, ih]

/-- The bytes read depend on the bytes at their addresses alone. -/
theorem bytesAt_congr {s t : State} {n : Nat} {a : Word}
    (h : ∀ k, k < n → s.byteAt (a + BitVec.ofNat 32 k) = t.byteAt (a + BitVec.ofNat 32 k)) :
    s.bytesAt n a = t.bytesAt n a := by
  induction n generalizing a with
  | zero => rfl
  | succ n ih =>
    simp only [State.bytesAt]
    rw [show s.byteAt a = t.byteAt a by simpa using h 0 (by omega), ih]
    intro k hk
    rw [next_address]
    exact h (k + 1) (by omega)

end Sys2Proof.Machine
end

