-- ==== Sys2Proof/Laws/PerInstr.lean ====
section
/-! SUPPORT. A statement made per instruction: an instruction's encoding has the length its descriptor gives (R59). -/

namespace Sys2Proof.Laws.EncodedLength

/-- The REF encoding is as long as the descriptor says, at every address in both modes, in both byte orders. -/
def Statement (i : Instr) : Prop :=
  ∀ (p : Params) (pc : Word) (m : Bool), p.table = refTable → (encode p pc m i).length = (i.descriptor p).byteLength

theorem bccS (cond : CondCode) (target : Word) : Statement (.bccS cond target) :=
  fun p pc m h => by rw [Instr.descriptor, itable_ref h, encode_length]; rfl
theorem addq (rd : RegNum) (imm : Word) : Statement (.addq rd imm) :=
  fun p pc m h => by rw [Instr.descriptor, itable_ref h, encode_length]; rfl
theorem moveq (rd : RegNum) (imm : Word) : Statement (.moveq rd imm) :=
  fun p pc m h => by rw [Instr.descriptor, itable_ref h, encode_length]; rfl
theorem addR (rd rs : RegNum) : Statement (.addR rd rs) :=
  fun p pc m h => by rw [Instr.descriptor, itable_ref h, encode_length]; rfl
theorem loadD (am : Bool) (rd rs : RegNum) : Statement (.loadD am rd rs) :=
  fun p pc m h => by rw [Instr.descriptor, itable_ref h, encode_length]; rfl
theorem bccW (cond : CondCode) (target : Word) : Statement (.bccW cond target) :=
  fun p pc m h => by rw [Instr.descriptor, itable_ref h, encode_length]; rfl
theorem trap : Statement .trap :=
  fun p pc m h => by rw [Instr.descriptor, itable_ref h, encode_length]; rfl
theorem moveSprImmP7 (imm : Word) : Statement (.moveSprImmP7 imm) :=
  fun p pc m h => by rw [Instr.descriptor, itable_ref h, encode_length]; rfl
theorem moveSprImmP11 (imm : Word) : Statement (.moveSprImmP11 imm) :=
  fun p pc m h => by rw [Instr.descriptor, itable_ref h, encode_length]; rfl
theorem moveSprImm (ps : RegNum) (imm : Word) : Statement (.moveSprImm ps imm) :=
  fun p pc m h => by rw [Instr.descriptor, itable_ref h, encode_length]; rfl
theorem moveSprReg (ps rs : RegNum) : Statement (.moveSprReg ps rs) :=
  fun p pc m h => by rw [Instr.descriptor, itable_ref h, encode_length]; rfl

end Sys2Proof.Laws.EncodedLength
end

