-- ==== Sys2Proof/Laws/Registers.lean ====
section
/-! SUPPORT. The laws of the Register File: read after write of a general register (R18), what a read or write of a
register answers (R94, R95), and that a flag write touches one flag (R99). -/

namespace Sys2Proof.Machine

/-! ## General registers -/

theorem putReg_getD (v : Word) (k j : Nat) (l : List Word) :
    (putReg v k l).getD j 0 = if j = k then v else l.getD j 0 := by
  induction k generalizing l j with
  | zero => cases l <;> cases j <;> simp [putReg]
  | succ k ih =>
    cases l <;> cases j <;>
      simp only [putReg, List.getD_cons_zero, List.getD_cons_succ, ih, List.getD_nil, Nat.add_right_cancel_iff, if_false, (Nat.succ_ne_zero _).symm]

/-- A register file keeps its number of registers where a register of it is written (R17). -/
theorem putReg_length {v : Word} {k : Nat} {l : List Word} (h : k < l.length) : (putReg v k l).length = l.length := by
  induction k generalizing l with
  | zero => cases l <;> simp_all [putReg]
  | succ k ih =>
    cases l with
    | nil => simp at h
    | cons a l => simp [putReg, ih (l := l) (by simpa using h)]

theorem RegFile_setReg_reg (f : RegFile) (j k : Nat) (w : Word) :
    (f.setReg k w).reg j = if j = k then w else f.reg j := putReg_getD w k j f.gpr

@[simp] theorem RegFile_setReg_reg_self (f : RegFile) (k : Nat) (w : Word) : (f.setReg k w).reg k = w := by
  simp [RegFile_setReg_reg]

theorem RegFile_setReg_reg_other (f : RegFile) {j k : Nat} (w : Word) (h : j ≠ k) :
    (f.setReg k w).reg j = f.reg j := by simp [RegFile_setReg_reg, h]

@[simp] theorem RegFile_setPc_reg (f : RegFile) (j : Nat) (w : Word) : (f.setPc w).reg j = f.reg j := rfl

/-- A register number is refused, or names an ordinary register (R94, R95). -/
theorem checkReg_cases (p : Params) (i : Nat) :
    (i < p.numGpr ∧ i ≠ p.aliasGpr ∧ checkReg p i = .ok ()) ∨ ∃ r, checkReg p i = .error (.refuse r) := by
  simp only [checkReg]
  split
  · exact .inr ⟨_, rfl⟩
  · split
    · exact .inr ⟨_, rfl⟩
    · exact .inl ⟨by omega, by assumption, rfl⟩

theorem checkReg_ok {s : State} {i : Nat} (h : s.hasReg i) : checkReg s.params i = .ok () := by
  simp only [checkReg, if_neg (Nat.not_le.2 h.1), if_neg h.2]

/-- A read of an ordinary register answers its value (R94). -/
theorem readGpr_ok {i : Nat} {s : State} (h : s.hasReg i) : readGpr i s = .ok (s.live.reg i) := by
  simp only [readGpr, checkReg_ok h]; rfl

/-- Everything a read of a register can do (R94). -/
theorem readGpr_cases (i : Nat) (s : State) :
    (s.hasReg i ∧ readGpr i s = .ok (s.live.reg i)) ∨ ∃ r, readGpr i s = .error (.refuse r) := by
  rcases checkReg_cases s.params i with ⟨h1, h2, e⟩ | ⟨r, e⟩
  · exact .inl ⟨⟨h1, h2⟩, readGpr_ok ⟨h1, h2⟩⟩
  · exact .inr ⟨r, by simp only [readGpr, e]; rfl⟩

/-- A write of an ordinary register replaces it and nothing else (R95). -/
theorem writeGpr_ok {i : Nat} {s : State} (v : Word) (h : s.hasReg i) : writeGpr i v s = .ok (s.setReg i v) := by
  simp only [writeGpr, checkReg_ok h]; rfl

/-- Everything a write of a register can do (R95). -/
theorem writeGpr_cases (i : Nat) (v : Word) (s : State) :
    (s.hasReg i ∧ writeGpr i v s = .ok (s.setReg i v)) ∨ ∃ r, writeGpr i v s = .error (.refuse r) := by
  rcases checkReg_cases s.params i with ⟨h1, h2, e⟩ | ⟨r, e⟩
  · exact .inl ⟨⟨h1, h2⟩, writeGpr_ok v ⟨h1, h2⟩⟩
  · exact .inr ⟨r, by simp only [writeGpr, e]; rfl⟩

/-- The registers the trap layer uses are all ordinary, or the use is refused (R19). -/
theorem checkRoles_cases (p : Params) (ks : List Nat) :
    checkRoles p ks = .ok () ∨ ∃ r, checkRoles p ks = .error (.refuse r) := by
  induction ks with
  | nil => exact .inl rfl
  | cons k rest ih =>
    rcases checkReg_cases p k with ⟨-, -, e⟩ | ⟨r, e⟩
    · simp only [checkRoles, e]; exact ih
    · exact .inr ⟨r, by simp only [checkRoles, e]; rfl⟩

theorem checkRoles_ok {s : State} {ks : List Nat} (h : ∀ k ∈ ks, s.hasReg k) : checkRoles s.params ks = .ok () := by
  induction ks with
  | nil => rfl
  | cons k rest ih =>
    simp only [checkRoles, checkReg_ok (h k (List.mem_cons_self ..))]
    exact ih fun j hj => h j (List.mem_cons_of_mem _ hj)

/-- The registers of a trap, of a delivery and of an outcome are roles (R20). -/
theorem trapRoles_sub (p : Params) : trapRoles p ⊆ abiRoles p := by
  simp only [trapRoles, abiRoles]; intro k; simp; tauto

theorem deliveryRoles_sub (l : Launch) : deliveryRoles l ⊆ abiRoles l.params := by
  have args : ∀ k, l.params.argReg k ∈ abiRoles l.params := fun k => by simp [abiRoles, Params.argReg]
  have rest : handlerRoles l ⊆ abiRoles l.params := by
    simp only [handlerRoles]
    split
    · simpa using args _
    · intro k h
      obtain ⟨j, -, rfl⟩ := List.mem_map.1 h
      exact args j
  simp only [deliveryRoles, List.cons_subset]
  exact ⟨by simp [abiRoles], by simp [abiRoles], args 0, rest⟩

theorem TrapResult_roles_sub (p : Params) (r : TrapResult) : r.roles p ⊆ abiRoles p := by
  cases r <;> simp [TrapResult.roles, abiRoles]

/-- Where the trap layer's registers are all ordinary, no use of some of them is refused (R19). -/
theorem checkRoles_sub {s : State} {ks : List Nat} (h : s.hasRoles) (hk : ks ⊆ abiRoles s.params) :
    checkRoles s.params ks = .ok () := checkRoles_ok fun k hm => h k (hk hm)

/-! ## Flags -/

/-- A flag after the write of one the file has (R98, R99). -/
theorem RegFile_writeFlag_readFlag {layout : FlagLayout} (f : RegFile) (a b : Flag) (x : Bool)
    (hf : f.ps.length = layout.ps.length) (ha : a.named layout = true) :
    (f.writeFlag a x).readFlag b = if b = a then x else f.readFlag b := by
  cases a <;> cases b <;> simp only [RegFile.writeFlag, RegFile.readFlag, reduceCtorEq, if_true, if_false, Flag.PS.injEq]
  rename_i j k
  simp only [Flag.named, decide_eq_true_eq, ← hf] at ha
  simp only [List.getD_eq_getElem?_getD, List.getElem?_set]
  by_cases h : k = j
  · subst h; simp [ha]
  · simp [h, Ne.symm h]

/-- A file keeps its number of privilege/shadow bits where a flag of it is written (R14). -/
@[simp] theorem RegFile_writeFlag_ps_length (f : RegFile) (a : Flag) (x : Bool) :
    (f.writeFlag a x).ps.length = f.ps.length := by cases a <;> simp [RegFile.writeFlag]

/-- The flags of a layout are those it has (R98). -/
theorem Flag_mem_all {layout : FlagLayout} {fl : Flag} : fl ∈ Flag.all layout ↔ fl.named layout = true := by
  cases fl <;> simp [Flag.all, Flag.named]

@[simp] theorem RegFile_writeFlag_gpr (f : RegFile) (a : Flag) (x : Bool) : (f.writeFlag a x).gpr = f.gpr := by
  cases a <;> rfl

@[simp] theorem RegFile_writeFlag_pc (f : RegFile) (a : Flag) (x : Bool) : (f.writeFlag a x).pc = f.pc := by
  cases a <;> rfl

@[simp] theorem RegFile_writeFlag_reg (f : RegFile) (a : Flag) (x : Bool) (j : Nat) :
    (f.writeFlag a x).reg j = f.reg j := by simp [RegFile.reg]

/-! ## The flags word -/

theorem position_lt (layout : FlagLayout) (fl : Flag) : fl.position layout < 32 := by
  cases fl <;> simp [Flag.position]

/-- The bits of a word put together from flags. -/
theorem foldl_bits (g : Flag → Bool) (pos : Flag → Nat) (l : List Flag) (w : Word) (k : Nat) :
    (l.foldl (fun w fl => w ||| (BitVec.setWidth 32 (BitVec.ofBool (g fl)) <<< pos fl)) w).getLsbD k =
      (w.getLsbD k || decide (k < 32) && l.any (fun fl => decide (pos fl = k) && g fl)) := by
  induction l generalizing w with
  | nil => simp
  | cons a l ih =>
    simp only [List.foldl_cons, ih, List.any_cons, BitVec.getLsbD_or, BitVec.getLsbD_shiftLeft,
      BitVec.getLsbD_setWidth, BitVec.getLsbD_ofBool]
    by_cases hk : k < 32
    · by_cases e : pos a = k
      · subst e; simp [hk, Bool.or_assoc]
      · by_cases h : k < pos a
        · simp [hk, e, h]
        · have : k - pos a ≠ 0 := by omega
          simp [hk, e, this]
    · simp [hk]

/-- A bit of the flags word: some flag mapped there is set (R100). -/
theorem readFlags_bit (layout : FlagLayout) (f : RegFile) (k : Nat) :
    (f.readFlags layout).getLsbD k =
      (decide (k < 32) && (Flag.all layout).any (fun fl => decide (fl.position layout = k) && f.readFlag fl)) := by
  rw [RegFile.readFlags, foldl_bits]; simp

/-- A bit of the mask: some flag is mapped there (R102). -/
theorem flagMask_bit (layout : FlagLayout) (k : Nat) :
    (flagMask layout).getLsbD k =
      (decide (k < 32) && (Flag.all layout).any (fun fl => decide (fl.position layout = k))) := by
  have := foldl_bits (fun _ => true) (Flag.position layout) (Flag.all layout) 0 k
  simpa [flagMask] using this

/-- A flag after a write of the flags word: its bit where the layout has it, else as it was (R101). -/
theorem writeFlags_readFlag {layout : FlagLayout} (f : RegFile) (w : Word) (fl : Flag)
    (hf : f.ps.length = layout.ps.length) :
    (f.writeFlags layout w).readFlag fl =
      if fl ∈ Flag.all layout then w.bit (fl.position layout) else f.readFlag fl := by
  have fold : ∀ (l : List Flag) (f : RegFile), f.ps.length = layout.ps.length → (∀ a ∈ l, a.named layout = true) →
      (l.foldl (fun g fl => g.writeFlag fl (w.bit (fl.position layout))) f).readFlag fl =
        if fl ∈ l then w.bit (fl.position layout) else f.readFlag fl := by
    intro l
    induction l with
    | nil => simp
    | cons a l ih =>
      intro f hf hl
      rw [List.foldl_cons, ih _ (by simpa using hf) fun b hb => hl b (List.mem_cons_of_mem _ hb),
        RegFile_writeFlag_readFlag f a fl _ hf (hl a (List.mem_cons_self ..))]
      by_cases h : fl ∈ l <;> by_cases e : fl = a <;> simp [h, e]
  exact fold _ f hf fun a ha => Flag_mem_all.1 ha

/-- A write of the flags word writes no register and not the program counter (R101). -/
@[simp] theorem RegFile_writeFlags_gpr (layout : FlagLayout) (f : RegFile) (w : Word) :
    (f.writeFlags layout w).gpr = f.gpr := by
  rw [RegFile.writeFlags]
  generalize Flag.all layout = l
  induction l generalizing f with
  | nil => rfl
  | cons a l ih => rw [List.foldl_cons, ih, RegFile_writeFlag_gpr]

@[simp] theorem RegFile_writeFlags_pc (layout : FlagLayout) (f : RegFile) (w : Word) :
    (f.writeFlags layout w).pc = f.pc := by
  rw [RegFile.writeFlags]
  generalize Flag.all layout = l
  induction l generalizing f with
  | nil => rfl
  | cons a l ih => rw [List.foldl_cons, ih, RegFile_writeFlag_pc]

/-- A write of the flags word keeps the number of privilege/shadow bits (R14). -/
@[simp] theorem RegFile_writeFlags_ps_length (layout : FlagLayout) (f : RegFile) (w : Word) :
    (f.writeFlags layout w).ps.length = f.ps.length := by
  rw [RegFile.writeFlags]
  generalize Flag.all layout = l
  induction l generalizing f with
  | nil => rfl
  | cons a l ih => rw [List.foldl_cons, ih, RegFile_writeFlag_ps_length]

/-- A Register File is its registers, its program counter and its flags (R14). -/
theorem RegFile_ext {f g : RegFile} (h1 : f.gpr = g.gpr) (h2 : f.pc = g.pc) (h3 : f.ps.length = g.ps.length)
    (h : ∀ fl, f.readFlag fl = g.readFlag fl) : f = g := by
  have hp : f.ps = g.ps := List.ext_getElem h3 fun k hf hg => by
    simpa [RegFile.readFlag, List.getD_eq_getElem?_getD, hf, hg] using h (.PS k)
  have hm := h .M; have hc := h .C; have hz := h .Z; have hn := h .N; have hv := h .V; have hx := h .X
  have hi := h .I
  cases f; cases g
  simp_all [RegFile.readFlag]

/-! ## The flags of an add -/

/-- `add32` writes `C`, `V`, `Z` and `N`, no register and not the program counter (R112). -/
@[simp] theorem RegFile_addFlags_gpr (f : RegFile) (a b : Word) : (f.addFlags a b).gpr = f.gpr := rfl
@[simp] theorem RegFile_addFlags_pc (f : RegFile) (a b : Word) : (f.addFlags a b).pc = f.pc := rfl
@[simp] theorem RegFile_addFlags_m (f : RegFile) (a b : Word) : (f.addFlags a b).m = f.m := rfl
@[simp] theorem RegFile_addFlags_x (f : RegFile) (a b : Word) : (f.addFlags a b).x = f.x := rfl
@[simp] theorem RegFile_addFlags_i (f : RegFile) (a b : Word) : (f.addFlags a b).i = f.i := rfl
@[simp] theorem RegFile_addFlags_ps (f : RegFile) (a b : Word) : (f.addFlags a b).ps = f.ps := rfl
@[simp] theorem RegFile_addFlags_reg (f : RegFile) (a b : Word) (j : Nat) :
    (f.addFlags a b).reg j = f.reg j := rfl

@[simp] theorem RegFile_setReg_readFlag (f : RegFile) (k : Nat) (w : Word) (a : Flag) :
    (f.setReg k w).readFlag a = f.readFlag a := by cases a <;> rfl

@[simp] theorem RegFile_setPc_readFlag (f : RegFile) (w : Word) (a : Flag) :
    (f.setPc w).readFlag a = f.readFlag a := by cases a <;> rfl

end Sys2Proof.Machine
end

