-- ==== Sys2Proof/Laws/Threads.lean ====
section
/-! SUPPORT. The laws of the thread table: reading a record after a write, what a switch leaves, what the scheduler
chooses (R132), and what a signal check can do (R140). -/

namespace Sys2Proof.Machine

/-! ## Records -/

@[simp] theorem thread_setThread_self (s : State) {k : Nat} (t : Thread) (h : k < s.threads.length) :
    (s.setThread k t).thread k = t := by simp [State.thread, h]

@[simp] theorem thread_setThread_other (s : State) {j k : Nat} (t : Thread) (h : j ≠ k) :
    (s.setThread k t).thread j = s.thread j := by
  simp [State.thread, List.getD_eq_getElem?_getD, Ne.symm h]

@[simp] theorem current_setCurrent (s : State) (t : Thread) (h : s.cur < s.threads.length) :
    (s.setCurrent t).current = t := by
  simp only [State.current, State.setCurrent, State_setThread_cur]
  exact thread_setThread_self s t h

@[simp] theorem setLive_thread (s : State) (f : RegFile) (k : Nat) : (s.setLive f).thread k = s.thread k := rfl
@[simp] theorem setLive_current (s : State) (f : RegFile) : (s.setLive f).current = s.current := rfl
@[simp] theorem setReg_thread (s : State) (j : Nat) (v : Word) (k : Nat) : (s.setReg j v).thread k = s.thread k := rfl
@[simp] theorem setPc_thread (s : State) (v : Word) (k : Nat) : (s.setPc v).thread k = s.thread k := rfl
@[simp] theorem setPc_current (s : State) (v : Word) : (s.setPc v).current = s.current := rfl
@[simp] theorem setReg_current (s : State) (j : Nat) (v : Word) : (s.setReg j v).current = s.current := rfl

/-- A thread index beyond the table is an empty slot, which is not live. -/
theorem thread_beyond (s : State) {k : Nat} (h : s.threads.length ≤ k) : s.thread k = Thread.empty := by
  simp [State.thread, h]

theorem thread_getElem (s : State) {k : Nat} (h : k < s.threads.length) : s.thread k = s.threads[k] := by
  simp [State.thread, h]

theorem empty_not_live : Thread.empty.live = false := rfl

theorem live_lt (s : State) {k : Nat} (h : (s.thread k).live = true) : k < s.threads.length := by
  by_contra hk
  rw [thread_beyond s (Nat.le_of_not_lt hk), empty_not_live] at h
  exact Bool.noConfusion h

/-! ## The scheduler -/

/-- What a choice from a list gives is in the list; a nonempty list gives something. -/
theorem pickFrom_mem {choose : List Nat → Nat} {l : List Nat} {k : Nat} (h : pickFrom choose l = some k) : k ∈ l := by
  match l, h with
  | [j], h => simp_all [pickFrom]
  | i :: j :: rest, h =>
    simp only [pickFrom, Option.some.injEq] at h
    have hlt : choose (i :: j :: rest) % (rest.length + 2) < (i :: j :: rest).length := by
      have := Nat.mod_lt (choose (i :: j :: rest)) (show 0 < rest.length + 2 by omega)
      simp only [List.length_cons]; omega
    rw [List.getD_eq_getElem _ _ hlt] at h
    exact h ▸ List.getElem_mem hlt

theorem pickFrom_isSome {choose : List Nat → Nat} {l : List Nat} (h : l ≠ []) : ∃ k, pickFrom choose l = some k := by
  match l, h with
  | [j], _ => exact ⟨j, rfl⟩
  | i :: j :: rest, _ => exact ⟨_, rfl⟩

theorem mem_rotation (s : State) {k : Nat} (h : k < s.threads.length) : k ∈ s.rotation := by
  simp only [State.rotation, List.mem_map, List.mem_range]
  have hpos : 0 < s.threads.length := Nat.lt_of_le_of_lt (Nat.zero_le k) h
  have hc := Nat.mod_lt (s.cur + 1) hpos
  by_cases hk : (s.cur + 1) % s.threads.length ≤ k
  · refine ⟨k - (s.cur + 1) % s.threads.length, by omega, ?_⟩
    rw [Nat.add_mod, Nat.mod_eq_of_lt (show k - (s.cur + 1) % s.threads.length < _ by omega),
      Nat.add_sub_cancel' hk, Nat.mod_eq_of_lt h]
  · refine ⟨k + s.threads.length - (s.cur + 1) % s.threads.length, by omega, ?_⟩
    rw [Nat.add_mod, Nat.mod_eq_of_lt (show k + s.threads.length - (s.cur + 1) % s.threads.length < _ by omega),
      show (s.cur + 1) % s.threads.length + (k + s.threads.length - (s.cur + 1) % s.threads.length) =
        k + s.threads.length by omega, Nat.add_mod_right, Nat.mod_eq_of_lt h]

/-- While some thread is live, the scheduler chooses a live one (R132). -/
theorem nextThread_live (s : State) (h : ∃ k, (s.thread k).live = true) : (s.thread s.nextThread).live = true := by
  obtain ⟨k, hk⟩ := h
  simp only [State.nextThread]
  split
  · rename_i j hj
    have := List.find?_some hj
    simp only [State.eligible, Bool.and_eq_true] at this
    exact this.1
  · have hmem : k ∈ s.rotation.filter (fun j => (s.thread j).live) :=
      List.mem_filter.2 ⟨mem_rotation s (live_lt s hk), hk⟩
    obtain ⟨j, hj⟩ := pickFrom_isSome (choose := Config.fallbackPick s.time) (List.ne_nil_of_mem hmem)
    rw [hj]
    exact (List.mem_filter.1 (pickFrom_mem hj)).2

/-- The signal check does nothing, or delivers one signal to a thread outside any handler (R140, R141, R146). -/
theorem checkSignals_cases (s : State) :
    checkSignals s = .ok s ∨
    ∃ k handler, s.current.context = none ∧ s.current.dispatch k = some handler ∧
      checkSignals s = deliverSignal k handler s := by
  simp only [checkSignals]
  split
  · exact .inl rfl
  · rename_i hc
    split
    · exact .inl rfl
    · rename_i k _
      split
      · rename_i handler hd
        exact .inr ⟨k, handler, by simpa using hc, hd, rfl⟩
      · exact .inl rfl

end Sys2Proof.Machine
end

