-- ==== Sys2Proof/Laws/Trap.lean ====
section
/-! SUPPORT. The laws of the trap layer: what reading and writing an operand of a call can do, and the rule by which a
property of the state is carried through every call (R128). -/

namespace Sys2Proof.Machine

/-! ## Ends of a call -/

/-- The state a call's result carries. -/
def TrapResult.state : TrapResult → State
  | .ret _ s => s
  | .block _ s => s
  | .resumed s => s
  | .exited s => s

/-- The state an outcome ends in, whether the run goes on or halts, has the property. -/
def EndsIn {α : Type} (P : State → Prop) (state : α → State) : Except Stop α → Prop
  | .ok a => P (state a)
  | .error (.halt _ s) => P s
  | .error (.fault _) => True
  | .error (.refuse _) => True

theorem EndsIn.bind {α β : Type} {P Q : State → Prop} {f : α → State} {g : β → State} {x : Except Stop α}
    {k : α → Except Stop β} (hx : EndsIn Q f x) (he : ∀ s, Q s → P s) (hk : ∀ a, x = .ok a → EndsIn P g (k a)) :
    EndsIn P g (x >>= k) := by
  match x, hx, hk with
  | .ok a, _, hk => exact hk a rfl
  | .error (.halt _ _), hx, _ => exact he _ hx
  | .error (.fault _), _, _ => trivial
  | .error (.refuse _), _, _ => trivial

/-- Everything a 32-bit read can do (R38, R43). -/
theorem readWord_cases (a : Word) (s : State) :
    (s.firstFault .read 4 a = none ∧ readWord a s = .ok (BitVec.ofNat 32 (assemble s.params.endian (s.bytesAt 4 a)))) ∨
    (∃ bad, s.firstFault .read 4 a = some bad ∧ readWord a s = .error (.halt (.addressFault bad) s)) := by
  rcases readMem_cases .read a 4 s with ⟨h, e⟩ | ⟨bad, h, e⟩
  · exact .inl ⟨h, by simp [readWord, e]⟩
  · exact .inr ⟨bad, h, by simp [readWord, e]⟩

/-- Reading an operand gives its value, or ends the run with the state as it was. -/
theorem readSrc_cases (src : Src) (s : State) :
    (∃ v, readSrc src s = .ok v) ∨ ∃ bad, readSrc src s = .error (.halt (.addressFault bad) s) := by
  cases src with
  | arg k => exact .inl ⟨_, rfl⟩
  | const v => exact .inl ⟨_, rfl⟩
  | mem k off =>
    rcases readWord_cases (s.argument k + off) s with ⟨-, h⟩ | ⟨bad, -, h⟩
    · exact .inl ⟨_, h⟩
    · exact .inr ⟨bad, h⟩

theorem checkRoles_endsIn {β : Type} {P : State → Prop} {g : β → State} (q : Params) (ks : List Nat)
    {k : Unit → Except Stop β} (hk : EndsIn P g (k ())) : EndsIn P g (checkRoles q ks >>= k) := by
  rcases checkRoles_cases q ks with h | ⟨_, h⟩ <;> rw [h]
  · exact hk
  · trivial

theorem readGpr_endsIn {β : Type} {s : State} {P : State → Prop} {g : β → State} (i : Nat) {k : Word → Except Stop β}
    (hk : ∀ v, EndsIn P g (k v)) : EndsIn P g (readGpr i s >>= k) := by
  rcases readGpr_cases i s with ⟨_, h⟩ | ⟨_, h⟩ <;> rw [h]
  · exact hk _
  · trivial

theorem writeGpr_endsIn {β : Type} {s : State} {P : State → Prop} {g : β → State} (i : Nat) (v : Word)
    {k : State → Except Stop β} (hk : ∀ f, EndsIn P g (k (s.setLive f))) : EndsIn P g (writeGpr i v s >>= k) := by
  rcases writeGpr_cases i v s with ⟨_, h⟩ | ⟨_, h⟩ <;> rw [h]
  · exact hk _
  · trivial

theorem readWord_endsIn {β : Type} {s : State} {P : State → Prop} {g : β → State} (a : Word) {k : Word → Except Stop β}
    (hs : P s) (hk : ∀ v, EndsIn P g (k v)) : EndsIn P g (readWord a s >>= k) := by
  rcases readWord_cases a s with ⟨-, h⟩ | ⟨_, -, h⟩ <;> rw [h]
  · exact hk _
  · exact hs

theorem readSrc_endsIn {β : Type} {P : State → Prop} {g : β → State} (src : Src) (s : State)
    {k : Word → Except Stop β} (hs : P s) (hk : ∀ v, EndsIn P g (k v)) : EndsIn P g (readSrc src s >>= k) := by
  rcases readSrc_cases src s with ⟨v, h⟩ | ⟨bad, h⟩ <;> rw [h]
  · exact hk v
  · exact hs

/-! ## A property of memory and the page list carried through every call -/

/-- What a property of the state must stand to hold after every call: changes of the Register File, the threads, the
script and the diagnostics; stores; and the calls on mappings. -/
structure Carried (P : State → Prop) : Prop where
  other : ∀ s t : State, t.mem = s.mem → t.pages = s.pages → t.regions = s.regions → t.launch = s.launch → P s → P t
  stores : ∀ (s : State) a bs, P s → P { s with mem := Memory.storeBytes a bs s.mem }
  maps : ∀ (s : State) perm addrs, addrs.Nodup → (∀ p ∈ addrs, p ∉ s.pages) → P s → P (s.mapPages perm addrs)
  unmaps : ∀ (s : State) addrs, P s → P (s.unmapPages addrs)
  guards : ∀ (s : State) a, P s → P { s with pages := s.pages.erase a, regions := guardRegion a s.regions }

theorem pageAddrs_mem {q : Params} {n : Nat} {base p : Word} (h : p ∈ pageAddrs q n base) :
    ∃ k, k < n ∧ p = base + BitVec.ofNat 32 (k * q.pageSize) := by
  induction n generalizing base with
  | zero => simp [pageAddrs] at h
  | succ n ih =>
    simp only [pageAddrs, List.mem_cons] at h
    rcases h with rfl | h
    · exact ⟨0, by omega, by simp⟩
    · obtain ⟨k, hk, rfl⟩ := ih h
      exact ⟨k + 1, by omega, by rw [Nat.succ_mul, Nat.add_comm, BitVec.ofNat_add, BitVec.add_assoc]⟩

/-- The pages of a request that stays below the top of the address space are distinct. -/
theorem pageAddrs_nodup {q : Params} (hq : 0 < q.pageSize) {n : Nat} {base : Word}
    (h : base.toNat + n * q.pageSize ≤ 2 ^ 32) : (pageAddrs q n base).Nodup := by
  induction n generalizing base with
  | zero => simp [pageAddrs]
  | succ n ih =>
    rw [Nat.succ_mul] at h
    simp only [pageAddrs, List.nodup_cons]
    constructor
    · intro hm
      obtain ⟨k, hk, e⟩ := pageAddrs_mem hm
      have e := congrArg BitVec.toNat e
      have : k * q.pageSize ≤ n * q.pageSize - q.pageSize := by
        rw [← Nat.sub_one_mul]; exact Nat.mul_le_mul_right _ (by omega)
      have : q.pageSize ≤ n * q.pageSize := Nat.le_mul_of_pos_left _ (by omega)
      have := base.isLt
      rw [BitVec.add_assoc, ← BitVec.ofNat_add, BitVec.toNat_add, BitVec.toNat_ofNat,
        Nat.mod_eq_of_lt (a := q.pageSize + k * q.pageSize) (by omega), Nat.mod_eq_of_lt (by omega)] at e
      omega
    · cases n with
      | zero => simp [pageAddrs]
      | succ n =>
        apply ih
        have : q.pageSize ≤ (n + 1) * q.pageSize := Nat.le_mul_of_pos_left _ (by omega)
        rw [BitVec.toNat_add, BitVec.toNat_ofNat, Nat.mod_eq_of_lt (a := q.pageSize) (by omega),
          Nat.mod_eq_of_lt (by omega)]
        omega

/-- A request that names a listed page overlaps the list (R47). -/
theorem overlapsMapped_of_mem {s : State} (hq : 0 < s.params.pageSize) {addrs : List Word} {p : Word} (hp : p ∈ addrs)
    (hm : p ∈ s.pages) : s.overlapsMapped addrs = true := by
  simp only [State.overlapsMapped, List.any_eq_true]
  exact ⟨p, hp, p, hm, by simp only [pagesOverlap, Bool.and_eq_true, decide_eq_true_eq]; omega⟩

namespace Carried
variable {P : State → Prop} (hP : Carried P)
include hP

theorem write (a : Word) (bs : List Byte) {s : State} (h : P s) : EndsIn P id (writeMem a bs s) := by
  rcases writeMem_cases a bs s with ⟨-, e⟩ | ⟨_, -, e⟩ <;> rw [e]
  · exact hP.stores s a bs h
  · exact h

theorem writes (l : List (Word × List Byte)) {s : State} (h : P s) : EndsIn P id (writeAll l s) := by
  induction l generalizing s with
  | nil => exact h
  | cons c rest ih =>
    obtain ⟨a, bs⟩ := c
    exact (hP.write a bs h).bind (fun _ => id) fun t e => ih (by have := hP.write a bs h; rw [e] at this; exact this)

theorem policy (cause : UnsupportedCause) {s : State} (h : P s) : EndsIn P TrapResult.state (unsupported cause s) := by
  have : P { s with diagnostics := (⟨cause, s.sysnr, s.arguments⟩ : Diagnostic) :: s.diagnostics } :=
    hP.other s _ rfl rfl rfl rfl h
  simp only [unsupported]
  split <;> first | exact h | exact this

theorem reply (r : HostReply) {s : State} (h : P s) : EndsIn P TrapResult.state (applyReply r s) := by
  cases r with
  | ret v l =>
    exact (hP.writes l h).bind (fun _ => id) fun t e => by
      have := hP.writes l h; rw [e] at this; exact this
  | error n => exact h
  | blockPipe fds => exact hP.other s _ rfl rfl rfl rfl h
  | blockPoll => exact h
  | unsupported => exact hP.policy _ h
  | protocolViolation => exact hP.policy _ h
  | exhausted => exact h

theorem host {s : State} (h : P s) : EndsIn P TrapResult.state (hostCall s) := by
  refine hP.reply _ (hP.other s _ ?_ ?_ ?_ ?_ h) <;> simp only [State.nextReply] <;> split <;> rfl

theorem timeout (src : Src) {s : State} (h : P s) : EndsIn P id (decreaseTimeout src s) := by
  simp only [decreaseTimeout]
  split
  · exact h
  · refine readSrc_endsIn src s h fun v => ?_
    cases src with
    | arg k => exact hP.other s _ rfl rfl rfl rfl h
    | const v => exact h
    | mem k off => exact hP.write _ _ h

theorem suspends (mask : SigSet) (t : Option Src) {s : State} (h : P s) :
    EndsIn P TrapResult.state (suspendCall mask t s) := by
  have tail : ∀ u : State, P u → EndsIn P TrapResult.state (do
      match ← hostCall (u.suspend mask) with
      | .ret v s => pure (.ret v s.unsuspend)
      | r => pure r) := by
    intro u hu
    have hs : P (u.suspend mask) := by
      simp only [State.suspend]; split
      · exact hu
      · exact hP.other u _ rfl rfl rfl rfl hu
    refine (hP.host hs).bind (fun _ => id) fun r e => ?_
    have hr := hP.host hs
    rw [e] at hr
    cases r with
    | ret v w =>
      show P w.unsuspend
      simp only [State.unsuspend]; split
      · exact hP.other w _ rfl rfl rfl rfl hr
      · exact hr
    | block _ _ => exact hr
    | resumed _ => exact hr
    | exited _ => exact hr
  cases t with
  | none => exact tail s h
  | some src =>
    exact (hP.timeout src h).bind (fun _ => id) fun u e => tail u (by have := hP.timeout src h; rw [e] at this; exact this)

/-- A property that stands those changes holds after every call, whether the run goes on or halts. -/
theorem call (next : Word) {s : State} (h : P s) : EndsIn P TrapResult.state (handleTrap next s) := by
  simp only [handleTrap]
  split
  case h_2 => exact hP.policy _ h
  case h_1 call _ =>
  cases call with
  | forward => exact hP.host h
  | poll src =>
    exact (hP.timeout src h).bind (fun _ => id) fun u e =>
      hP.host (by have := hP.timeout src h; rw [e] at this; exact this)
  | clone newSp exitSignal =>
    refine readSrc_endsIn _ s h fun sp => readSrc_endsIn _ s h fun sg => ?_
    simp only [cloneCall]
    split
    · rename_i u hu
      refine checkRoles_endsIn _ _ (hP.other s u ?_ ?_ ?_ ?_ h) <;> simp only [State.placeThread] at hu <;>
        (repeat' split at hu) <;> cases hu <;> rfl
    · exact h
  | exit code =>
    refine readSrc_endsIn _ s h fun c => ?_
    simp only [exitCall]
    split <;> exact hP.other s _ rfl rfl rfl rfl h
  | wait target flags buf accepted =>
    refine readSrc_endsIn _ s h fun a => readSrc_endsIn _ s h fun b => readSrc_endsIn _ s h fun c => ?_
    simp only [waitCall]
    split
    · split
      · exact h
      · rename_i k _
        split
        · exact hP.other s _ rfl rfl rfl rfl h
        · refine (hP.write c _ h).bind (fun _ => id) fun u e => ?_
          have := hP.write c (wordBytes s.params.endian (s.thread k).exitValue) h
          rw [e] at this
          exact hP.other u _ rfl rfl rfl rfl this
    · exact hP.policy _ h
  | mmapAnon hint len perm =>
    refine readSrc_endsIn _ s h fun a => readSrc_endsIn _ s h fun b => ?_
    exact mapping a b perm [] h
  | mmapFile hint len perm =>
    refine readSrc_endsIn _ s h fun a => readSrc_endsIn _ s h fun b => ?_
    exact mapping a b perm _ h
  | munmap addr len =>
    refine readSrc_endsIn _ s h fun a => readSrc_endsIn _ s h fun b => ?_
    simp only [unmapCall]
    split
    · exact hP.policy _ h
    · exact hP.unmaps s _ h
  | mprotect addr len prot noneVal =>
    refine readSrc_endsIn _ s h fun a => readSrc_endsIn _ s h fun b => readSrc_endsIn _ s h fun c => ?_
    simp only [protectCall]
    split
    · exact hP.guards s a h
    · exact hP.policy _ h
  | sigRegister sig handler dflVal ignVal =>
    refine readSrc_endsIn _ s h fun a => readSrc_endsIn _ s h fun b => ?_
    simp only [registerCall]
    split
    · exact hP.policy _ h
    · exact hP.other s _ rfl rfl rfl rfl h
  | sigMask how lo hi blockVal unblockVal setVal =>
    refine readSrc_endsIn _ s h fun a => readSrc_endsIn _ s h fun b => readSrc_endsIn _ s h fun c => ?_
    simp only [maskCall]
    split
    · exact hP.other s _ rfl rfl rfl rfl h
    · split
      · exact hP.other s _ rfl rfl rfl rfl h
      · split
        · exact hP.other s _ rfl rfl rfl rfl h
        · exact hP.policy _ h
  | sigSend target sig =>
    refine readSrc_endsIn _ s h fun a => readSrc_endsIn _ s h fun b => ?_
    simp only [sendCall]
    split
    · exact h
    · split
      · exact hP.other s _ rfl rfl rfl rfl h
      · exact hP.policy _ h
  | sigSuspend lo hi t =>
    refine readSrc_endsIn _ s h fun a => readSrc_endsIn _ s h fun b => ?_
    exact hP.suspends _ t h
  | sigReturn =>
    show EndsIn P TrapResult.state (returnFromHandler s)
    simp only [returnFromHandler]
    split
    · exact hP.policy _ h
    · rename_i ctx _
      have restored : EndsIn P (fun _ => s) (restoredMask ctx s) := by
        simp only [restoredMask]
        split
        · exact h
        · have words : ∀ a, EndsIn P (fun _ => s) (do
              let lo ← readWord a s
              let hi ← readWord (a + 4) s
              pure (hi ++ lo : SigSet)) := fun a => readWord_endsIn a h fun lo => readWord_endsIn _ h fun hi => h
          simp only [State.savedMaskAddr]
          split
          · exact words ctx.base
          · exact readGpr_endsIn _ words
      exact restored.bind (fun _ => id) fun mask _ => hP.other s _ rfl rfl rfl rfl h
where
  mapping (hint len : Word) (perm : Perm) (fill : List Byte) {s : State} (h : P s) :
      EndsIn P TrapResult.state (mapCall hint len perm fill s) := by
    simp only [mapCall]
    split
    · exact hP.policy _ h
    · rename_i h0
      split
      · exact h
      · rename_i ho
        split
        · exact hP.policy _ h
        · rename_i hn
          have hq : 0 < s.params.pageSize := by
            refine Nat.pos_of_ne_zero fun e => h0 ?_
            rw [pageCount, e, Nat.div_zero]
          refine hP.stores _ _ _ (hP.maps s perm _ (pageAddrs_nodup hq ?_) ?_ h)
          · simp [State.oversized] at ho
            exact ho.2
          · exact fun p hp hm => hn (overlapsMapped_of_mem hq hp hm)

end Carried

end Sys2Proof.Machine
end

