-- ==== Sys2Proof/Laws/Step.lean ====
section
/-! SUPPORT. Everything a step can do: an instruction without attribute `trap` changes the live file and the end of the
run alone (R108), a free effect the bytes of memory too (R110); a trap is the call, the outcome's marks, the clock and the return point (R107, R146); and a property
that every call carries is carried by every step. -/

namespace Sys2Proof.Machine

/-! ## Outcomes -/

/-- Everything an outcome that is a next state can come from. -/
theorem outcome_next {x : Except Stop State} {t : State} (h : outcome x = .next t) :
    x = .ok t ∨ ∃ r s, x = .error (.halt r s) ∧ t = { s with halted := some r } := by
  match x, h with
  | .ok s, h => exact .inl (by simp only [outcome, Host.Outcome.next.injEq] at h; rw [h])
  | .error (.halt r s), h => exact .inr ⟨r, s, rfl, by simp only [outcome, Host.Outcome.next.injEq] at h; exact h.symm⟩

/-! ## The instructions -/

/-- The state is `s` with another live file and another end of the run. -/
def State.onlyFile (s t : State) : Prop := ∃ f h, t = { s.setLive f with halted := h }

/-- Everything the execution of an instruction is (R107 to R109): a refusal, the end of the run with the rest of the state
as it was, or a change of the live file and then the end of the step. -/
theorem exec_cases (i : Instr) (s : State) :
    (∃ r, exec i s = .refused r) ∨ (∃ r, exec i s = .next { s with halted := some r }) ∨
      ∃ f br, exec i s = outcome (finish s.live.pc i.opcode br (s.setLive f)) := by
  cases i with
  | bccS c target | bccW c target =>
    simp only [exec, execBccS, execBccW, branchTarget, condHolds]
    split
    · exact .inr (.inr ⟨s.live, _, rfl⟩)
    · split
      · exact .inr (.inr ⟨s.live, _, rfl⟩)
      · split
        · exact .inr (.inr ⟨s.live, _, rfl⟩)
        · exact .inl ⟨_, rfl⟩
  | addq rd imm =>
    rcases readGpr_cases rd s with ⟨h, e⟩ | ⟨r, e⟩
    · have h' : (add32 (s.live.reg rd) imm s).2.hasReg rd := h
      refine .inr (.inr ⟨(s.live.addFlags (s.live.reg rd) imm).setReg rd (s.live.reg rd + imm), none, ?_⟩)
      simp only [exec, execAddq, e]
      show outcome (writeGpr rd _ _ >>= _) = _
      rw [writeGpr_ok _ h']; rfl
    · exact .inl ⟨r, by simp only [exec, execAddq, e]; rfl⟩
  | moveq rd imm =>
    rcases writeGpr_cases rd imm s with ⟨h, e⟩ | ⟨r, e⟩
    · exact .inr (.inr ⟨s.live.setReg rd imm, none, by simp only [exec, execMoveq, e]; rfl⟩)
    · exact .inl ⟨r, by simp only [exec, execMoveq, e]; rfl⟩
  | addR rd rs =>
    rcases readGpr_cases rd s with ⟨h, e⟩ | ⟨r, e⟩
    · rcases readGpr_cases rs s with ⟨-, e'⟩ | ⟨r, e'⟩
      · have h' : (add32 (s.live.reg rd) (s.live.reg rs) s).2.hasReg rd := h
        refine .inr (.inr ⟨(s.live.addFlags (s.live.reg rd) (s.live.reg rs)).setReg rd
          (s.live.reg rd + s.live.reg rs), none, ?_⟩)
        simp only [exec, execAddR, e, e']
        show outcome (writeGpr rd _ _ >>= _) = _
        rw [writeGpr_ok _ h']; rfl
      · exact .inl ⟨r, by simp only [exec, execAddR, e, e']; rfl⟩
    · exact .inl ⟨r, by simp only [exec, execAddR, e]; rfl⟩
  | loadD am rd rs =>
    simp only [exec, execLoadD, loadOperand]
    rcases readGpr_cases rs s with ⟨hs, e⟩ | ⟨r, e⟩ <;> rw [e]
    · show _ ∨ _ ∨ _
      simp only [bind, Except.bind]
      rcases readWord_cases (s.live.reg rs) s with ⟨-, e'⟩ | ⟨bad, -, e'⟩ <;> rw [e']
      · cases am with
        | false =>
          simp only [Bool.false_eq_true, if_false, pure, Except.pure]
          rcases writeGpr_cases rd _ s with ⟨-, e''⟩ | ⟨r, e''⟩ <;> rw [e'']
          · exact .inr (.inr ⟨s.live.setReg rd _, none, rfl⟩)
          · exact .inl ⟨r, rfl⟩
        | true =>
          simp only [if_true]
          rw [writeGpr_ok _ hs]
          simp only [pure, Except.pure]
          rcases writeGpr_cases rd _ (s.setReg rs (s.live.reg rs + 4)) with ⟨-, e''⟩ | ⟨r, e''⟩ <;> rw [e'']
          · exact .inr (.inr ⟨(s.live.setReg rs (s.live.reg rs + 4)).setReg rd _, none, rfl⟩)
          · exact .inl ⟨r, rfl⟩
      · exact .inr (.inl ⟨_, rfl⟩)
    · exact .inl ⟨r, rfl⟩
  | trap => exact .inr (.inr ⟨s.live, none, rfl⟩)
  | moveSprImmP7 imm => exact .inl ⟨_, rfl⟩
  | moveSprImmP11 imm => exact .inl ⟨_, rfl⟩
  | moveSprImm ps imm => exact .inl ⟨_, rfl⟩
  | moveSprReg ps rs => exact .inl ⟨_, rfl⟩

/-- The end of a step of an opcode without attribute `trap` writes `pc` alone (R107). -/
theorem finish_plain {s : State} {op : OpcodeId} (h : s.traps op = false) (p : Word) (br : Option Word) :
    finish p op br s = .ok (s.setPc (br.getD (s.after p op))) := by simp only [finish, h]; rfl

/-- The end of a step of an opcode with attribute `trap` is the trap (R107). -/
theorem finish_traps {s : State} {op : OpcodeId} (h : s.traps op = true) (p : Word) (br : Option Word) :
    finish p op br s = trapStep (s.after p op) (s.setPc p) := by simp only [finish, h]; rfl

/-- An instruction whose opcode has no attribute `trap` changes the live file and the end of the run alone (R108, R110). -/
theorem exec_onlyFile {i : Instr} {s t : State} (hi : s.traps i.opcode = false) (h : exec i s = .next t) :
    s.onlyFile t := by
  rcases exec_cases i s with ⟨r, e⟩ | ⟨r, e⟩ | ⟨f, br, e⟩ <;> rw [e] at h
  · cases h
  · cases h; exact ⟨s.live, some r, rfl⟩
  · rw [finish_plain (s := s.setLive f) hi] at h
    cases h; exact ⟨_, s.halted, rfl⟩

/-! ## The trap and the step -/

/-- Everything a switch can be: nothing, or one that changes the live file, the records and the current index. -/
theorem switchTo_same (s : State) (k : Nat) :
    (s.switchTo k).mem = s.mem ∧ (s.switchTo k).regions = s.regions ∧ (s.switchTo k).attachCount = s.attachCount ∧
      (s.switchTo k).pages = s.pages ∧ (s.switchTo k).time = s.time ∧ (s.switchTo k).launch = s.launch ∧
      (s.switchTo k).replies = s.replies ∧ (s.switchTo k).diagnostics = s.diagnostics ∧
      (s.switchTo k).halted = s.halted := by
  simp only [State.switchTo, State.unpark]
  (repeat' split) <;> exact ⟨rfl, rfl, rfl, rfl, rfl, rfl, rfl, rfl, rfl⟩

/-- What the return point leaves of the memory map, the clock and the launch (R132, R140). -/
theorem trapNext_same (next : Word) (r : TrapResult) :
    (trapNext next r).mem = r.state.mem ∧ (trapNext next r).regions = r.state.regions ∧ (trapNext next r).pages = r.state.pages ∧
      (trapNext next r).time = r.state.time ∧ (trapNext next r).launch = r.state.launch ∧ (trapNext next r).cur = r.state.cur ∧
      (trapNext next r).threads.length = r.state.threads.length := by
  cases r with
  | ret v s => exact ⟨rfl, rfl, rfl, rfl, rfl, rfl, by simp [trapNext, TrapResult.state]⟩
  | block w s => exact ⟨rfl, rfl, rfl, rfl, rfl, rfl, by simp [trapNext, TrapResult.state]⟩
  | resumed s => exact ⟨rfl, rfl, rfl, rfl, rfl, rfl, rfl⟩
  | exited s => exact ⟨rfl, rfl, rfl, rfl, rfl, rfl, rfl⟩

/-- Everything decoding can stop on: the odd `pc`, or the end of the run with the state as it was (R89). -/
theorem fetchDecode_cases (s : State) :
    (∃ d, fetchDecode s = .ok d) ∨ fetchDecode s = .error (.fault (.misalignedFetch s.live.pc)) ∨
      ∃ bad, fetchDecode s = .error (.halt (.addressFault bad) s) := by
  simp only [fetchDecode]
  split
  · exact .inl ⟨_, rfl⟩
  split
  · exact .inr (.inl rfl)
  · rcases readMem_cases .execute s.live.pc 2 s with ⟨-, e⟩ | ⟨bad, -, e⟩ <;> rw [e]
    · simp only [bind, Except.bind]
      split
      · exact .inl ⟨_, rfl⟩
      · rename_i r _
        rcases readMem_cases .execute (s.live.pc + 2) r.extLen s with ⟨-, e⟩ | ⟨bad, -, e⟩ <;> rw [e]
        · exact .inl ⟨_, rfl⟩
        · exact .inr (.inr ⟨bad, rfl⟩)
    · exact .inr (.inr ⟨bad, rfl⟩)

/-- Everything a step that gives a next state is: the end of the run with the rest of the state as it was, or the
execution of the decoded instruction, by the REF semantics or by the free effect (R107, R110). -/
theorem step_cases {s t : State} (h : step s = .next t) :
    (∃ r, t = { s with halted := some r }) ∨
    ∃ d, fetchDecode s = .ok (.instr d) ∧ ((∃ i, s.refInstr d = some i ∧ exec i s = .next t) ∨
      (s.refInstr d = none ∧ execOpen d s = .next t)) := by
  simp only [step] at h
  split at h
  · cases h
  · rcases fetchDecode_cases s with ⟨d, e⟩ | e | ⟨bad, e⟩ <;> rw [e] at h
    · cases d with
      | instr d =>
        simp only [execDecoded] at h
        split at h
        · cases h; exact .inl ⟨_, rfl⟩
        · split at h
          · cases h
          · split at h
            · rename_i i hi
              exact .inr ⟨d, e, .inl ⟨i, hi, h⟩⟩
            · rename_i hi
              exact .inr ⟨d, e, .inr ⟨hi, h⟩⟩
      | refused why => cases h
      | invalid why => cases h; exact .inl ⟨_, rfl⟩
    · cases h
    · cases h; exact .inl ⟨_, rfl⟩

/-! ## The free effect -/

/-- A property that stands writes of the live file and stores holds after a free effect (R110). -/
theorem run_endsIn {P : State → Prop} (live : ∀ s f, P s → P (s.setLive f))
    (stores : ∀ s a bs, P s → P { s with mem := Memory.storeBytes a bs s.mem }) (p : Word) (e : Effect) {s : State} (h : P s) :
    EndsIn P Prod.snd (e.run p s) := by
  induction e generalizing s with
  | done target => exact h
  | endRun status => exact h
  | readGpr i rest ih =>
    rcases readGpr_cases i s with ⟨-, e⟩ | ⟨_, e⟩ <;> simp only [Effect.run, e]
    · exact ih _ h
    · trivial
  | writeGpr i v rest ih =>
    rcases writeGpr_cases i v s with ⟨-, e⟩ | ⟨_, e⟩ <;> simp only [Effect.run, e]
    · exact ih (live s _ h)
    · trivial
  | readPc rest ih => exact ih _ h
  | writePc v rest ih => exact ih (live s _ h)
  | readFlag f rest ih =>
    simp only [Effect.run]
    split
    · exact ih _ h
    · trivial
  | writeFlag f b rest ih =>
    simp only [Effect.run]
    split
    · exact ih (live s _ h)
    · trivial
  | readFlags rest ih => exact ih _ h
  | writeFlags v rest ih => exact ih (live s _ h)
  | snapshot rest ih => exact ih _ h
  | restore f rest ih =>
    simp only [Effect.run]
    split
    · exact ih (live s _ h)
    · trivial
  | memRead a n rest ih =>
    rcases readMem_cases .read a n s with ⟨-, e⟩ | ⟨_, -, e⟩ <;> simp only [Effect.run, e]
    · exact ih _ h
    · exact h
  | memWrite a n v rest ih =>
    rcases writeMem_cases a (disassemble s.params.endian n v) s with ⟨-, e⟩ | ⟨_, -, e⟩ <;> simp only [Effect.run, e]
    · exact ih (stores s a _ h)
    · exact h

/-- What a free effect leaves of the state (R110): it writes the live file and bytes of memory, and may end the run. -/
theorem run_same (p : Word) (e : Effect) (s : State) :
    EndsIn (fun t => ∃ f mem, t = { s.setLive f with mem := mem }) Prod.snd (e.run p s) :=
  run_endsIn (fun t f => by rintro ⟨_, mem, rfl⟩; exact ⟨f, mem, rfl⟩)
    (fun t a bs => by rintro ⟨f, mem, rfl⟩; exact ⟨f, Memory.storeBytes a bs mem, rfl⟩) p e ⟨s.live, s.mem, rfl⟩

namespace Carried
variable {P : State → Prop} (hP : Carried P)
include hP

theorem delivery (sig : Nat) (handler : Word) {s : State} (h : P s) : EndsIn P id (deliverSignal sig handler s) := by
  have he := hP.other s (s.setCurrent (s.current.enterHandler s.snapshot s.trampolineBase)) rfl rfl rfl rfl h
  have hw := hP.write s.trampolineBase (trampoline s.current.blocked s.launch) he
  refine checkRoles_endsIn _ _ (hw.bind (fun _ => id) fun u e => ?_)
  rw [e] at hw
  exact checkRoles_endsIn _ _ (hP.other u _ rfl rfl rfl rfl hw)

theorem returnPoint {s : State} (h : P s) : EndsIn P id (syscallReturnPoint s) := by
  obtain ⟨h1, h2, -, h4, -, h6, -⟩ := switchTo_same s s.nextThread
  have hs := hP.other s _ h1 h4 h2 h6 h
  rw [syscallReturnPoint]
  rcases checkSignals_cases (s.switchTo s.nextThread) with e | ⟨k, handler, -, -, e⟩ <;> rw [e]
  · exact hs
  · exact hP.delivery k handler hs

/-- A property that stands the changes of a call holds after every trap. -/
theorem trap (next : Word) {s : State} (h : P s) : EndsIn P id (trapStep next s) := by
  refine checkRoles_endsIn _ _ ((hP.call next h).bind (fun _ => id) fun r e => checkRoles_endsIn _ _ (hP.returnPoint ?_))
  have hr := hP.call next h
  rw [e] at hr
  obtain ⟨h1, h2, h3, -, h5, -⟩ := trapNext_same next r
  exact hP.other r.state _ h1 h3 h2 h5 hr

/-- A property that stands the changes of a call holds at the end of every step. -/
theorem ends (p : Word) (op : OpcodeId) (br : Option Word) {s : State} (h : P s) : EndsIn P id (finish p op br s) := by
  cases ht : s.traps op with
  | true => rw [finish_traps ht]; exact hP.trap _ (hP.other s _ rfl rfl rfl rfl h)
  | false => rw [finish_plain ht]; exact hP.other s _ rfl rfl rfl rfl h

/-- A property that stands the changes of a call holds after every free effect. -/
theorem effect (p : Word) (e : Effect) {s : State} (h : P s) : EndsIn P Prod.snd (e.run p s) :=
  run_endsIn (fun s _ h => hP.other s _ rfl rfl rfl rfl h) (fun s a bs h => hP.stores s a bs h) p e h

/-- A property that stands the changes of a call holds after every step. -/
theorem step {s t : State} (h : P s) (hs : step s = .next t) : P t := by
  have done : ∀ {x : Except Stop State}, EndsIn P id x → outcome x = .next t → P t := by
    intro x hx e
    rcases outcome_next e with rfl | ⟨r, u, rfl, rfl⟩
    · exact hx
    · exact hP.other u _ rfl rfl rfl rfl hx
  rcases step_cases hs with ⟨r, rfl⟩ | ⟨d, -, ⟨i, -, e⟩ | ⟨-, e⟩⟩
  · exact hP.other s _ rfl rfl rfl rfl h
  · rcases exec_cases i s with ⟨r, e'⟩ | ⟨r, e'⟩ | ⟨f, br, e'⟩ <;> rw [e'] at e
    · cases e
    · cases e; exact hP.other s _ rfl rfl rfl rfl h
    · have hf : P (s.setLive f) := hP.other s _ rfl rfl rfl rfl h
      exact done (hP.ends _ _ br hf) e
  · refine done ((hP.effect _ _ h).bind (fun _ => id) fun a ea => hP.ends _ _ _ ?_) e
    have := hP.effect s.live.pc (Config.exec (itable s.params d.opcode) d.operands s.live.pc
      (itable s.params d.opcode).byteLength) h
    rw [ea] at this
    exact this

end Carried

end Sys2Proof.Machine
end

