-- ==== Sys2Proof/Tests/Slice0.lean ====
section
/-! SUPPORT. The model's own tests. Expected results come from the vectors of 95_test_vectors.md and from the rules named
beside each; a witness theorem shows that a statement's hypotheses can be met together. -/

namespace Sys2Proof.Tests
open Sys2Proof Sys2Proof.Machine

/-! ## Small states -/

/-- The next state of an outcome. -/
def next? : Host.Outcome State Fault Refusal → Option State
  | .next s => some s
  | .fault _ => none
  | .refused _ => none

/-- A Register File with some registers set. -/
def fileOf (pc : Word) (regs : List (Nat × Word)) : RegFile :=
  regs.foldl (fun f p => f.setReg p.1 p.2) { RegFile.reset with pc := pc }

/-- A launch whose call table has one row, for number 20. -/
def launchWith (call : Syscall) : Launch := { launchAtReset with syscalls := [⟨20, call⟩], mmapDefaultBase := 0x40000000 }

/-- One thread of id 1 at `pc`, with its code there and some data at `0x2000`, both attached. -/
def small (pc : Word) (regs : List (Nat × Word)) (code data : List Byte) (launch : Launch := launchAtReset)
    (replies : List HostReply := []) : State :=
  State.start (fileOf pc regs) 1 (Memory.storeBytes 0x2000 data (Memory.storeBytes pc code []))
    [⟨pc, code.length, ⟨true, false, true⟩, 0⟩, ⟨0x2000, 0x1000, ⟨true, true, false⟩, 1⟩] launch replies

/-- One thread at the trap of Program 3, its call number 20. -/
def atTrap (call : Syscall) (regs : List (Nat × Word)) (replies : List HostReply := []) : State :=
  small 0x1004 ((9, 20) :: regs) [0x00, 0x60] [] (launchWith call) replies

/-- Three running threads, the first current, each other with a parked file. -/
def three : State :=
  { small 0x1004 [(9, 20)] [0x00, 0x60] [] (launchWith .forward) [.ret 42 []] with
    threads := [Thread.initial 1, { Thread.initial 2 with parked := some (fileOf 0x1100 []) },
      { Thread.initial 3 with parked := some (fileOf 0x1200 []) }] }

/-- A thread outside any handler with signal 5 pending, unblocked and registered, its stack pointer at `0x2100`. -/
def signalled : State :=
  let s := small 0x1006 [(14, 0x2100), (10, 42)] [0x81, 0x22] [] { launchAtReset with trampolineSeq := [0x54, 0x26] }
  { s with threads := [{ Thread.initial 1 with
      handlers := Thread.empty.handlers.set 5 (.address 0x1800)
      pending := 0x20
      blocked := 0xC0 }] }

/-- The same thread after the delivery. -/
def delivered : State :=
  match deliverSignal 5 0x1800 signalled with
  | .ok t => t
  | .error _ => signalled

/-- REF with the other byte order. -/
def bigRef : Params := { Params.ref with endian := .big }

/-- REF with another table. -/
def refWith (table : List DecodeRule) : Params := { Params.ref with table := table }

/-- A rule REF has not: a branch whose displacement is a 32-bit extension. -/
def longBranch : DecodeRule := 
  ⟨0xFF0F, 0x5100, 4, none, .other 1, .other 0, [.branch, .pcrel, .ext], bccFields (.index 4 4) (.pcrel .ext 0 .w32)⟩

/-! ## Well-formedness: an ill-formed term for each check -/

theorem test_wf_bccS_target_out_of_reach : (Instr.bccS 0 0x1080).wellFormed Params.ref 0x1000 false = false := by decide
theorem test_wf_bccS_target_in_reach : (Instr.bccS 0 0x107F).wellFormed Params.ref 0x1000 false = true := by decide
theorem test_wf_bccS_legacy_reach : (Instr.bccS 0 0x1081).wellFormed Params.ref 0x1000 true = true := by decide
theorem test_wf_addq_immediate_too_wide : (Instr.addq 3 64).wellFormed Params.ref 0x1000 false = false := by decide
theorem test_wf_moveq_immediate_too_wide : (Instr.moveq 3 32).wellFormed Params.ref 0x1000 false = false := by decide
theorem test_wf_moveq_negative_immediate : (Instr.moveq 3 0xFFFFFFE0).wellFormed Params.ref 0x1000 false = true := by decide
theorem test_wf_bccW_target_out_of_reach : (Instr.bccW 0 0x9000).wellFormed Params.ref 0x1000 false = false := by decide
theorem test_wf_specific_path_7_extension : (Instr.moveSprImmP7 0x10000).wellFormed Params.ref 0x1000 false = false := by decide
theorem test_wf_specific_path_11_extension : (Instr.moveSprImmP11 0x10000).wellFormed Params.ref 0x1000 false = false := by decide
theorem test_wf_generic_path_7 : (Instr.moveSprImm 7 0).wellFormed Params.ref 0x1000 false = false := by decide
theorem test_wf_generic_path_11 : (Instr.moveSprImm 11 0).wellFormed Params.ref 0x1000 false = false := by decide
theorem test_wf_register_form_15 : (Instr.moveSprReg 7 15).wellFormed Params.ref 0x1000 false = false := by decide

/-! ## Decoding: words written out from R71 to R78 (vectors of section 2.1 and 2.2) -/

theorem test_decode_addq : decodeInstr Params.ref 0x1000 false [0xC5, 0x20] = some ((.addq 3 5), []) := by decide
theorem test_decode_moveq : decodeInstr Params.ref 0x1000 false [0x43, 0x24] = some ((.moveq 1 3), []) := by decide
theorem test_decode_moveq_negative : decodeInstr Params.ref 0x1000 false [0xBF, 0x24] = some ((.moveq 2 0xFFFFFFFF), []) := by
  decide
theorem test_decode_addR : decodeInstr Params.ref 0x1000 false [0x12, 0x30] = some ((.addR 1 2), []) := by decide
theorem test_decode_loadD_plain : decodeInstr Params.ref 0x1000 false [0x64, 0x40] = some ((.loadD false 6 4), []) := by decide
theorem test_decode_loadD_increment : decodeInstr Params.ref 0x1000 false [0x34, 0x41] = some ((.loadD true 3 4), []) := by decide
theorem test_decode_bccS_native : decodeInstr Params.ref 0x1000 false [0x80, 0x10] = some ((.bccS 0 0xF80), []) := by decide
theorem test_decode_bccS_legacy : decodeInstr Params.ref 0x1000 true [0xFE, 0x11] = some ((.bccS 1 0x1000), []) := by decide
theorem test_decode_bccS_wraps : decodeInstr Params.ref 0xFFFFFFF0 false [0x20, 0x1E] = some ((.bccS 14 0x10), []) := by decide
theorem test_decode_bccW_native : decodeInstr Params.ref 0x1000 false [0xE0, 0x50, 0xFF, 0x7F] = some ((.bccW 14 0x8FFF), []) := by
  decide
theorem test_decode_bccW_legacy : decodeInstr Params.ref 0x1000 true [0xE0, 0x50, 0xFC, 0xFF] = some ((.bccW 14 0x1000), []) := by
  decide
theorem test_decode_trap : decodeInstr Params.ref 0x1000 false [0x00, 0x60] = some (.trap, []) := by decide
theorem test_decode_moveSprImmP7 :
    decodeInstr Params.ref 0x1000 false [0x7F, 0x70, 0x34, 0x12, 0, 0] = some ((.moveSprImmP7 0x1234), []) := by decide
theorem test_decode_moveSprImmP7_constraint :
    decodeBytes Params.ref 0x1000 false [0x7F, 0x70, 0x34, 0x12, 1, 0] = .invalid (.extConstraint 0x707F 0x11234) := by decide
theorem test_decode_moveSprImmP11 :
    decodeInstr Params.ref 0x1000 false [0xBF, 0x70, 0xFF, 0xFF, 0, 0] = some ((.moveSprImmP11 0xFFFF), []) := by decide
theorem test_decode_moveSprImm :
    decodeInstr Params.ref 0x1000 false [0x0F, 0x70, 5, 0, 0, 0] = some ((.moveSprImm 0 5), []) := by decide
theorem test_decode_moveSprReg : decodeInstr Params.ref 0x1000 false [0x78, 0x70] = some ((.moveSprReg 7 8), []) := by decide
theorem test_decode_moveSprReg_15 : decodeInstr Params.ref 0x1000 false [0xF0, 0x70] = some ((.moveSprReg 15 0), []) := by decide
theorem test_decode_unused_primary : decodeBytes Params.ref 0x1000 false [0x00, 0x28] = .invalid (.noRule 0x2800) := by decide
theorem test_decode_trap_full_mask : decodeBytes Params.ref 0x1000 false [0x01, 0x60] = .invalid (.noRule 0x6001) := by decide
theorem test_tree_7078 : treeSelect 0x7078 = refTable[10]? := by decide
theorem test_invalid_length : (itable Params.ref .invalid).byteLength = 2 := by decide
theorem test_ref_table_supported : tableSupported refTable = true := by decide
theorem test_legacy_adjustment_32_unset : modeAdjustment Params.ref true .w32 = none := by decide

/-! ## Spelling (R80, and the programs of section 3) -/

theorem test_spelling_bccW : (Instr.bccW 14 0x1006).assembly = "ba.w 0x1006" := by decide +kernel
theorem test_spelling_load : (Instr.loadD true 3 4).assembly = "ld r3, [r4+]" := by decide +kernel
theorem test_spelling_moveq : (Instr.moveq 2 0xFFFFFFFF).assembly = "moveq r2, #-1" := by decide +kernel

/-! ## Other parameters (R6) -/

/-- The state under other parameters. -/
def withParams (p : Params) (s : State) : State := { s with launch := { s.launch with params := p } }
/-- R93: a legacy decode of a 32-bit displacement while `LEGACY_ADJ32` is unset. -/
theorem test_refused_legacyAdj32 :
    step (withParams { Params.ref with table := [longBranch], modeNative := true }
      (small 0x1000 [] [0xE0, 0x51, 0, 0, 0, 0] [])) = .refused (.decodeRefused .legacyAdj32Unset) := by rfl
/-- R58: a rule longer than 6 bytes. -/
theorem test_refused_unsupportedLength :
    step (withParams { Params.ref with table := [{ longBranch with extLen := 6 }] } State.reset) =
      .refused (.decodeRefused .unsupportedLength) := by rfl
/-- R111: an opcode the semantics leave out. -/
theorem test_refused_unimplemented :
    step (withParams { Params.ref with unimplemented := [.addq] } (small 0x1000 [] [0xC5, 0x20] [])) =
      .refused .intentionallyUnimplemented := by rfl
/-- R93: a native decode of the same branch is the opcode id and the record its rule gives, and REF gives it no meaning. -/
theorem test_other_table_is_executed_by_the_free_effect :
    let s := withParams (refWith [longBranch]) (small 0x1000 [] [0xE0, 0x51, 4, 0, 0, 0] [])
    step s = execOpen ⟨.other 1, [⟨.cond, .index 14⟩, ⟨.target, .target 0x1004⟩]⟩ s := by rfl
/-- R64, R90: a mode bit may be a slice of the extension. -/
theorem test_mode_bit_of_the_extension :
    (Extractor.modeBit .ext 16).value Params.ref 0 0x10000 0 false = some (.modeBit true) ∧
    (Extractor.modeBit .base 8).value Params.ref 0x4100 0 0 false = some (.modeBit true) := by decide
/-- R107: `read_pc` returns the instruction's address throughout `EXEC`, whatever the effect wrote; the step's own `pc` update
follows. -/
theorem test_effect_reads_the_instruction_address :
    (next? (execEffect (.readPc fun p => .writePc 0x2000 (.readPc fun q => .writeGpr 1 (p + q) (.done none))) (.other 1)
      State.reset)).map (fun t => (t.live.reg 1, t.live.pc)) = some (0x2000, 0x1002) := by decide
/-- R14, R98: REF has `PS[3]` and no `PS[4]`, and a file of two registers is none of its files. -/
theorem test_effect_outside_the_file :
    (next? (execEffect (.writeFlag (.PS 3) true (.done none)) (.other 1) State.reset)).map (·.readFlags) = some 0x200 ∧
    execEffect (.writeFlag (.PS 4) true (.done none)) (.other 1) State.reset = .refused .notInRegFile ∧
    execEffect (.restore { RegFile.reset with gpr := [1, 2] } (.done none)) (.other 1) State.reset =
      .refused .notInRegFile := ⟨by decide, rfl, rfl⟩
/-- R107: the attribute decides the trap, not the opcode: here `MOVEQ` has it and `TRAP` has not. -/
theorem test_attribute_decides_the_trap :
    let p := refWith [{ refTable[2] with attrs := [.trap] }, { refTable[6] with attrs := [] }]
    ((next? (step (withParams p (small 0x1000 [(9, 20)] [0x43, 0x24] [] (launchWith .forward) [.ret 42 []])))).map
      (fun t => (t.live.reg 1, t.live.reg 10, t.live.pc, t.time))) = some (3, 42, 0x1002, 1) ∧
    ((next? (step (withParams p (atTrap .forward [] [.ret 42 []])))).map (fun t => (t.live.pc, t.time))) =
      some (0x1006, 0) := by decide
/-- R6, R94: a file of 20 registers has a register 19. -/
theorem test_twenty_registers :
    (writeGpr 19 7 (withParams { Params.ref with numGpr := 20 } State.reset)).toOption.map
      (fun t => (readGpr 19 t).toOption) = some (some 7) := by decide
/-- R19: a role is refused where a trap uses it: here the trap's own return value, not the stack pointer it never reads. -/
theorem test_role_refused_where_used :
    (next? (step (withParams { Params.ref with aliasGpr := 14 } (atTrap .forward [] [.ret 42 []])))).map
      (fun t => t.live.reg 10) = some 42 ∧
    step (withParams { Params.ref with retReg := 15 } (atTrap .forward [] [.ret 42 []])) =
      .refused .aliasRegisterUnmodelled := by
  refine ⟨by decide, rfl⟩
/-- R40: with `ENDIAN` big, the bytes of a base word and of a loaded word come the other way round. -/
theorem test_big_endian_load :
    (next? (step (withParams { Params.ref with endian := .big }
      (small 0x1000 [(4, 0x2000)] [0x41, 0x34] [0x12, 0x34, 0x56, 0x78])))).map (fun t => t.live.reg 3) =
      some 0x12345678 := by decide

/-! ## Ports (vectors of sections 2.3 and 2.4) -/

theorem test_flags_word_compose :
    ({ State.reset with live := { RegFile.reset with c := true, z := true, m := true } } : State).readFlags = 0x405 := by
  decide
theorem test_flags_word_all : (State.reset.writeFlags 0xFFFFFFFF).readFlags = 0x7FF := by decide
theorem test_flags_word_reserved : (State.reset.writeFlags 0x800).readFlags = 0 := by decide
theorem test_flags_word_ps3 : (State.reset.writeFlags 0x200).live.readFlag (.PS 3) = true := by decide
theorem test_restore_replaces_everything (s : State) :
    ((((s.setReg 3 7).writeFlag .M true).restore s.snapshot)) = s := by rfl

/-! ## One step each (vectors of sections 2.2, 2.5 to 2.7) -/

/-- Registers `j` and the word of the flags after an outcome. -/
def regFlags (j : Nat) (o : Host.Outcome State Fault Refusal) : Option (Word × Word) :=
  (next? o).map (fun t => (t.live.reg j, t.readFlags))

/-- `0x7FFFFFFF + 1`: `V = 1`, `N = 1`. -/
theorem test_addq_overflow : regFlags 3 (exec (.addq 3 1) (small 0x1000 [(3, 0x7FFFFFFF)] [] [])) =
    some (0x80000000, 0xA) := by decide
/-- `0 + 0` still writes the flags: `Z = 1`. -/
theorem test_addq_zero : regFlags 3 (exec (.addq 3 0) (small 0x1000 [] [] [])) = some (0, 4) := by decide
/-- `moveq` writes no flag. -/
theorem test_moveq : regFlags 2 (exec (.moveq 2 0xFFFFFFFF) (small 0x1000 [] [] [])) = some (0xFFFFFFFF, 0) := by decide
/-- `0xFFFFFFFF + 1`: `C = 1`, `Z = 1`. -/
theorem test_addR_carry : regFlags 1 (exec (.addR 1 2) (small 0x1000 [(1, 1), (2, 0xFFFFFFFF)] [] [])) =
    some (0, 5) := by decide
/-- `0x80000000` doubled: `C`, `V` and `Z`. -/
theorem test_addR_same_register : regFlags 1 (exec (.addR 1 1) (small 0x1000 [(1, 0x80000000)] [] [])) =
    some (0, 7) := by decide

/-- `ld r3, [r4+]` at an odd address. -/
theorem test_load_unaligned_increment :
    (next? (step (small 0x1000 [(4, 0x2001)] [0x34, 0x41] [0, 0x78, 0x56, 0x34, 0x12]))).map
      (fun t => (t.live.reg 3, t.live.reg 4, t.live.pc)) = some (0x12345678, 0x2005, 0x1002) := by decide
/-- `ld r4, [r4+]`: the loaded value stays. -/
theorem test_load_same_register :
    (next? (step (small 0x1000 [(4, 0x2000)] [0x44, 0x41] [0xAA, 0xBB, 0xCC, 0xDD]))).map
      (fun t => (t.live.reg 4, t.live.pc)) = some (0xDDCCBBAA, 0x1002) := by decide

/-- R114's example: `bne` with `Z = 0` at `0x1006`. -/
theorem test_bccS_taken : (next? (step (small 0x1006 [] [0xFE, 0x11] []))).map (·.live.pc) = some 0x1004 := by decide
/-- A condition code REF gives no meaning. -/
theorem test_bccS_other_condition : exec (.bccS 2 0) State.reset = .refused .refCondUnmodelled := by rfl
/-- Program 4, native: `0x1002 + 4`. -/
theorem test_bccW_native : (next? (step (small 0x1002 [] [0xE0, 0x50, 4, 0] []))).map (·.live.pc) = some 0x1006 := by
  decide
/-- Not taken: the next instruction is 4 bytes on. -/
theorem test_bccW_not_taken : (next? (step (small 0x1002 [] [0x00, 0x50, 4, 0] []))).map (·.live.pc) = some 0x1006 := by
  decide

/-- A base word no rule matches is INVALID without an extension fetch; one that needs an extension faults on it. -/
theorem test_invalid_before_extension :
    (next? (step (small 0x1000 [] [0x01, 0x50] []))).map (·.halted) = some (some (.illegalInstruction 0x1000)) := by
  decide
theorem test_extension_fault :
    (next? (step (small 0x1000 [] [0xE0, 0x50] []))).map (·.halted) = some (some (.addressFault 0x1002)) := by decide
theorem test_misaligned_fetch : step (small 0x1001 [] [0xC5, 0x20] []) = .fault (.misalignedFetch 0x1001) := by rfl

/-- Program 3: the call returns 42; logical time goes up by one. -/
theorem test_trap_returns :
    (next? (step (atTrap .forward [(10, 7)] [.ret 42 []]))).map (fun t => (t.live.reg 10, t.live.pc, t.time)) =
      some (42, 0x1006, 1) := by decide
/-- A return from handler with no active handler halts under the default policy. -/
theorem test_trap_protocol_violation :
    (next? (step (atTrap .sigReturn []))).map (·.finalStatus) = some (some .unsupportedHalt) := by decide
theorem test_moveSpr_refused : exec (.moveSprImmP7 0x1234) State.reset = .refused .specialRegisterUnmodelled := by rfl
theorem test_moveSprP11_refused : exec (.moveSprImmP11 1) State.reset = .refused .specialRegisterUnmodelled := by rfl
theorem test_moveSprImm_refused : exec (.moveSprImm 3 1) State.reset = .refused .specialRegisterUnmodelled := by rfl
theorem test_moveSprReg_refused : exec (.moveSprReg 7 8) State.reset = .refused .specialRegisterUnmodelled := by rfl

/-- Section 2.7, delivery: `T = 0x2100 - 12`, the return address `T + 8`, the signal number, the handler. -/
theorem test_delivery : (delivered.live.reg 14, delivered.live.reg 13, delivered.live.reg 10, delivered.live.pc) =
    (0x20F4, 0x20FC, 5, 0x1800) := by rfl
theorem test_delivery_trampoline : delivered.bytesAt 12 0x20F4 =
    [0xC0, 0, 0, 0, 0, 0, 0, 0, 0x54, 0x26, 0x00, 0x60] := by rfl
/-- Section 2.7, return: the whole file and the blocked set are those from before the delivery. -/
theorem test_return_from_handler : (match returnFromHandler delivered with
    | .ok r => some ((trapNext 0 r).live, (trapNext 0 r).current.blocked)
    | .error _ => none) = some (signalled.live, 0xC0) := by rfl
/-- Scenario C, from the list of R48's instance. -/
theorem test_mmap_above_highest : ({ State.reset with pages := [0x40002000, 0x40000000] } : State).mapBase 0 =
    0x40004000 := by decide

/-- R47: a hint is the address, aligned or not. -/
theorem test_mmap_unaligned_hint :
    (match mapCall 0x40001000 8192 ⟨true, true, false⟩ [] State.reset with
      | .ok (.ret v t) => some (v, t.pages, t.accessible .write 0x40002FFF, t.accessible .write 0x40000FFF)
      | _ => none) = some (0x40001000, [0x40001000], true, false) := by decide
/-- Log 19: a hint whose page shares bytes with a listed page at an address that is no multiple of the page size. -/
theorem test_mmap_overlap : mapCall 0x40002000 1 ⟨true, true, false⟩ [] { State.reset with pages := [0x40001000] } =
    unsupported .unsupportedSyscall { State.reset with pages := [0x40001000] } := by rfl

/-! ## Witnesses: the hypotheses of each statement, met together -/

/-- Encoding: an instruction of each constructor, at the ends of its fields. -/
theorem witness_DecodeOfEncode :
    Params.ref.table = refTable ∧ bigRef.table = refTable ∧ (Instr.bccS 0 0x1081).wellFormed bigRef 0x1000 true = true ∧
    (Instr.bccS 15 0xF80).wellFormed Params.ref 0x1000 false = true ∧ (Instr.addq 0 63).wellFormed Params.ref 0 false = true ∧
    (Instr.moveq 15 0xFFFFFFE0).wellFormed Params.ref 0 false = true ∧ (Instr.addR 15 0).wellFormed Params.ref 0 true = true ∧
    (Instr.loadD true 0 15).wellFormed Params.ref 0 false = true ∧ (Instr.bccW 14 0xFFFF9000).wellFormed Params.ref 0x1000 false = true ∧
    Instr.trap.wellFormed Params.ref 0 false = true ∧ (Instr.moveSprImmP7 0xFFFF).wellFormed Params.ref 0 false = true ∧
    (Instr.moveSprImmP11 0).wellFormed Params.ref 0 false = true ∧ (Instr.moveSprImm 15 0xFFFFFFFF).wellFormed Params.ref 0 false = true ∧
    (Instr.moveSprReg 15 14).wellFormed Params.ref 0 false = true := by decide

theorem witness_EncodeOfDecode :
    decodeBytes Params.ref 0x1002 true [0xE0, 0x50, 0x04, 0x00, 0x42] = .instr (Instr.bccW 14 0x100A).decoded [0x42] ∧
    decodeBytes bigRef 0x1002 true [0x50, 0xE0, 0x00, 0x04, 0x42] = .instr (Instr.bccW 14 0x100A).decoded [0x42] := by decide

/-- Each of the two cases of R65, and neither, in both byte orders. -/
theorem witness_InvalidInExactlyTwoCases :
    tableSupported Params.ref.table = true ∧ tableSupported bigRef.table = true ∧
    selectIn refTable 0 = none ∧ selectIn refTable 0x70BF = refTable[8]? ∧
    (∃ why, decodeBytes Params.ref 0 false [0x00, 0x00] = .invalid why) ∧
    (∃ why, decodeBytes bigRef 0 false [0x70, 0xBF, 0, 1, 0, 0] = .invalid why) ∧
    decodeBytes bigRef 0 false [0x70, 0xBF, 0, 0, 0, 1] = .instr (Instr.moveSprImmP11 1).decoded [] :=
  ⟨by decide, by decide, by decide, by decide, ⟨_, rfl⟩, ⟨_, rfl⟩, by decide⟩

theorem witness_SpecificSprPathsKeepTheirConstraint :
    (0xFFFF : Word).toNat < 0x10000 ∧ 0x10000 ≤ (0x10000 : Word).toNat ∧ (0 : BitVec 4) ≠ 7 ∧ (0 : BitVec 4) ≠ 11 ∧
      (15 : BitVec 4) ≠ 7 ∧ (15 : BitVec 4) ≠ 11 := by decide

/-- The clauses of PC-relative resolution: each mode, and the 32-bit field with its adjustment unset and set. -/
theorem witness_PcRelativeTargets :
    Params.ref.table = refTable ∧ longBranch.extOk 0 = true ∧ ⟨.target, .pcrel .ext 0 .w32⟩ ∈ longBranch.fields ∧
      false = Params.ref.modeNative ∧ true ≠ Params.ref.modeNative ∧ Params.ref.legacyAdj32 = none ∧
      ({ Params.ref with legacyAdj32 := some 6 } : Params).legacyAdj32 = some 6 := by decide

theorem witness_LengthIsTheDescriptors :
    tableConsistent Params.ref.table = true ∧ refTable[9] ∈ refTable ∧ refTable[9].opcode ≠ .invalid ∧
    decodeBytes Params.ref 0 false [0x3F, 0x70, 1, 2, 3, 4, 5] = .instr (Instr.moveSprImm 3 0x04030201).decoded [5] := by
  decide

/-- An instruction that is no branch, one that is, in both modes, one the other mode refuses, and INVALID. -/
theorem witness_ModeChangesOnlyTargets :
    decodeBytes Params.ref 0x1000 false [0xC5, 0x20] = .instr (Instr.addq 3 5).decoded [] ∧
    decodeBytes Params.ref 0x1000 false [0x00, 0x10] = .instr (Instr.bccS 0 0x1000).decoded [] ∧
    decodeBytes Params.ref 0x1000 true [0x00, 0x10] = .instr (Instr.bccS 0 0x1002).decoded [] ∧
    decodeBytes (refWith [longBranch]) 0x1000 true [0xE0, 0x51, 0, 0, 0, 0] = .refused .legacyAdj32Unset ∧
    decodeBytes (refWith [longBranch]) 0x1000 false [0xE0, 0x51, 4, 0, 0, 0] =
      .instr ⟨.other 1, [⟨.cond, .index 14⟩, ⟨.target, .target 0x1004⟩]⟩ [] ∧
    decodeBytes Params.ref 0x1000 false [0, 0] = .invalid (.noRule 0) := by decide

/-- A branch whose bytes are at `pc`. -/
def branchAhead : State := small 0x1002 [] [0xE0, 0x50, 4, 0] []
/-- The same machine, with another `EXEC`. -/
def otherExec : State := withParams { Params.ref with refExec := false } branchAhead
/-- A long branch at `pc`, whose opcode REF has not. -/
def longAhead : State := withParams (refWith [longBranch]) (small 0x1000 [] [0xE0, 0x51, 4, 0, 0, 0] [])
/-- What `longAhead` decodes. -/
def longDecoded : DecodedInstr := ⟨.other 1, [⟨.cond, .index 14⟩, ⟨.target, .target 0x1004⟩]⟩

/-- The REF encodings, then for any table: an instruction REF semantics cover, one under another `EXEC`, and one whose
opcode REF has not. -/
theorem witness_StepRunsTheDecodedInstruction :
    let s := branchAhead
    let i := Instr.bccW 14 0x1006
    s.params.table = refTable ∧ s.params.refExec = true ∧ i.opcode ∉ s.params.unimplemented ∧
    s.halted = none ∧ s.live.pc.toNat % 2 = 0 ∧ i.wellFormed s.params s.live.pc s.live.m = true ∧
      s.firstFault .execute (i.descriptor s.params).byteLength s.live.pc = none ∧
      s.bytesAt (i.descriptor s.params).byteLength s.live.pc = encode s.params s.live.pc s.live.m i ∧
    fetchDecode s = .ok (.instr i.decoded) ∧ i.decoded.opcode ≠ .invalid ∧ i.decoded.instr? = some i ∧
    fetchDecode otherExec = .ok (.instr i.decoded) ∧ otherExec.params.refExec = false ∧
    fetchDecode longAhead = .ok (.instr longDecoded) ∧ longDecoded.opcode ≠ .invalid ∧ longDecoded.instr? = none := by
  refine ⟨rfl, rfl, by decide, rfl, rfl, by decide, by decide, rfl, rfl, by decide, by decide, rfl, rfl, rfl, by decide, rfl⟩

/-- Each clause: a table with a longer rule; an odd `pc`; a base word cut off after one byte; a word no rule matches; a
rule whose extension is not there; an extension that fails the constraint; a refused decode; a rule that yields the INVALID
opcode id; an opcode the semantics leave out. -/
theorem witness_FetchFaultsInOrder :
    tableSupported [{ longBranch with extLen := 6 }] = false ∧ tableSupported State.reset.params.table = true ∧
    (∃ why, decodeRule Params.ref longBranch 0x51E0 0 0x1000 true = .refused why) ∧
    (∃ d, decodeRule Params.ref { longBranch with opcode := .invalid } 0x51E0 0 0x1000 false = .instr d ∧
      d.opcode = .invalid) ∧
    (∃ d, decodeRule Params.ref refTable[1] 0x20C5 0 0x1000 false = .instr d ∧ d.opcode ≠ .invalid ∧
      d.opcode ∈ [OpcodeId.addq]) ∧
    (small 0x1001 [] [] []).live.pc.toNat % 2 = 1 ∧
    (small 0x1000 [] [0x00] []).firstFault .execute 2 0x1000 = some 0x1001 ∧
    (small 0x1000 [] [0x01, 0x50] []).firstFault .execute 2 0x1000 = none ∧ selectRule 0x5001 = none ∧
    selectRule 0x50E0 = refTable[5]? ∧
    (small 0x1000 [] [0xE0, 0x50, 0x00] []).firstFault .execute 2 0x1002 = some 0x1003 ∧
    selectRule 0x707F = refTable[7]? ∧
    (small 0x1000 [] [0x7F, 0x70, 0, 0, 1, 0] []).firstFault .execute 4 0x1002 = none ∧
    refTable[7].extOk 0x10000 = false := by
  refine ⟨by decide, by decide, ⟨_, rfl⟩, ⟨_, rfl, by decide⟩, ⟨_, rfl, by decide, by decide⟩, by decide, by decide,
    by decide, by decide, by decide, by decide, by decide, by decide, by decide⟩

theorem witness_AddressFaultIsFatal :
    State.reset.firstFault .read 4 0xFFFFFFFF = some 0xFFFFFFFF ∧
    (small 0x1000 [] [0xC5, 0x20] []).firstFault .write [1, (2 : Byte)].length 0x1001 = some 0x1001 := by decide

theorem witness_HaltedRunTakesNoStep :
    ∃ t, step State.reset = .next t ∧ t.finalStatus = some .fault := ⟨_, rfl, rfl⟩

/-- The lowest register and the highest that is not the aliasing one; the aliasing one; the lowest number out of range. -/
theorem witness_GeneralRegisterPorts :
    State.reset.hasReg 0 ∧ State.reset.hasReg 14 ∧ 15 = State.reset.params.aliasGpr ∧ 15 < State.reset.params.numGpr ∧
      State.reset.params.numGpr ≤ 16 := by decide

/-- The first and the last flag of REF that a file stores at a place of a list, and a flag that has a field. -/
theorem witness_FlagWriteTouchesOneFlag :
    State.reset.live.shaped State.reset.params = true ∧ (Flag.PS 0).named State.reset.params.layout = true ∧
      (Flag.PS 3).named State.reset.params.layout = true ∧ Flag.M.named State.reset.params.layout = true := by decide

theorem witness_FlagsWordLayout : 11 ≤ (11 : Nat) ∧ 11 ≤ (31 : Nat) := by decide

/-- REF's layout, and another: the flags in the upper half, no privilege/shadow bit. -/
theorem witness_FlagsWordLaws :
    State.reset.live.shaped State.reset.params = true ∧ layoutInjective State.reset.params.layout ∧
      layoutInjective { c := 31, v := 30, z := 29, n := 28, x := 27, i := 26, ps := [], m := 16 } := by
  unfold layoutInjective; decide

theorem witness_SwitchMovesWholeFiles :
    three.cur < three.threads.length ∧ 2 < three.threads.length ∧ 2 ≠ three.cur ∧ three.current.live = true ∧
      (three.thread 2).parked = some (fileOf 0x1200 []) := by decide

/-- Memory around the top of the address space. -/
def wrapping : State := { State.reset with regions := [⟨0xFFFFFFF0, 0x20, ⟨true, true, false⟩, 0⟩], attachCount := 1 }

theorem witness_MemoryReadsBackLastWrite :
    [1, 2, 3, (4 : Byte)].length ≤ 2 ^ 32 ∧ (∃ t, writeMem 0xFFFFFFFE [1, 2, 3, 4] wrapping = .ok t) ∧
      wrapping.firstFault .read 4 0xFFFFFFFE = none ∧
      ∀ k, k < 4 → (0x5 : Word) ≠ 0xFFFFFFFE + BitVec.ofNat 32 k :=
  ⟨by decide, ⟨_, rfl⟩, by decide, by decide⟩

/-- Both byte orders. -/
theorem witness_WordsAreLittleEndian :
    wrapping.firstFault .read 4 0xFFFFFFFE = none ∧ wrapping.params.endian = .little ∧
      ({ wrapping with launch := { launchAtReset with params := bigRef } } : State).params.endian = .big := by decide

/-- A read and a write that fault on their last byte. -/
theorem witness_FaultNamesTheFirstBadByte :
    (readMem .read 0xE 4 wrapping = .error (.halt (.addressFault 0x10) wrapping)) ∧
      writeMem 0xF [1, 2] wrapping = .error (.halt (.addressFault 0x10) wrapping) := ⟨rfl, rfl⟩

/-- A page list of two pages and a request of two more, and the calls on it. -/
def mapped : State :=
  { State.reset with launch := launchWith .forward, pages := [0x40002000, 0x40000000] }

/-- What a call returned, and the page list after it. -/
def returned : Except Stop TrapResult → Option (Word × List Word)
  | .ok (.ret v t) => some (v, t.pages)
  | _ => none

/-- R48's instance: the mapping returns its base and changes the list. -/
theorem witness_UnmapUndoesMap :
    returned (mapCall 0 0x4000 ⟨true, true, false⟩ [] mapped) =
      some (0x40004000, [0x40006000, 0x40004000, 0x40002000, 0x40000000]) ∧
    [0x40006000, 0x40004000, 0x40002000, 0x40000000] ≠ mapped.pages := by decide

theorem witness_SuccessiveMapsAreDistinctPages :
    let s := atTrap .forward []
    s.pages = [] ∧ 1 ≤ s.launch.maxMapPages ∧ 0 < s.params.pageSize ∧
      s.launch.mmapDefaultBase.toNat + 2 * s.params.pageSize ≤ 2 ^ 32 := by decide

/-- One mapped page. -/
def onePage : State :=
  { State.reset with pages := [0x40000000], regions := [⟨0x40000000, 8192, ⟨true, true, false⟩, 0⟩], attachCount := 1 }

/-- The clauses of a request: two pages from a hint just above the listed page and no multiple of the page size, the last page
of the address space, a request too large in each way, one that takes no page, and one that shares bytes with the listed
page. -/
theorem witness_SuccessiveMapsAreDistinctPages_request :
    (0x40002001 : Word) ≠ 0 ∧ onePage.mapBase 0x40002001 = 0x40002001 ∧ onePage.pages = [0x40000000] ∧
      onePage.params.pageSize = 8192 ∧ pageCount onePage.params 8193 = 2 ∧ 2 ≤ onePage.launch.maxMapPages ∧
      0x40002001 + 2 * 8192 ≤ 2 ^ 32 ∧ (0x40000000 : Word).toNat + 8192 ≤ 0x40002001 ∧ [1, (2 : Byte)].length ≤ 2 * 8192 ∧
      (0xFFFFE000 : Word).toNat + pageCount onePage.params 1 * 8192 ≤ 2 ^ 32 ∧
      2 ^ 32 < (0xFFFFE001 : Word).toNat + pageCount onePage.params 1 * 8192 ∧
      ({ launchAtReset with maxMapPages := 1 } : Launch).maxMapPages < pageCount onePage.params 8193 ∧
      (0x40000000 : Word).toNat < 0x3FFFF000 + 0 * 8192 + 8192 ∧ 0x3FFFF000 + 0 * 8192 < (0x40000000 : Word).toNat + 8192 ∧
      pageCount onePage.params 1 = 1 ∧ pageCount onePage.params 0 = 0 := by
  decide

/-- The clause of a file-backed mapping. -/
theorem witness_SuccessiveMapsAreDistinctPages_file :
    let s := atTrap .forward [(10, 0), (11, 100)]
    readSrc (.arg 0) s = .ok 0 ∧ readSrc (.arg 1) s = .ok 100 ∧ 0 < s.params.pageSize := ⟨rfl, rfl, by decide⟩

/-- Each clause: the supported transition, and each way to be another. -/
theorem witness_GuardedPageIsInaccessible :
    onePage.params.pageSize = 8192 ∧ (0 : Word).toNat = 0 ∧ 8192 < (8193 : Word).toNat ∧ 0x40002000 ∉ onePage.pages ∧
    1 ≤ (8192 : Word).toNat ∧ (8192 : Word).toNat ≤ 8192 ∧ 0x40000000 ∈ onePage.pages ∧
      (∃ r ∈ onePage.regions, r.base = 0x40000000) ∧
      (∀ r ∈ onePage.regions, r.base ≠ 0x40000000 → ∀ k, k < 8192 →
        r.covers (0x40000000 + BitVec.ofNat 32 k) = false) ∧
      (∀ r ∈ onePage.regions, r.base = 0x40000000 → r.len = 8192) ∧
      (1 : Word) ≠ 0 := by
  simp [onePage, State.reset, State.start, launchAtReset, Params.ref]

/-- The lowest and the highest register that is not the aliasing one. -/
theorem witness_AddqResult :
    State.reset.hasReg (0 : RegNum) ∧ State.reset.hasReg (14 : RegNum) ∧
      State.reset.params.table = refTable := by decide
theorem witness_MoveqResult :
    State.reset.hasReg (0 : RegNum) ∧ State.reset.hasReg (14 : RegNum) ∧
      State.reset.params.table = refTable := by decide
theorem witness_AddRegisterResult :
    State.reset.hasReg (14 : RegNum) ∧ State.reset.hasReg (0 : RegNum) ∧
      State.reset.params.table = refTable := by decide

theorem witness_LoadResult :
    let s := wrapping.setReg 14 0xFFFFFFFE
    s.hasReg (14 : RegNum) ∧ s.hasReg (0 : RegNum) ∧ s.params.table = refTable ∧
      s.firstFault .read 4 (s.live.reg 14) = none := by decide

theorem witness_FaultingLoadChangesNothing :
    let s := small 0x1000 [(4, 0x3000)] [0x34, 0x41] []
    s.hasReg (4 : RegNum) ∧ s.firstFault .read 4 (s.live.reg 4) = some 0x3000 := by decide

theorem witness_BranchResult : State.reset.params.table = refTable := by decide

/-- Parameters under which register 13 does not exist and register 9 is the aliasing one: both have a role. -/
def oddRoles : State := withParams { Params.ref with numGpr := 13, aliasGpr := 9 } State.reset

/-- A deliverable signal under parameters that make the return address's register the aliasing one. -/
def oddReturn : State := withParams { Params.ref with raReg := 15 } signalled

/-- R140, R19: the trampoline's write comes before the return address's, so its fault does too. -/
theorem test_delivery_order :
    deliverSignal 5 0x1800 oddReturn = .error (.refuse .aliasRegisterUnmodelled) ∧
    deliverSignal 5 0x1800 (oddReturn.setReg 14 0x3004) =
      .error (.halt (.addressFault 0x3000) ((oddReturn.setReg 14 0x3004).setCurrent
        (oddReturn.current.enterHandler (oddReturn.setReg 14 0x3004).live 0x2FF8))) := ⟨rfl, rfl⟩

/-- R109, R140: the fault of the trampoline's write leaves the snapshot saved before it, and nothing delivered. -/
theorem test_delivery_fault_keeps_snapshot :
    let s := signalled.setReg 14 0x3004
    match deliverSignal 5 0x1800 s with
    | .error (.halt (.addressFault a) t) => a = 0x3000 ∧ (t.current.context.map (·.snapshot)) = some s.live ∧
        t.current.pending = 0x20 ∧ t.live = s.live ∧ t.mem = s.mem
    | _ => False := ⟨rfl, rfl, rfl, rfl, rfl⟩

/-- Each clause: the aliasing register, a number out of range, a condition code, and a role of a trap and of a delivery,
before the trampoline's write and after it. -/
theorem witness_FormsWithoutMeaningAreRefused :
    let s := small 0x1000 [(4, 0x2000)] [] []
    15 = s.params.aliasGpr ∧ 15 < s.params.numGpr ∧ 4 < s.params.numGpr ∧ s.hasReg 4 ∧
      s.firstFault .read 4 (s.live.reg 4) = none ∧ s.params.numGpr ≤ 16 ∧
      (2 : CondCode) ≠ 0 ∧ (2 : CondCode) ≠ 1 ∧ (2 : CondCode) ≠ 14 ∧ (15 : CondCode) ≠ 14 ∧
      oddRoles.traps .trap = true ∧ 9 ∈ trapRoles oddRoles.params ∧ ¬ oddRoles.hasReg 9 ∧
      ¬ oddRoles.hasReg oddRoles.params.spReg ∧
      oddReturn.hasReg oddReturn.params.spReg ∧
      oddReturn.firstFault .write (trampolineSize oddReturn.launch) oddReturn.trampolineBase = none ∧
      15 ∈ deliveryRoles oddReturn.launch ∧ ¬ oddReturn.hasReg 15 := by
  decide

theorem witness_RegisterInstructionFrame :
    (∀ op, op ≠ .trap → State.reset.traps op = false) ∧
    (∃ t, exec (.addq 0 63) State.reset = .next t) ∧ (∃ t, exec (.addR 14 0) State.reset = .next t) ∧
    (∃ t, exec (.moveq 14 1) State.reset = .next t) ∧ (∃ t, exec (.bccS 0 0x1004) State.reset = .next t) ∧
    ∃ t, exec (.bccW 14 0x1004) State.reset = .next t :=
  ⟨fun op h => (itable_ref_trap rfl op).trans (decide_eq_false h), ⟨_, rfl⟩, ⟨_, rfl⟩, ⟨_, rfl⟩, ⟨_, rfl⟩, ⟨_, rfl⟩⟩

/-- A load that completes, and one that ends the run. -/
theorem witness_LoadFrame :
    (small 0x1000 [] [] []).traps .loadD = false ∧
    (∃ t, exec (.loadD true 3 4) (small 0x1000 [(4, 0x2000)] [] [0x10, 0, 0, 0]) = .next t ∧ t.halted = none) ∧
    ∃ t, exec (.loadD true 3 4) (small 0x1000 [(4, 0x3000)] [] []) = .next t ∧ t.finalStatus = some .fault :=
  ⟨rfl, ⟨_, rfl, rfl⟩, ⟨_, rfl, rfl⟩⟩

theorem witness_StorageFlagsSteerNothing : State.reset.traps (Instr.addq 3 5).opcode = false := by decide

theorem witness_ForwardedCallReturns :
    let s := atTrap .forward [] [.ret 42 []]
    s.hasRoles ∧ s.params.table = refTable ∧ s.threads = [Thread.initial 1] ∧ s.cur = 0 ∧ (Thread.initial 1).live = true ∧ s.requestedCall = some .forward ∧
      s.replies = .ret 42 [] :: [] ∧ (Thread.initial 1).deliverable = [] := by decide

/-- A thread whose poll call blocked at time 3, with 10 left, executed again at time 7. -/
def reissued : State :=
  let s := atTrap (.poll (.arg 1)) [(11, 10)] [.blockPoll]
  { s with time := 7, threads := [{ Thread.initial 1 with atSyscall := true, blockedAt := some 3 }] }

theorem test_reissued_timeout : (next? (step reissued)).map (fun t => (t.live.reg 11, t.live.pc, t.current.blockedAt)) =
    some (6, 0x1004, some 7) := by decide

/-- Each clause: a thread that blocks, a wait with no zombie, a re-issued call, and a blocked step. -/
theorem witness_BlockedCallIsExecutedAgain :
    let s := atTrap .forward [] [.blockPoll, .ret 42 []]
    s.cur < s.threads.length ∧ s.current.state = .running ∧
      (∀ th ∈ s.threads, s.harvestable anyChild th = false) ∧ (0 : Word) ∈ [(0 : Word)] ∧
      reissued.current.blockedAt = some 3 ∧ reissued.time - 3 ≤ (10 : Word).toNat ∧
      s.hasRoles ∧ s.traps .trap = true ∧ s.threads = [Thread.initial 1] ∧ s.cur = 0 ∧ (Thread.initial 1).live = true ∧
      s.requestedCall = some .forward ∧ s.replies = .blockPoll :: [.ret 42 []] ∧ (Thread.initial 1).deliverable = [] := by
  decide

/-- A wait for any signal that begins, and one that goes on, each with an answer to block and one to return. -/
theorem witness_BlockedCallIsExecutedAgain_suspend :
    let s := atTrap .forward [] [.blockPoll]
    let t := (atTrap .forward [] [.ret 42 []]).suspend 0xFF
    s.cur < s.threads.length ∧ s.current.blockedAt = none ∧ s.replies = .blockPoll :: [] ∧ s.current.suspended = false ∧
      t.cur < t.threads.length ∧ t.current.blockedAt = none ∧ t.replies = .ret 42 [] :: [] ∧ t.current.suspended = true := by
  decide

theorem witness_BlockedCallIsExecutedAgain_timeout : readSrc (.arg 1) reissued = .ok 10 := rfl

theorem witness_UnsupportedCallPolicy :
    State.reset.launch.policy = .fatalHalt ∧
    ({ State.reset with launch := { launchAtReset with policy := .silentErrno } } : State).launch.policy = .silentErrno ∧
    ({ State.reset with launch := { launchAtReset with policy := .diagnosticErrno } } : State).launch.policy =
      .diagnosticErrno ∧
    (∃ t, step State.reset = .next t) ∧ State.reset.requestedCall = none ∧ (atTrap .sigReturn []).requestedCall = some .sigReturn ∧
    (atTrap .sigReturn []).current.context = none :=
  ⟨by decide, by decide, by decide, ⟨_, rfl⟩, by decide, by decide, by decide⟩

theorem witness_CloneMakesAThread :
    let s := atTrap (.clone (.arg 0) (.const 0)) [(10, 0x1000), (14, 0x7FF0)]
    s.hasRoles ∧ s.params.table = refTable ∧ s.threads = [Thread.initial 1] ∧ s.cur = 0 ∧ (Thread.initial 1).live = true ∧
      s.requestedCall = some (.clone (.arg 0) (.const 0)) ∧ (∃ sp, readSrc (.arg 0) s = .ok sp) ∧
      (∃ sg, readSrc (.const 0) s = .ok sg) ∧ 2 ≤ s.launch.maxThreads :=
  ⟨by decide, by decide, by decide, by decide, by decide, by decide, ⟨0x1000, rfl⟩, ⟨0, rfl⟩, by decide⟩

/-- A free slot behind one that is not, and a full table. -/
theorem witness_CloneMakesAThread_slots :
    let s := atTrap .forward []
    let u := { s with threads := s.threads ++ [Thread.empty] }
    let full := { s with launch := { s.launch with maxThreads := 1 } }
    u.hasReg u.params.spReg ∧ u.hasReg u.params.retReg ∧ u.threads.length + 1 < 2 ^ 32 ∧ 1 < u.threads.length ∧
      (u.thread 1).state = .free ∧ (∀ j, j < 1 → (u.thread j).state ≠ .free) ∧
      (∀ th ∈ full.threads, th.state ≠ .free) ∧ full.launch.maxThreads ≤ full.threads.length := by
  decide

/-- The last live thread, and a thread beside which another is live. -/
theorem witness_ExitLeavesAZombie :
    let s := atTrap (.exit (.arg 0)) [(10, 7)]
    let u := { s with threads := three.threads }
    s.hasRoles ∧ s.traps .trap = true ∧ s.requestedCall = some (.exit (.arg 0)) ∧ readSrc (.arg 0) s = .ok 7 ∧ s.cur < s.threads.length ∧
      (∀ k, k ≠ s.cur → (s.thread k).live = false) ∧
      u.requestedCall = some (.exit (.arg 0)) ∧ readSrc (.arg 0) u = .ok 7 ∧ u.cur < u.threads.length ∧
      ∃ k, k ≠ u.cur ∧ (u.thread k).live = true := by
  refine ⟨by decide, by decide, by decide, rfl, by decide, fun k hk => ?_, by decide, rfl, by decide, 2, by decide, by decide⟩
  rw [thread_beyond _ (Nat.one_le_iff_ne_zero.2 hk)]
  rfl

/-- A parent whose child, in slot 1, exited with code 7. -/
def parentOfZombie : State :=
  let s := atTrap .forward []
  { s with threads := s.threads ++ [{ Thread.empty with tid := 2, parent := 1, state := .zombie, exitValue := 7 }] }

/-- A wait for any child and for the one child, with no buffer, one that is writable, and one that is not. -/
theorem witness_WaitHarvestsAZombie :
    let s := parentOfZombie
    (0 : Word) ∈ [(0 : Word)] ∧ s.thread 1 ∈ s.threads ∧ (s.thread 1).state = .zombie ∧
      (s.thread 1).parent = s.current.tid ∧ (s.thread 1).tid = 2 ∧ (0x2000 : Word) ≠ 0 ∧
      s.firstFault .write 4 0x2000 = none ∧ s.firstFault .write 4 0x2FFE = some 0x3000 := by decide

/-- One thread, marked at-syscall. -/
def allBlocked : State := { atTrap .forward [] with threads := [{ Thread.initial 1 with atSyscall := true }] }

/-- The fairness instance of section 1: from thread 0 the next is 1. Its other clause: nobody eligible, one live. -/
theorem witness_RoundRobinScheduling :
    three.cur < three.threads.length ∧ three.hasRoles ∧ three.traps .trap = true ∧ three.eligible ((three.cur + 1 + 0) % 3) = true ∧
    (∀ k, k < 1 → allBlocked.eligible k = false) ∧ ∃ k, k < 1 ∧ (allBlocked.thread k).live = true := by
  refine ⟨by decide, by decide, by decide, by decide, by decide, 0, by decide, by decide⟩

theorem witness_SchedulerVisitsEveryThread :
    let s := { three with threads := three.threads ++ [Thread.empty, { Thread.initial 5 with state := .zombie }] }
    s.cur < s.threads.length ∧ (List.range s.threads.length).filter s.eligible = [0, 1, 2] := by decide

/-- An effect of another `EXEC`: it reads a register and the program counter, stores a byte and branches. -/
def storing : Effect := .readGpr 4 fun a => .readPc fun p => .memWrite a 1 7 (.done (some (p + 6)))

/-- A trap that goes on, a trap that ends the run, another instruction, and another effect of either kind. -/
theorem witness_LogicalTimeCountsTraps :
    let s := small 0x1000 [(4, 0x2000)] [] []
    (∃ t, exec .trap (atTrap .forward [] [.ret 42 []]) = .next t ∧ t.time = 1) ∧
    (∃ t, exec .trap State.reset = .next t ∧ t.over = true) ∧
    s.traps .moveq = false ∧ (∃ t, exec (.moveq 1 3) s = .next t) ∧
    (∃ t, execEffect (.done none) .trap (atTrap .forward [] [.ret 42 []]) = .next t ∧ t.time = 1) ∧
    ∃ t, execEffect storing (.other 1) s = .next t ∧ t.byteAt 0x2000 = 7 ∧ t.live.pc = 0x1006 :=
  ⟨⟨_, rfl, rfl⟩, ⟨_, rfl, rfl⟩, by decide, ⟨_, rfl⟩, ⟨_, rfl, rfl⟩, ⟨_, rfl, rfl, rfl⟩⟩

theorem witness_OnlyTrapsTouchTheEnvironment :
    let s := small 0x1000 [(4, 0x2000)] [] []
    s.traps (Instr.moveq 1 3).opcode = false ∧ (∃ t, exec (.moveq 1 3) s = .next t) ∧ s.traps (.other 1) = false ∧
    (∃ t, execEffect storing (.other 1) s = .next t) ∧ ∃ t, step State.reset = .next t :=
  ⟨by decide, ⟨_, rfl⟩, by decide, ⟨_, rfl⟩, ⟨_, rfl⟩⟩

/-- Each clause of the slot calls: registration of the highest signal, three modes, and a signal sent to the second
thread. -/
theorem witness_SignalCallsSetTheSlots :
    three.cur < three.threads.length ∧ (63 : Word).toNat < 64 ∧ (0 : Word) ≠ 1 ∧ (0 : Word) ≠ 2 ∧ (1 : Word) ≠ 2 ∧
      (3 : Word) ≠ 0 ∧ (3 : Word) ≠ 1 ∧ (3 : Word) ≠ 2 ∧
      (5 : Word).toNat ≠ three.launch.abortSignal ∧ (2 : Word) ≠ three.current.tid ∧
      (∃ k, k ≠ 1 ∧ (three.thread k).live = true) ∧ 1 < three.threads.length ∧ (three.thread 1).live = true ∧
      (three.thread 1).tid = 2 ∧ ∀ i, i < 1 → ¬((three.thread i).live = true ∧ (three.thread i).tid = 2) := by
  refine ⟨by decide, by decide, by decide, by decide, by decide, by decide, by decide, by decide, by decide, by decide,
    ⟨2, by decide, by decide⟩, by decide, by decide, by decide, by decide⟩

/-- The same thread under a launch whose `SIG_HANDLER_ARG` names the second argument register. -/
def signalledWithArg : State := { signalled with launch := { signalled.launch with sigHandlerArg := some 0 } }

/-- A delivery with `SIG_HANDLER_ARG` unset, one with it set, and one whose trampoline is not writable. -/
theorem witness_DeliveryEntersTheHandler :
    let code := signalled.launch.trampolineSeq ++ signalled.launch.trampolineTrap ++ signalled.launch.trampolinePad
    let base := signalled.live.reg signalled.params.spReg - BitVec.ofNat 32 (8 + code.length)
    signalled.cur < signalled.threads.length ∧ 5 < 64 ∧ (deliveryRoles signalled.launch).Nodup ∧
      (∀ k ∈ deliveryRoles signalled.launch, signalled.hasReg k) ∧ code.length ≤ 2 ^ 16 ∧
      signalled.firstFault .write (8 + code.length) base = none ∧
      signalledWithArg.launch.sigHandlerArg = some (0 : Fin 5) ∧
      (signalled.setReg 14 0x3000).firstFault .write 12 0x2FF4 = none ∧
      (signalled.setReg 14 0x3004).firstFault .write 12 0x2FF8 = some 0x3000 := by
  decide

theorem witness_ReturnFromHandlerRestoresTheFile :
    delivered.cur < delivered.threads.length ∧ (∃ ctx, delivered.current.context = some ctx) ∧
      ∃ r, returnFromHandler delivered = .ok r :=
  ⟨by decide, ⟨_, rfl⟩, ⟨_, rfl⟩⟩

/-- The clause of the pre-suspend set. -/
theorem witness_ReturnFromHandlerRestoresTheFile_suspended :
    ∃ t, deliverSignal 5 0x1800 (signalled.setCurrent { signalled.current with suspended := true, savedBlocked := 3 }) =
      .ok t ∧ (t.current.context.bind (·.preSuspend)) = some 3 := ⟨_, rfl, rfl⟩

theorem witness_SignalRoundTrip :
    signalled.cur < signalled.threads.length ∧ trampolineSize signalled.launch ≤ 2 ^ 16 ∧
      (deliveryRoles signalled.launch).Nodup ∧ (∀ k ∈ deliveryRoles signalled.launch, signalled.hasReg k) ∧
      signalled.firstFault .write (trampolineSize signalled.launch) signalled.trampolineBase = none ∧
      signalled.firstFault .read 8 signalled.trampolineBase = none ∧
      (fileOf 0x20FE [(14, 0x20F4), (10, 9)]).reg signalled.params.spReg = signalled.trampolineBase := by
  decide

/-- A thread with two signals pending, each with a handler. -/
def twoSignals : State :=
  signalled.setCurrent { signalled.current with
    handlers := signalled.current.handlers.set 0 (.address 0x1900), pending := 0x21 }

/-- Each clause: inside a handler, no signal that may be delivered, one, and two. -/
theorem witness_SignalCheckOfTheThread :
    delivered.current.context.isSome = true ∧ State.reset.current.pending = 0 ∧
      signalled.current.context = none ∧ signalled.current.deliverable = [5] ∧
      twoSignals.current.context = none ∧ twoSignals.current.deliverable = [0, 5] := by
  refine ⟨rfl, by decide, by decide, by decide, by decide, by decide⟩

theorem witness_AbortToSelfHalts :
    let s := atTrap (.sigSend (.arg 0) (.const 0)) [(10, 1)]
    s.hasRoles ∧ s.traps .trap = true ∧ s.threads = [Thread.initial 1] ∧ s.cur = 0 ∧ (Thread.initial 1).live = true ∧
      s.requestedCall = some (.sigSend (.arg 0) (.const 0)) ∧ readSrc (.arg 0) s = .ok (Thread.initial 1).tid ∧
      readSrc (.const 0) s = .ok 0 ∧ (0 : Word).toNat = s.launch.abortSignal :=
  ⟨by decide, by decide, by decide, by decide, by decide, by decide, rfl, rfl, by decide⟩

/-- The invariants and a step, from a state with three threads, two of them parked. -/
theorem witness_StepKeepsInvariants :
    three.memCanonical ∧ three.pagesDescending ∧ three.snapshotsInHandlers ∧ three.tableFits ∧ three.idsDistinct ∧
      ∃ t, step three = .next t :=
  ⟨by unfold State.memCanonical; decide, by unfold State.pagesDescending; decide,
    by unfold State.snapshotsInHandlers; decide, by unfold State.tableFits; decide,
    by unfold State.idsDistinct; decide, ⟨_, rfl⟩⟩

theorem witness_StepKeepsOneLiveFile : three.oneLiveFile ∧ three.halted = none ∧ three.filesShaped := by
  unfold State.oneLiveFile State.filesShaped; decide

end Sys2Proof.Tests
end

section
/-! The frame of a flag write (R99). -/

namespace Sys2Proof.Machine

/-- A file of the right shape has the `NUM_PS` privilege/shadow bits of the layout (R14). -/
theorem RegFile_shaped_ps_length {p : Params} {f : RegFile} (h : f.shaped p = true) :
    f.ps.length = p.layout.ps.length := by
  simp only [RegFile.shaped, Bool.and_eq_true, beq_iff_eq] at h
  exact h.2

@[simp] theorem State_writeFlag_live (s : State) (f : Flag) (b : Bool) :
    (s.writeFlag f b).live = s.live.writeFlag f b := rfl

/-- Settles O17: the flag read after a write is decided by `RegFile_writeFlag_readFlag`, and a flag write is a write of the
live file that keeps its registers and its `pc`. -/
theorem flagWriteTouchesOneFlag : Obligations.FlagWriteTouchesOneFlag := by
  intro s f b shaped named
  have read (g : Flag) : (s.writeFlag f b).live.readFlag g = if g = f then b else s.live.readFlag g :=
    RegFile_writeFlag_readFlag s.live f g b (RegFile_shaped_ps_length shaped) named
  refine ⟨?written, ?otherFlags, ?registers, ?pc, rfl⟩
  case written => rw [read, if_pos rfl]
  case otherFlags =>
    intro g other
    rw [read, if_neg (by simpa using other)]
  case registers =>
    intro j _
    rw [State_writeFlag_live, RegFile_writeFlag_reg]
  case pc => rw [State_writeFlag_live, RegFile_writeFlag_pc]

end Sys2Proof.Machine
end

section
/-! An AddressFault ends the run (R124). -/

namespace Sys2Proof.Machine

/-- Nothing that was to follow the faulting access runs: the run is over, in the state the access found. -/
theorem outcome_addressFault_bind {α : Type} (bad : Word) (s : State) (rest : α → Except Stop State) :
    outcome (addressFault bad s >>= rest) = .next { s with halted := some (.addressFault bad) } := rfl

/-- A read of any kind that has a faulting byte raises the AddressFault of the first (R38). -/
theorem readMem_eq_addressFault {kind : AccessKind} {n : Nat} {a bad : Word} {s : State}
    (faults : s.firstFault kind n a = some bad) : readMem kind a n s = addressFault bad s := by
  simp only [readMem, faults]

/-- A write that has a faulting byte raises the AddressFault of the first (R38). -/
theorem writeMem_eq_addressFault {a bad : Word} {bs : List Byte} {s : State}
    (faults : s.firstFault .write bs.length a = some bad) : writeMem a bs s = addressFault bad s := by
  simp only [writeMem, faults]

/-- A run that has ended takes no step (R125). -/
theorem step_of_halted {s : State} {h : Halt} (ended : s.halted = some h) : step s = .fault (.runOver h.status) := by
  simp only [step, ended]

/-- Settles O13: a faulting access is `addressFault`, whose outcome is the ended run, whatever follows it. -/
theorem addressFaultIsFatal : Obligations.AddressFaultIsFatal := by
  refine ⟨?reads, ?writes⟩
  case reads =>
    intro s kind a n bad rest faults
    rw [readMem_eq_addressFault faults, outcome_addressFault_bind]
    exact ⟨_, rfl, rfl, rfl, rfl, step_of_halted (h := .addressFault bad) rfl⟩
  case writes =>
    intro s a bs bad rest faults
    rw [writeMem_eq_addressFault faults, outcome_addressFault_bind]
    exact ⟨_, rfl, rfl, rfl, rfl, step_of_halted (h := .addressFault bad) rfl⟩

end Sys2Proof.Machine
end

section
/-! The scheduler at a syscall return point (R132). -/

namespace Sys2Proof.Machine

/-! ## The trap that goes to the scheduler -/

theorem exec_trap (s : State) : exec .trap s = outcome (finish s.live.pc .trap none s) := rfl

@[simp] theorem State_setPc_pc_self (s : State) : s.setPc s.live.pc = s := rfl

/-- Where the trap layer's registers are ordinary, a trap is its call, the `pc` update with the clock, and the return
point: neither check of the roles refuses it (R19, R107). -/
theorem trapStep_of_hasRoles {s : State} (roles : s.hasRoles) (next : Word) :
    trapStep next s = handleTrap next s >>= fun r => syscallReturnPoint ((trapNext next r).tick s.cur) := by
  have enter : checkRoles s.params (trapRoles s.params) = .ok () := checkRoles_sub roles (trapRoles_sub _)
  have leave (r : TrapResult) : checkRoles s.params (r.roles s.params) = .ok () :=
    checkRoles_sub roles (TrapResult_roles_sub _ r)
  simp only [trapStep, enter, leave]
  rfl

/-! ## The choice -/

/-- The choice is the first eligible thread, counted round robin from the one after the current (R132). -/
theorem nextThread_of_first_eligible {s : State} {d : Nat} (inTable : d < s.threads.length)
    (runs : s.eligible ((s.cur + 1 + d) % s.threads.length) = true)
    (waits : ∀ e, e < d → s.eligible ((s.cur + 1 + e) % s.threads.length) = false) :
    s.nextThread = (s.cur + 1 + d) % s.threads.length := by
  have found : s.rotation.find? s.eligible = some ((s.cur + 1 + d) % s.threads.length) := by
    rw [State.rotation, List.find?_map, Option.map_eq_some_iff]
    refine ⟨d, List.find?_range_eq_some.2 ⟨runs, List.mem_range.2 inTable, fun e he => ?_⟩, rfl⟩
    simp [waits e he]
  simp only [State.nextThread, found]

/-- The choice depends on the table's size, the current index and the time, and of each record on whether the thread is
live and marked at-syscall (R132). -/
theorem nextThread_congr {s t : State} (length : t.threads.length = s.threads.length) (cur : t.cur = s.cur)
    (time : t.time = s.time) (live : ∀ k, (t.thread k).live = (s.thread k).live)
    (mark : ∀ k, (t.thread k).atSyscall = (s.thread k).atSyscall) : t.nextThread = s.nextThread := by
  have eligible : t.eligible = s.eligible := by
    funext k
    simp only [State.eligible, live, mark]
  have rotation : t.rotation = s.rotation := by simp only [State.rotation, length, cur]
  simp only [State.nextThread, eligible, rotation, live, cur, time]

/-- A rewrite of every record of the table that keeps a property of a record keeps it at every index. -/
theorem thread_map_keeps {β : Type} {prop : Thread → β} {f : Thread → Thread} (keeps : ∀ t, prop (f t) = prop t)
    (s : State) (k : Nat) :
    prop (({ s with threads := s.threads.map f } : State).thread k) = prop (s.thread k) := by
  simp only [State.thread, List.getD_eq_getElem?_getD, List.getElem?_map]
  cases s.threads[k]? with
  | none => rfl
  | some t => exact keeps t

/-- A rewrite of every record that keeps whether the thread is live and whether it is marked keeps the choice (R132). -/
theorem nextThread_map {f : Thread → Thread} (live : ∀ t, (f t).live = t.live)
    (mark : ∀ t, (f t).atSyscall = t.atSyscall) (s : State) :
    ({ s with threads := s.threads.map f } : State).nextThread = s.nextThread :=
  nextThread_congr (by simp) rfl rfl (thread_map_keeps (prop := Thread.live) live s)
    (thread_map_keeps (prop := Thread.atSyscall) mark s)

/-- Settles O45: the trap's place by `trapStep_of_hasRoles`, the round robin by `nextThread_of_first_eligible`, the
fallback by `nextThread_live`, and the priorities by `nextThread_map`. -/
theorem roundRobinScheduling : Obligations.RoundRobinScheduling := by
  intro s _ n next
  refine ⟨?trap, rfl, ?roundRobin, ?fallback, ?priorities⟩
  case trap =>
    intro roles traps
    rw [exec_trap, finish_traps traps, State_setPc_pc_self, trapStep_of_hasRoles roles]
  case roundRobin =>
    intro d inTable runs waits
    exact nextThread_of_first_eligible inTable runs waits
  case fallback =>
    rintro - ⟨k, -, alive⟩
    have chosen : (s.thread s.nextThread).live = true := nextThread_live s ⟨k, alive⟩
    exact ⟨live_lt s chosen, chosen⟩
  case priorities =>
    intro priority
    refine nextThread_map ?live ?mark s
    case live => exact fun _ => rfl
    case mark => exact fun _ => rfl

end Sys2Proof.Machine
end

section
/-! The byte order (R40): bytes and the value they make, each from the other; and what bytes that decode are (R83). -/

namespace Sys2Proof

/-! ## Bytes -/

@[simp] theorem assemble_little_cons (b : Byte) (bs : List Byte) :
    assemble .little (b :: bs) = b.toNat + 256 * assemble .little bs := rfl

/-- Bytes in little-endian order are those of the value they make (R40). -/
theorem littleBytes_assemble (bs : List Byte) : littleBytes bs.length (assemble .little bs) = bs := by
  induction bs with
  | nil => rfl
  | cons b bs ih =>
    have low : BitVec.ofNat 8 (b.toNat + 256 * assemble .little bs) = b :=
      BitVec.eq_of_toNat_eq (by have := b.isLt; simp; omega)
    have high : (b.toNat + 256 * assemble .little bs) / 256 = assemble .little bs := by have := b.isLt; omega
    rw [assemble_little_cons, List.length_cons, littleBytes, low, high, ih]

/-- Bytes are those of the value they make, in both byte orders (R40). -/
theorem disassemble_assemble (e : Endian) (bs : List Byte) : disassemble e bs.length (assemble e bs) = bs := by
  cases e with
  | little => exact littleBytes_assemble bs
  | big =>
    have h := littleBytes_assemble bs.reverse
    rw [List.length_reverse, ← assemble_reverse, List.reverse_reverse] at h
    rw [disassemble, h, List.reverse_reverse]

/-- The value of bytes is below the bound their number gives. -/
theorem assemble_lt (e : Endian) (bs : List Byte) : assemble e bs < 2 ^ (8 * bs.length) := by
  have h := assemble_disassemble e bs.length (assemble e bs)
  rw [disassemble_assemble] at h
  rw [h]
  exact Nat.mod_lt _ (Nat.two_pow_pos _)

/-- Two bytes are those of the base word they make (R41). -/
theorem disassemble_base (e : Endian) (b0 b1 : Byte) :
    disassemble e 2 (BitVec.ofNat 16 (assemble e [b0, b1])).toNat = [b0, b1] := by
  have small : assemble e [b0, b1] < 2 ^ 16 := assemble_lt e [b0, b1]
  rw [BitVec.toNat_ofNat, Nat.mod_eq_of_lt small]
  exact disassemble_assemble e [b0, b1]

/-! ## What a decode of bytes can answer -/

/-- Bytes that decode to an instruction are those of a base word and of the extension the rule it selects needs, and then
the rest (R83). -/
theorem decodeBytes_instr {p : Params} {pc : Word} {m : Bool} {bs rest : List Byte} {d : DecodedInstr}
    (h : decodeBytes p pc m bs = .instr d rest) :
    ∃ (w : BaseWord) (ext : List Byte) (r : DecodeRule), selectIn p.table w = some r ∧ ext.length = r.extLen ∧
      bs = disassemble p.endian 2 w.toNat ++ ext ++ rest ∧
      decodeRule p r w (BitVec.ofNat 32 (assemble p.endian ext)) pc m = .instr d := by
  match bs with
  | [] => simp only [decodeBytes] at h; split at h <;> cases h
  | [_] => simp only [decodeBytes] at h; split at h <;> cases h
  | b0 :: b1 :: tail =>
    simp only [decodeBytes] at h
    split at h
    case isFalse => cases h
    split at h
    case h_1 => cases h
    case h_2 r selected =>
      split at h
      case isTrue => cases h
      case isFalse long =>
        refine ⟨_, tail.take r.extLen, r, selected, ?_, ?_⟩
        · rw [List.length_take]; omega
        · cases hd : decodeRule p r _ (BitVec.ofNat 32 (assemble p.endian (tail.take r.extLen))) pc m with
          | instr e =>
            rw [hd] at h
            cases h
            refine ⟨?_, rfl⟩
            rw [disassemble_base, List.append_assoc, List.take_append_drop]
            rfl
          | invalid why => rw [hd] at h; cases h
          | refused why => rw [hd] at h; cases h

end Sys2Proof
end

section
/-! The rows of REF: the words each is selected for, its instruction read from the fields of a word (R68, R70 to R78), the
selector tree (R79), and the round trip of the encoder and the decoder. -/

namespace Sys2Proof

/-! ## The rows of REF -/

/-- Every rule of REF is 2, 4 or 6 bytes long (R58). -/
theorem refTable_supported : tableSupported refTable = true := by decide

/-- The target a displacement field resolves to, where the mode's adjustment is set (R91). -/
def resolvedTarget (p : Params) (pc : Word) (m : Bool) (width : DispWidth) (disp : Word) : Word :=
  pc + disp + (modeAdjustment p m width).getD 0

/-- The displacement fields of REF, of 8 and 16 bits, always have an adjustment (R92). -/
theorem modeAdjustment_isSome {width : DispWidth} (narrow : width ≠ .w32) (p : Params) (m : Bool) :
    ∃ adj, modeAdjustment p m width = some adj := by
  simp only [modeAdjustment]
  split
  · exact ⟨_, rfl⟩
  · cases width with
    | w8 => exact ⟨_, rfl⟩
    | w16 => exact ⟨_, rfl⟩
    | w32 => exact absurd rfl narrow

/-- A displacement field of REF resolves (R91, R92). -/
theorem resolveTarget_narrow {width : DispWidth} (narrow : width ≠ .w32) (p : Params) (pc : Word) (m : Bool) (disp : Word) :
    resolveTarget p pc m width disp = some (resolvedTarget p pc m width disp) := by
  obtain ⟨adj, h⟩ := modeAdjustment_isSome narrow p m
  simp only [resolveTarget, resolvedTarget, h, Option.map_some, Option.getD_some]

@[simp] theorem displacement_resolvedTarget (p : Params) (pc : Word) (m : Bool) (width : DispWidth) (disp : Word) :
    displacement p pc m width (resolvedTarget p pc m width disp) = disp := by
  simp only [displacement, resolvedTarget]
  ring

@[simp] theorem resolvedTarget_displacement (p : Params) (pc : Word) (m : Bool) (width : DispWidth) (target : Word) :
    resolvedTarget p pc m width (displacement p pc m width target) = target := by
  simp only [displacement, resolvedTarget]
  ring

/-- The lowest bits of a word, as a slice from bit 0. -/
theorem extractLsb'_zero_eq_setWidth {n k : Nat} (x : BitVec n) : x.extractLsb' 0 k = x.setWidth k :=
  BitVec.eq_of_toNat_eq (by simp)

section
variable (p : Params) (w : BaseWord) (ext pc : Word) (m : Bool)

@[simp] theorem value_index (lo width : Nat) :
    (Extractor.index lo width).value p w ext pc m = some (.index (w.toNat / 2 ^ lo % 2 ^ width)) := by
  simp [Extractor.value, Nat.shiftRight_eq_div_pow]

@[simp] theorem value_unsigned (src : FieldSource) (lo width : Nat) :
    (Extractor.immediate src lo width false).value p w ext pc m =
      some (.immediate ((src.slice w ext lo width).setWidth 32)) := rfl

@[simp] theorem value_signed (src : FieldSource) (lo width : Nat) :
    (Extractor.immediate src lo width true).value p w ext pc m =
      some (.immediate ((src.slice w ext lo width).signExtend 32)) := rfl

@[simp] theorem value_modeBit (src : FieldSource) (bit : Nat) :
    (Extractor.modeBit src bit).value p w ext pc m = some (.modeBit ((src.slice w ext bit 1).getLsbD 0)) := rfl

@[simp] theorem value_latched (v : Word) : (Extractor.latched v).value p w ext pc m = some (.latched v) := rfl

theorem value_pcrel {width : DispWidth} (narrow : width ≠ .w32) (src : FieldSource) (lo : Nat) :
    (Extractor.pcrel src lo width).value p w ext pc m =
      some (.target (resolvedTarget p pc m width ((src.slice w ext lo width.bits).signExtend 32))) := by
  simp only [Extractor.value, resolveTarget_narrow narrow, Option.map_some]

@[simp] theorem slice_base_zero (k : Nat) : FieldSource.base.slice w ext 0 k = w.setWidth k :=
  extractLsb'_zero_eq_setWidth w

@[simp] theorem slice_ext_zero (k : Nat) : FieldSource.ext.slice w ext 0 k = ext.setWidth k :=
  extractLsb'_zero_eq_setWidth ext

@[simp] theorem extract_nil : extract p w ext pc m [] = some [] := rfl

theorem extract_cons {f : FieldExtractor} {rest : List FieldExtractor} {v : OperandValue} {vs : List Operand}
    (hv : f.how.value p w ext pc m = some v) (hvs : extract p w ext pc m rest = some vs) :
    extract p w ext pc m (f :: rest) = some (⟨f.name, v⟩ :: vs) := by
  simp only [extract, hv, hvs]; rfl

/-- A rule whose extension constraint holds and whose fields are read gives its opcode id with them (R83, R90). -/
theorem decodeRule_of_extract {r : DecodeRule} {vs : List Operand} (ok : r.extOk ext = true)
    (fields : extract p w ext pc m r.fields = some vs) : decodeRule p r w ext pc m = .instr ⟨r.opcode, vs⟩ := by
  simp only [decodeRule, ok, if_true, fields]

/-- The instruction each row of REF gives, in the order of R70, its fields read from the base word and the extension
(R68, R71 to R78). -/
def rowInstr : Fin 11 → Instr
  | 0 => .bccS (w.toNat / 2 ^ 8 % 16) (resolvedTarget p pc m .w8 ((w.setWidth 8).signExtend 32))
  | 1 => .addq (w.toNat / 2 ^ 6 % 16) ((w.setWidth 6).setWidth 32)
  | 2 => .moveq (w.toNat / 2 ^ 6 % 16) ((w.setWidth 6).signExtend 32)
  | 3 => .addR (w.toNat / 2 ^ 4 % 16) (w.toNat / 2 ^ 0 % 16)
  | 4 => .loadD ((FieldSource.base.slice w ext 8 1).getLsbD 0) (w.toNat / 2 ^ 4 % 16) (w.toNat / 2 ^ 0 % 16)
  | 5 => .bccW (w.toNat / 2 ^ 4 % 16) (resolvedTarget p pc m .w16 ((ext.setWidth 16).signExtend 32))
  | 6 => .trap
  | 7 => .moveSprImmP7 ext
  | 8 => .moveSprImmP11 ext
  | 9 => .moveSprImm (w.toNat / 2 ^ 4 % 16) ext
  | 10 => .moveSprReg (w.toNat / 2 ^ 4 % 16) (w.toNat / 2 ^ 0 % 16)

/-- Each row of REF reads the fields of its instruction (R90). -/
theorem extract_row (k : Fin 11) :
    extract p w ext pc m refTable[k].fields = some (rowInstr p w ext pc m k).operands := by
  match k with
  | 0 | 5 => simp [refTable, bccFields, extract, value_pcrel, DispWidth.bits, rowInstr, Instr.operands]
  | 1 | 2 => simp [refTable, quickFields, extract, rowInstr, Instr.operands]
  | 3 | 4 | 6 | 10 => simp [refTable, extract, rowInstr, Instr.operands]
  | 7 | 8 | 9 => simp [refTable, sprImmFields, extract, rowInstr, Instr.operands]

/-- Each row of REF has the opcode id of its instruction (R70). -/
theorem opcode_row (k : Fin 11) : refTable[k].opcode = (rowInstr p w ext pc m k).opcode := by
  fin_cases k <;> rfl

/-- What each row of REF gives where its extension constraint holds (R83). -/
theorem decodeRule_row (k : Fin 11) (ok : refTable[k].extOk ext = true) :
    decodeRule p refTable[k] w ext pc m = .instr (rowInstr p w ext pc m k).decoded := by
  rw [decodeRule_of_extract p w ext pc m ok (extract_row p w ext pc m k), opcode_row p w ext pc m k]
  rfl

end

/-! ## The words of each row -/

/-- The numbers of the base words each row of REF is selected for (R70, R79). -/
def rowWords : Fin 11 → Nat → Prop
  | 0, n => n / 4096 = 1
  | 1, n => n / 1024 = 8
  | 2, n => n / 1024 = 9
  | 3, n => n / 256 = 0x30
  | 4, n => n / 512 = 0x20
  | 5, n => n / 256 = 0x50 ∧ n % 16 = 0
  | 6, n => n = 0x6000
  | 7, n => n = 0x707F
  | 8, n => n = 0x70BF
  | 9, n => n / 256 = 0x70 ∧ n % 16 = 15 ∧ n ≠ 0x707F ∧ n ≠ 0x70BF
  | 10, n => n / 256 = 0x70 ∧ n % 16 ≠ 15

/-- A word of a row selects its rule. -/
theorem selectRule_of_rowWords {k : Fin 11} {w : BaseWord} (h : rowWords k w.toNat) :
    selectRule w = some refTable[k] := by
  match k, h with
  | 0, h | 1, h | 2, h | 3, h | 4, h | 5, h | 6, h | 7, h | 8, h | 9, h | 10, h =>
    simp only [rowWords] at h
    simp (disch := omega) only [selectRule_eq, if_neg, if_pos]
    rfl

/-- The words of REF's rows, all together (R79). -/
theorem exists_rowWords_iff {n : Nat} : (∃ k, rowWords k n) ↔
    n / 4096 = 1 ∨ n / 1024 = 8 ∨ n / 1024 = 9 ∨ n / 256 = 0x30 ∨ n / 512 = 0x20 ∨ (n / 256 = 0x50 ∧ n % 16 = 0) ∨
      n = 0x6000 ∨ n / 256 = 0x70 := by
  constructor
  · rintro ⟨k, h⟩
    match k, h with
    | 0, h | 1, h | 2, h | 3, h | 4, h | 5, h | 6, h | 7, h | 8, h | 9, h | 10, h =>
      simp only [rowWords] at h
      omega
  · rintro (h | h | h | h | h | h | h | h)
    · exact ⟨0, h⟩
    · exact ⟨1, h⟩
    · exact ⟨2, h⟩
    · exact ⟨3, h⟩
    · exact ⟨4, h⟩
    · exact ⟨5, h⟩
    · exact ⟨6, h⟩
    · by_cases h7 : n = 0x707F
      · exact ⟨7, h7⟩
      by_cases h8 : n = 0x70BF
      · exact ⟨8, h8⟩
      by_cases low : n % 16 = 15
      · exact ⟨9, h, low, h7, h8⟩
      · exact ⟨10, h, low⟩

/-- A word selects no rule exactly where it is a word of no row. -/
theorem selectRule_eq_none_iff {w : BaseWord} : selectRule w = none ↔ ¬ ∃ k, rowWords k w.toNat := by
  constructor
  · rintro none ⟨k, words⟩
    rw [selectRule_of_rowWords words] at none
    cases none
  · rw [exists_rowWords_iff]
    intro h
    simp (disch := omega) only [selectRule_eq, if_neg]

/-- A word that selects a rule is a word of its row. -/
theorem rowWords_of_selectRule {w : BaseWord} {r : DecodeRule} (h : selectRule w = some r) :
    ∃ k : Fin 11, r = refTable[k] ∧ rowWords k w.toNat := by
  by_cases some_row : ∃ k, rowWords k w.toNat
  · obtain ⟨k, words⟩ := some_row
    rw [selectRule_of_rowWords words] at h
    exact ⟨k, (Option.some.inj h).symm, words⟩
  · rw [selectRule_eq_none_iff.2 some_row] at h
    cases h

/-- Settles O4: no rule is selected exactly outside the words of the rows, `selectRule_eq_none_iff`. -/
theorem unmatchedBaseWords : Obligations.UnmatchedBaseWords := by
  intro w
  have small := w.isLt
  have trapWord : w = 0x6000 ↔ w.toNat = 0x6000 := by rw [← BitVec.toNat_inj]; rfl
  simp only [selectRule_eq_none_iff, exists_rowWords_iff, ne_eq, trapWord]
  omega

/-! ## The selector tree -/

/-- The candidates stand in the order of the table, each once. -/
def inTableOrder (candidates : List DecodeRule) : Prop := candidates = refTable.filter (candidates.contains ·)

theorem treeLeaf_inTableOrder (w : BaseWord) : inTableOrder (treeLeaf w) := by
  simp only [treeLeaf]
  (repeat' split) <;> (unfold inTableOrder; decide)

/-- The numbers of the base words each row's pattern accepts, whichever row they select (R70). -/
def patternWords : Fin 11 → Nat → Prop
  | 9, n => n / 256 = 0x70 ∧ n % 16 = 15
  | 10, n => n / 256 = 0x70
  | k, n => rowWords k n

theorem patternWords_of_accepts {k : Fin 11} {w : BaseWord} (h : refTable[k].accepts w = true) :
    patternWords k w.toNat := by
  have hn := w.isLt
  rw [accepts_toNat, beq_iff_eq] at h
  match k, h with
  | 0, h => exact (mask_F000 hn 1).1 h
  | 1, h => exact (mask_FC00 hn 8).1 h
  | 2, h => exact (mask_FC00 hn 9).1 h
  | 3, h => exact (mask_FF00 hn 0x30).1 h
  | 4, h => exact (mask_FE00 hn 0x20).1 h
  | 5, h => exact (mask_FF0F hn 0x50 0 (by decide)).1 h
  | 6, h | 7, h | 8, h => exact (mask_FFFF hn).symm.trans h
  | 9, h => exact (mask_FF0F hn 0x70 15 (by decide)).1 h
  | 10, h => exact (mask_FF00 hn 0x70).1 h

/-- Every rule whose pattern matches is a candidate of the word's leaf (R79). -/
theorem mem_treeLeaf_of_accepts {k : Fin 11} {w : BaseWord} (h : refTable[k].accepts w = true) :
    refTable[k] ∈ treeLeaf w := by
  have words := patternWords_of_accepts h
  clear h
  match k, words with
  | 0, words | 1, words | 2, words | 3, words | 4, words | 5, words | 6, words | 7, words | 8, words | 9, words
  | 10, words =>
    simp only [patternWords, rowWords] at words
    simp (disch := omega) only [treeLeaf, ↓if_neg, ↓if_pos]
    (repeat' split) <;> decide

/-- Settles O3: the leaf lists candidates in the table's order, and every rule that matches is one of them. -/
theorem selectorTreeSelectsTableRule : Obligations.SelectorTreeSelectsTableRule := by
  intro w
  have candidate (r : DecodeRule) (hr : r ∈ refTable) :
      decide ((treeLeaf w).contains r = true ∧ r.accepts w = true) = r.accepts w := by
    obtain ⟨k, hk, rfl⟩ := List.getElem_of_mem hr
    cases accepted : refTable[k].accepts w with
    | false => simp
    | true => simpa using mem_treeLeaf_of_accepts (k := ⟨k, hk⟩) accepted
  calc treeSelect w
    _ = (refTable.filter ((treeLeaf w).contains ·)).find? (·.accepts w) := by
      rw [treeSelect, selectIn, ← treeLeaf_inTableOrder w]
    _ = refTable.find? (·.accepts w) := by
      rw [List.find?_filter]
      exact List.find?_congr candidate

/-! ## The encoder -/

/-- The row of REF an instruction is encoded by (R70). -/
def Instr.row : Instr → Fin 11
  | .bccS _ _ => 0
  | .addq _ _ => 1
  | .moveq _ _ => 2
  | .addR _ _ => 3
  | .loadD _ _ _ => 4
  | .bccW _ _ => 5
  | .trap => 6
  | .moveSprImmP7 _ => 7
  | .moveSprImmP11 _ => 8
  | .moveSprImm _ _ => 9
  | .moveSprReg _ _ => 10

/-- The number of the base word of an instruction, its fields by weight (R71 to R78). -/
theorem encodeBase_toNat (p : Params) (pc : Word) (m : Bool) (i : Instr) :
    (encodeBase p pc m i).toNat = match i with
      | .bccS cond target => 0x1000 + 2 ^ 8 * (cond % 16) + (displacement p pc m .w8 target).toNat % 256
      | .addq rd imm => 0x2000 + 2 ^ 6 * (rd % 16) + imm.toNat % 64
      | .moveq rd imm => 0x2400 + 2 ^ 6 * (rd % 16) + imm.toNat % 64
      | .addR rd rs => 0x3000 + 2 ^ 4 * (rd % 16) + rs % 16
      | .loadD am rd rs => 0x4000 + 2 ^ 8 * am.toNat + 2 ^ 4 * (rd % 16) + rs % 16
      | .bccW cond _ => 0x5000 + 2 ^ 4 * (cond % 16)
      | .trap => 0x6000
      | .moveSprImmP7 _ => 0x707F
      | .moveSprImmP11 _ => 0x70BF
      | .moveSprImm ps _ => 0x700F + 2 ^ 4 * (ps % 16)
      | .moveSprReg ps rs => 0x7000 + 2 ^ 4 * (ps % 16) + rs % 16 := by
  cases i with
  | trap => rfl
  | moveSprImmP7 _ => rfl
  | moveSprImmP11 _ => rfl
  | _ =>
    simp only [encodeBase, append_toNat, BitVec.toNat_ofNat, BitVec.toNat_setWidth, BitVec.toNat_ofBool]
    omega

theorem wellFormed_moveSprImm_iff {p : Params} {pc : Word} {m : Bool} {ps : Nat} {imm : Word} :
    (Instr.moveSprImm ps imm).wellFormed p pc m = true ↔ ps < 16 ∧ ps ≠ 7 ∧ ps ≠ 11 := by
  simp [Instr.wellFormed, fitsField, and_assoc]

theorem wellFormed_moveSprReg_iff {p : Params} {pc : Word} {m : Bool} {ps rs : Nat} :
    (Instr.moveSprReg ps rs).wellFormed p pc m = true ↔ ps < 16 ∧ rs < 16 ∧ rs ≠ 15 := by
  simp [Instr.wellFormed, fitsField, and_assoc]

/-- The base word of a well-formed instruction is a word of its row. -/
theorem rowWords_encodeBase {p : Params} {pc : Word} {m : Bool} {i : Instr} (wf : i.wellFormed p pc m = true) :
    rowWords i.row (encodeBase p pc m i).toNat := by
  cases i with
  | loadD am rd rs =>
    have := am.toNat_lt
    simp only [encodeBase_toNat, rowWords, Instr.row]
    omega
  | moveSprImm ps imm =>
    rw [wellFormed_moveSprImm_iff] at wf
    simp only [encodeBase_toNat, rowWords, Instr.row]
    omega
  | moveSprReg ps rs =>
    rw [wellFormed_moveSprReg_iff] at wf
    simp only [encodeBase_toNat, rowWords, Instr.row]
    omega
  | _ =>
    simp only [encodeBase_toNat, rowWords, Instr.row]
    all_goals omega

/-- The extension of an instruction is as long as its row says (R61). -/
theorem encodeExt_length (p : Params) (pc : Word) (m : Bool) (i : Instr) :
    (encodeExt p pc m i).length = refTable[i.row].extLen := by
  cases i <;> simp [encodeExt, Instr.row, refTable]

/-- The extension constraint of the specific special-register paths: the upper half is 0 (R78). -/
theorem upper_half_zero_iff (ext : Word) : ext &&& 0xFFFF0000 = 0 ↔ ext.toNat < 2 ^ 16 := by
  have h := and_high 16 16 ext.toNat ext.isLt
  have e : (ext &&& 0xFFFF0000).toNat = 2 ^ 16 * (ext.toNat / 2 ^ 16) := (BitVec.toNat_and ..).trans h
  rw [← BitVec.toNat_inj, e]
  simp

theorem fitsUnsigned_iff {n : Nat} (narrow : n < 32) (v : Word) : fitsUnsigned n v = true ↔ v.toNat < 2 ^ n := by
  have small : 2 ^ n < 2 ^ 32 := Nat.pow_lt_pow_right (by decide) narrow
  rw [fitsUnsigned, beq_iff_eq, ← BitVec.toNat_inj, BitVec.toNat_setWidth, BitVec.toNat_setWidth,
    Nat.mod_eq_of_lt (lt_trans (Nat.mod_lt _ (Nat.two_pow_pos n)) small), Nat.mod_eq_iff_lt (Nat.two_pow_pos n).ne']

/-- The number an extension holds, 0 where there is none. -/
def extWord (p : Params) (pc : Word) (m : Bool) (i : Instr) : Word :=
  BitVec.ofNat 32 (assemble p.endian (encodeExt p pc m i))

/-- A 16-bit extension's bytes are read back as its low half. -/
theorem extWord_bccW (p : Params) (pc : Word) (m : Bool) (cond : CondCode) (target : Word) :
    (extWord p pc m (.bccW cond target)).setWidth 16 = (displacement p pc m .w16 target).setWidth 16 := by
  apply BitVec.eq_of_toNat_eq
  simp [extWord, encodeExt, assemble_disassemble]

theorem fitsField_iff {n : Nat} : fitsField n = true ↔ n < 16 := decide_eq_true_iff

theorem fitsSigned_iff {n : Nat} {v : Word} : fitsSigned n v = true ↔ (v.setWidth n).signExtend 32 = v := beq_iff_eq

theorem fitsUnsigned_eq {n : Nat} {v : Word} : fitsUnsigned n v = true ↔ (v.setWidth n).setWidth 32 = v := beq_iff_eq

/-- The addressing-mode bit, on the number of the base word (R75). -/
theorem modeBit_eq (w : BaseWord) (ext : Word) :
    (FieldSource.base.slice w ext 8 1).getLsbD 0 = decide (w.toNat / 2 ^ 8 % 2 = 1) := by
  simp [FieldSource.slice, BitVec.getLsbD, Nat.testBit_eq_decide_div_mod_eq]

/-- Reading the fields of an encoding gives the instruction back (R68, R71 to R78). -/
theorem rowInstr_encode {p : Params} {pc : Word} {m : Bool} {i : Instr} (wf : i.wellFormed p pc m = true) :
    rowInstr p (encodeBase p pc m i) (extWord p pc m i) pc m i.row = i := by
  have number := encodeBase_toNat p pc m i
  generalize encodeBase p pc m i = w at number
  cases i <;> dsimp only at number
  case bccS cond target =>
    simp only [Instr.wellFormed, Bool.and_eq_true, fitsField_iff, fitsSigned_iff] at wf
    have field : @Eq Nat (w.toNat / 2 ^ 8 % 16) cond := by omega
    have low : w.setWidth 8 = (displacement p pc m .w8 target).setWidth 8 := BitVec.eq_of_toNat_eq (by simp; omega)
    simp only [rowInstr, Instr.row, field, low, wf, resolvedTarget_displacement]
  case addq rd imm =>
    simp only [Instr.wellFormed, Bool.and_eq_true, fitsField_iff, fitsUnsigned_eq] at wf
    have field : @Eq Nat (w.toNat / 2 ^ 6 % 16) rd := by omega
    have low : w.setWidth 6 = imm.setWidth 6 := BitVec.eq_of_toNat_eq (by simp; omega)
    simp only [rowInstr, Instr.row, field, low, wf]
  case moveq rd imm =>
    simp only [Instr.wellFormed, Bool.and_eq_true, fitsField_iff, fitsSigned_iff] at wf
    have field : @Eq Nat (w.toNat / 2 ^ 6 % 16) rd := by omega
    have low : w.setWidth 6 = imm.setWidth 6 := BitVec.eq_of_toNat_eq (by simp; omega)
    simp only [rowInstr, Instr.row, field, low, wf]
  case addR rd rs =>
    simp only [Instr.wellFormed, Bool.and_eq_true, fitsField_iff] at wf
    have dest : @Eq Nat (w.toNat / 2 ^ 4 % 16) rd := by omega
    have source : @Eq Nat (w.toNat / 2 ^ 0 % 16) rs := by omega
    simp only [rowInstr, Instr.row, dest, source]
  case loadD am rd rs =>
    simp only [Instr.wellFormed, Bool.and_eq_true, fitsField_iff] at wf
    have dest : @Eq Nat (w.toNat / 2 ^ 4 % 16) rd := by omega
    have source : @Eq Nat (w.toNat / 2 ^ 0 % 16) rs := by omega
    have mode : (FieldSource.base.slice w (extWord p pc m (.loadD am rd rs)) 8 1).getLsbD 0 = am := by
      rw [modeBit_eq]
      cases am <;> simp at number ⊢ <;> omega
    simp only [rowInstr, Instr.row, dest, source, mode]
  case bccW cond target =>
    simp only [Instr.wellFormed, Bool.and_eq_true, fitsField_iff, fitsSigned_iff] at wf
    have field : @Eq Nat (w.toNat / 2 ^ 4 % 16) cond := by omega
    simp only [rowInstr, Instr.row, field, extWord_bccW, wf, resolvedTarget_displacement]
  case trap => rfl
  case moveSprImmP7 imm | moveSprImmP11 imm => simp only [rowInstr, Instr.row, extWord, encodeExt, word_of_bytes]
  case moveSprImm ps imm =>
    rw [wellFormed_moveSprImm_iff] at wf
    have field : @Eq Nat (w.toNat / 2 ^ 4 % 16) ps := by omega
    simp only [rowInstr, Instr.row, field, extWord, encodeExt, word_of_bytes]
  case moveSprReg ps rs =>
    rw [wellFormed_moveSprReg_iff] at wf
    have field : @Eq Nat (w.toNat / 2 ^ 4 % 16) ps := by omega
    have source : @Eq Nat (w.toNat / 2 ^ 0 % 16) rs := by omega
    simp only [rowInstr, Instr.row, field, source]

/-- The extension of a well-formed instruction meets the constraint of its row (R78). -/
theorem extOk_encode {p : Params} {pc : Word} {m : Bool} {i : Instr} (wf : i.wellFormed p pc m = true) :
    refTable[i.row].extOk (extWord p pc m i) = true := by
  cases i with
  | moveSprImmP7 imm | moveSprImmP11 imm =>
    have half := (upper_half_zero_iff imm).2 ((fitsUnsigned_iff (by decide) imm).1 wf)
    rw [extWord, encodeExt, word_of_bytes]
    exact beq_iff_eq.2 half
  | _ => rfl

/-- A table whose rules are REF's selects for a word what REF does. -/
theorem selectIn_ref {p : Params} (table : p.table = refTable) (w : BaseWord) : selectIn p.table w = selectRule w := by
  rw [table, selectRule]

/-- A well-formed instruction's base word selects its row. -/
theorem selectIn_encodeBase {p : Params} {pc : Word} {m : Bool} {i : Instr} (table : p.table = refTable)
    (wf : i.wellFormed p pc m = true) : selectIn p.table (encodeBase p pc m i) = some refTable[i.row] := by
  rw [selectIn_ref table, selectRule_of_rowWords (rowWords_encodeBase wf)]

/-- The row of a well-formed instruction, on its encoding, gives the instruction (R83). -/
theorem decodeRule_encode {p : Params} {pc : Word} {m : Bool} {i : Instr} (wf : i.wellFormed p pc m = true) :
    decodeRule p refTable[i.row] (encodeBase p pc m i) (extWord p pc m i) pc m = .instr i.decoded := by
  rw [decodeRule_row _ _ _ _ _ _ (extOk_encode wf), rowInstr_encode wf]

/-- Settles O1: a well-formed instruction's base word selects its row, whose fields are read back as the instruction. -/
theorem decodeOfEncode : Obligations.DecodeOfEncode := by
  intro p pc m i rest table wf
  have supported : tableSupported p.table = true := table ▸ refTable_supported
  have decoded : decodeBytes p pc m (encode p pc m i ++ rest) = .instr i.decoded rest := by
    rw [encode, decodeBytes_base p supported pc m _ _ rest _ (selectIn_encodeBase table wf) (encodeExt_length p pc m i),
      ← extWord, decodeRule_encode wf]
    rfl
  refine ⟨decoded, ?_⟩
  simp only [decodeInstr, decoded, instr?_decoded, Option.map_some]

/-! ## The words that decode -/

/-- The field a value was sign-extended from is its lowest bits. -/
theorem setWidth_signExtend {n : Nat} (narrow : n ≤ 32) (x : BitVec n) : (x.signExtend 32).setWidth n = x := by
  ext k hk
  rw [BitVec.getElem_setWidth, BitVec.getLsbD_signExtend, if_pos hk, decide_eq_true (lt_of_lt_of_le hk narrow), Bool.true_and,
    BitVec.getLsbD_eq_getElem hk]

/-- The field a value was zero-extended from is its lowest bits. -/
theorem setWidth_zeroExtend {n : Nat} (narrow : n ≤ 32) (x : BitVec n) : (x.setWidth 32).setWidth n = x := by
  rw [BitVec.setWidth_setWidth_of_le _ narrow, BitVec.setWidth_eq]

/-- The lowest bits of a value sign-extended from them, as a number. -/
theorem signExtend_toNat_mod {n : Nat} (narrow : n ≤ 32) (x : BitVec n) : (x.signExtend 32).toNat % 2 ^ n = x.toNat := by
  rw [← BitVec.toNat_setWidth, setWidth_signExtend narrow]

/-- The addressing-mode bit as a number. -/
theorem modeBit_toNat (w : BaseWord) (ext : Word) :
    ((FieldSource.base.slice w ext 8 1).getLsbD 0).toNat = w.toNat / 2 ^ 8 % 2 := by
  rw [modeBit_eq]
  by_cases set : w.toNat / 2 ^ 8 % 2 = 1
  · rw [set]; rfl
  · rw [decide_eq_false set, Bool.toNat_false]; omega

/-- Bytes depend on the value below the bound their number gives. -/
theorem disassemble_mod (e : Endian) (n v : Nat) : disassemble e n (v % 2 ^ (8 * n)) = disassemble e n v := by
  have h := disassemble_assemble e (disassemble e n v)
  rwa [disassemble_length, assemble_disassemble] at h

/-- Encoding the fields of a row's word gives the word (R71 to R78). -/
theorem encodeBase_rowInstr {p : Params} {pc : Word} {m : Bool} {w : BaseWord} {k : Fin 11} (ext : Word)
    (words : rowWords k w.toNat) : encodeBase p pc m (rowInstr p w ext pc m k) = w := by
  have low8 := signExtend_toNat_mod (by decide) (w.setWidth 8)
  have low6 := signExtend_toNat_mod (by decide) (w.setWidth 6)
  rw [BitVec.toNat_setWidth] at low8 low6
  apply BitVec.eq_of_toNat_eq
  rw [encodeBase_toNat]
  match k, words with
  | 0, words | 1, words | 2, words | 3, words | 4, words | 5, words | 6, words | 7, words | 8, words | 9, words
  | 10, words =>
    simp only [rowWords] at words
    simp only [rowInstr, displacement_resolvedTarget, modeBit_toNat, BitVec.toNat_setWidth]
    omega

/-- The instruction of a row's word is well formed, where the extension meets the row's constraint (R78). -/
theorem rowInstr_wellFormed {p : Params} {pc : Word} {m : Bool} {w : BaseWord} {k : Fin 11} {ext : Word}
    (words : rowWords k w.toNat) (ok : refTable[k].extOk ext = true) :
    (rowInstr p w ext pc m k).wellFormed p pc m = true := by
  have field (n : Nat) : fitsField (n % 16) = true := fitsField_iff.2 (Nat.mod_lt n (by decide))
  have signed {n : Nat} (narrow : n ≤ 32) (x : BitVec n) : fitsSigned n (x.signExtend 32) = true := by
    rw [fitsSigned_iff, setWidth_signExtend narrow]
  have half (h : ext &&& 0xFFFF0000 = 0) : fitsUnsigned 16 ext = true :=
    (fitsUnsigned_iff (by decide) ext).2 ((upper_half_zero_iff ext).1 h)
  match k, words, ok with
  | 0, _, _ => simp only [rowInstr, Instr.wellFormed, field, displacement_resolvedTarget, signed, Nat.reduceLeDiff, Bool.and_self]
  | 1, _, _ =>
    simp only [rowInstr, Instr.wellFormed, field, fitsUnsigned_eq, setWidth_zeroExtend, Nat.reduceLeDiff, Bool.true_and]
  | 2, _, _ => simp only [rowInstr, Instr.wellFormed, field, signed, Nat.reduceLeDiff, Bool.and_self]
  | 3, _, _ | 4, _, _ => simp only [rowInstr, Instr.wellFormed, field, Bool.and_self]
  | 5, _, _ => simp only [rowInstr, Instr.wellFormed, field, displacement_resolvedTarget, signed, Nat.reduceLeDiff, Bool.and_self]
  | 6, _, _ => rfl
  | 7, _, ok | 8, _, ok => exact half (beq_iff_eq.1 ok)
  | 9, words, _ =>
    simp only [rowWords] at words
    rw [rowInstr, wellFormed_moveSprImm_iff]
    omega
  | 10, words, _ =>
    simp only [rowWords] at words
    rw [rowInstr, wellFormed_moveSprReg_iff]
    omega

/-- The extension of the instruction of a row's word is the extension it was read from (R58). -/
theorem encodeExt_rowInstr {p : Params} {pc : Word} {m : Bool} {k : Fin 11} (w : BaseWord) {ext : List Byte}
    (length : ext.length = refTable[k].extLen) :
    encodeExt p pc m (rowInstr p w (BitVec.ofNat 32 (assemble p.endian ext)) pc m k) = ext := by
  have bound := assemble_lt p.endian ext
  have bytes := disassemble_assemble p.endian ext
  rw [length] at bound bytes
  match k, length, bound, bytes with
  | 0, length, _, _ | 1, length, _, _ | 2, length, _, _ | 3, length, _, _ | 4, length, _, _ | 6, length, _, _
  | 10, length, _, _ => exact (List.eq_nil_of_length_eq_zero length).symm
  | 5, _, bound, bytes =>
    have low := signExtend_toNat_mod (by decide) ((BitVec.ofNat 32 (assemble p.endian ext)).setWidth 16)
    have same : (BitVec.ofNat 32 (assemble p.endian ext)).toNat % 2 ^ 16 = assemble p.endian ext := by
      have : assemble p.endian ext < 2 ^ 16 := bound
      rw [BitVec.toNat_ofNat]; omega
    rw [BitVec.toNat_setWidth, same] at low
    rw [rowInstr, encodeExt, displacement_resolvedTarget, ← disassemble_mod, low]
    exact bytes
  | 7, _, bound, bytes | 8, _, bound, bytes | 9, _, bound, bytes =>
    have word : (BitVec.ofNat 32 (assemble p.endian ext)).toNat = assemble p.endian ext :=
      (BitVec.toNat_ofNat ..).trans (Nat.mod_eq_of_lt bound)
    rw [rowInstr, encodeExt, wordBytes, word]
    exact bytes

/-- Settles O2: a word that decodes is a word of the row it selects, and encoding the fields read from it gives it back. -/
theorem encodeOfDecode : Obligations.EncodeOfDecode := by
  intro p pc m bs rest d table decoded
  obtain ⟨w, ext, r, selected, length, rfl, fields⟩ := decodeBytes_instr decoded
  rw [selectIn_ref table] at selected
  obtain ⟨k, rfl, words⟩ := rowWords_of_selectRule selected
  have ok : refTable[k].extOk (BitVec.ofNat 32 (assemble p.endian ext)) = true := by
    by_contra fails
    rw [decodeRule, if_neg fails] at fields
    cases fields
  rw [decodeRule_row p w _ pc m k ok] at fields
  refine ⟨rowInstr p w (BitVec.ofNat 32 (assemble p.endian ext)) pc m k, (Decoded.instr.inj fields).symm,
    rowInstr_wellFormed words ok, ?_⟩
  rw [encode, encodeBase_rowInstr _ words, encodeExt_rowInstr w length]

end Sys2Proof
end

section
/-! What a decode of any table can answer: INVALID (R65), the addresses PC-relative fields resolve to (R91 to R93), the
descriptor's length (R66), and what the mode changes (D6). -/

namespace Sys2Proof

/-! ## INVALID -/

/-- Decoding where no rule's pattern matches (R65). -/
theorem decodeBytes_unselected {p : Params} (supported : tableSupported p.table = true) {b0 b1 : Byte}
    (none : selectIn p.table (BitVec.ofNat 16 (assemble p.endian [b0, b1])) = none) (pc : Word) (m : Bool)
    (rest : List Byte) :
    decodeBytes p pc m (b0 :: b1 :: rest) = .invalid (.noRule (BitVec.ofNat 16 (assemble p.endian [b0, b1]))) := by
  simp only [decodeBytes, supported, if_true, none]

/-- Decoding where a rule is selected and its extension is there (R83). -/
theorem decodeBytes_selected {p : Params} (supported : tableSupported p.table = true) {b0 b1 : Byte} {r : DecodeRule}
    (selected : selectIn p.table (BitVec.ofNat 16 (assemble p.endian [b0, b1])) = some r) (pc : Word) (m : Bool)
    {rest : List Byte} (long : r.extLen ≤ rest.length) :
    decodeBytes p pc m (b0 :: b1 :: rest) =
      (decodeRule p r (BitVec.ofNat 16 (assemble p.endian [b0, b1]))
        (BitVec.ofNat 32 (assemble p.endian (rest.take r.extLen))) pc m).leaving (rest.drop r.extLen) := by
  simp only [decodeBytes, supported, if_true, selected, if_neg (Nat.not_lt.2 long)]

/-- The extension constraint fails where there is one and the extension does not match it (R61). -/
theorem extOk_eq_false_iff {r : DecodeRule} {ext : Word} :
    r.extOk ext = false ↔ ∃ mask pattern, r.extConstraint = some (mask, pattern) ∧ ext &&& mask ≠ pattern := by
  cases constraint : r.extConstraint with
  | none => simp [DecodeRule.extOk, constraint]
  | some c => simp [DecodeRule.extOk, constraint, Prod.ext_iff]

/-- A selected rule answers INVALID where the extension constraint fails. -/
theorem decodeRule_of_extOk_false {r : DecodeRule} {ext : Word} (fails : r.extOk ext = false) (p : Params) (w : BaseWord)
    (pc : Word) (m : Bool) : decodeRule p r w ext pc m = .invalid (.extConstraint w ext) := by
  simp only [decodeRule, fails, Bool.false_eq_true, if_false]

/-- A selected rule answers its opcode id with its fields, or the refusal of R93, where the constraint holds (R83). -/
theorem decodeRule_of_extOk {r : DecodeRule} {ext : Word} (ok : r.extOk ext = true) (p : Params) (w : BaseWord)
    (pc : Word) (m : Bool) :
    (∃ vs, extract p w ext pc m r.fields = some vs ∧ decodeRule p r w ext pc m = .instr ⟨r.opcode, vs⟩) ∨
      (extract p w ext pc m r.fields = none ∧ decodeRule p r w ext pc m = .refused .legacyAdj32Unset) := by
  cases fields : extract p w ext pc m r.fields with
  | some vs => exact .inl ⟨vs, rfl, decodeRule_of_extract p w ext pc m ok fields⟩
  | none => exact .inr ⟨rfl, by simp only [decodeRule, ok, if_true, fields]⟩

/-- A selected rule answers INVALID exactly where the extension constraint fails (R65). -/
theorem decodeRule_leaving_invalid_iff {p : Params} {r : DecodeRule} {w : BaseWord} {ext pc : Word} {m : Bool}
    {rest : List Byte} :
    (∃ why, (decodeRule p r w ext pc m).leaving rest = .invalid why) ↔ r.extOk ext = false := by
  cases ok : r.extOk ext with
  | false => rw [decodeRule_of_extOk_false ok]; exact ⟨fun _ => rfl, fun _ => ⟨_, rfl⟩⟩
  | true =>
    have valid (why : InvalidReason) : (decodeRule p r w ext pc m).leaving rest ≠ .invalid why := by
      rcases decodeRule_of_extOk ok p w pc m with ⟨vs, -, e⟩ | ⟨-, e⟩ <;> rw [e] <;> exact fun h => nomatch h
    exact ⟨fun ⟨why, h⟩ => absurd h (valid why), fun h => nomatch h⟩

/-- Settles O5: no rule is selected, or the selected one answers INVALID, which is its constraint's failure. -/
theorem invalidInExactlyTwoCases : Obligations.InvalidInExactlyTwoCases := by
  intro p pc m b0 b1 rest supported w long
  cases selected : selectIn p.table w with
  | none =>
    have unmatched : ∀ r ∈ p.table, w &&& r.mask ≠ r.pattern := by
      simpa [selectIn, DecodeRule.accepts] using selected
    exact ⟨fun _ => .inl unmatched, fun _ => ⟨_, decodeBytes_unselected supported selected pc m rest⟩⟩
  | some r =>
    rw [decodeBytes_selected supported selected pc m (long r selected), decodeRule_leaving_invalid_iff,
      extOk_eq_false_iff]
    constructor
    · rintro ⟨mask, pattern, constraint, fails⟩
      exact .inr ⟨r, mask, pattern, selected, constraint, fails⟩
    · rintro (unmatched | ⟨r', mask, pattern, selected', constraint, fails⟩)
      · have accepted : r.accepts w = true := List.find?_some (p := fun q : DecodeRule => q.accepts w) selected
        exact absurd (beq_iff_eq.1 accepted) (unmatched r (List.mem_of_find?_eq_some selected))
      · obtain rfl : r' = r := Option.some.inj (selected'.symm.trans selected)
        exact ⟨mask, pattern, constraint, fails⟩

/-! ## Decoding an encoding, through the statement of O1 -/

theorem decodeInstr_encode {p : Params} (table : p.table = refTable) {pc : Word} {m : Bool} {i : Instr}
    (wf : i.wellFormed p pc m = true) (rest : List Byte) :
    decodeInstr p pc m (encode p pc m i ++ rest) = some (i, rest) := (decodeOfEncode p pc m i rest table wf).2

/-! ## The special-register paths -/

/-- The specific paths answer INVALID on an extension whose upper half is not 0 (R78). -/
theorem decodeBytes_specific_invalid {p : Params} (table : p.table = refTable) {k : Fin 11} {w : BaseWord}
    (selected : selectRule w = some refTable[k]) (constraint : refTable[k].extConstraint = some (0xFFFF0000, 0))
    (length : refTable[k].extLen = 4) {e : Word} (large : 0x10000 ≤ e.toNat) (pc : Word) (m : Bool) (rest : List Byte) :
    decodeBytes p pc m (disassemble p.endian 2 w.toNat ++ (wordBytes p.endian e ++ rest)) =
      .invalid (.extConstraint w e) := by
  have fails : refTable[k].extOk e = false := by
    rw [extOk_eq_false_iff]
    refine ⟨_, _, constraint, fun half => ?_⟩
    have := (upper_half_zero_iff e).1 half
    omega
  rw [← List.append_assoc, decodeBytes_base p (table ▸ refTable_supported) pc m w _ rest refTable[k]
    ((selectIn_ref table w).trans selected) ((wordBytes_length ..).trans length.symm), word_of_bytes,
    decodeRule_of_extOk_false fails]
  rfl

/-- Settles O6: the accepted extensions are encodings, `decodeInstr_encode`, and the others fail the constraint of the
row the word selects. -/
theorem specificSprPathsKeepTheirConstraint : Obligations.SpecificSprPathsKeepTheirConstraint := by
  intro p pc m e rest table bytes
  refine ⟨fun small => ?accepted, fun large => ?rejected, fun ps not7 not11 => ?generic⟩
  case accepted =>
    have fits : fitsUnsigned 16 e = true := (fitsUnsigned_iff (by decide) e).2 small
    have specific7 := decodeInstr_encode table (pc := pc) (m := m) (i := .moveSprImmP7 e) fits rest
    have specific11 := decodeInstr_encode table (pc := pc) (m := m) (i := .moveSprImmP11 e) fits rest
    rw [encode, List.append_assoc] at specific7 specific11
    exact ⟨specific7, specific11⟩
  case rejected =>
    exact ⟨decodeBytes_specific_invalid table (k := 7) (w := 0x707F) (selectRule_of_rowWords rfl) rfl rfl large pc m rest,
      decodeBytes_specific_invalid table (k := 8) (w := 0x70BF) (selectRule_of_rowWords rfl) rfl rfl large pc m rest⟩
  case generic =>
    have index : ps.toNat < 16 ∧ ps.toNat ≠ 7 ∧ ps.toNat ≠ 11 :=
      ⟨ps.isLt, fun h => not7 (BitVec.eq_of_toNat_eq h), fun h => not11 (BitVec.eq_of_toNat_eq h)⟩
    have decoded := decodeInstr_encode table (pc := pc) (m := m) (i := .moveSprImm ps.toNat e)
      (wellFormed_moveSprImm_iff.2 index) rest
    rwa [encode, List.append_assoc, encodeBase, BitVec.ofNat_toNat, BitVec.setWidth_eq] at decoded

/-! ## PC-relative targets -/

/-- A field that cannot be resolved refuses the decode (R93). -/
theorem extract_eq_none_of_mem {p : Params} {w : BaseWord} {ext pc : Word} {m : Bool} {f : FieldExtractor}
    {fields : List FieldExtractor} (mem : f ∈ fields) (unset : f.how.value p w ext pc m = none) :
    extract p w ext pc m fields = none := by
  induction fields with
  | nil => cases mem
  | cons g rest ih =>
    rcases List.mem_cons.1 mem with rfl | mem
    · simp only [extract, unset]; rfl
    · simp only [extract, ih mem]
      cases g.how.value p w ext pc m <;> rfl

theorem modeAdjustment_native {p : Params} {m : Bool} (native : m = p.modeNative) (width : DispWidth) :
    modeAdjustment p m width = some 0 := by simp [modeAdjustment, native]

theorem modeAdjustment_legacy {p : Params} {m : Bool} (legacy : m ≠ p.modeNative) (width : DispWidth) :
    modeAdjustment p m width =
      match width with
      | .w8 => some p.legacyAdj8
      | .w16 => some p.legacyAdj16
      | .w32 => p.legacyAdj32 := by
  cases width <;> simp [modeAdjustment, legacy]

/-- The value of a PC-relative field, by the mode's adjustment (R91). -/
theorem value_pcrel_of_adjustment {p : Params} {m : Bool} {width : DispWidth} {adj : Word}
    (set : modeAdjustment p m width = some adj) (w : BaseWord) (ext pc : Word) (src : FieldSource) (lo : Nat) :
    (Extractor.pcrel src lo width).value p w ext pc m =
      some (.target (pc + (src.slice w ext lo width.bits).signExtend 32 + adj)) := by
  simp only [Extractor.value, resolveTarget, set, Option.map_some]

theorem resolvedTarget_w8 (p : Params) (pc : Word) (m : Bool) (disp : Word) :
    resolvedTarget p pc m .w8 disp = pc + disp + (if m = p.modeNative then 0 else p.legacyAdj8) := by
  by_cases native : m = p.modeNative
  · rw [resolvedTarget, modeAdjustment_native native, if_pos native]; rfl
  · rw [resolvedTarget, modeAdjustment_legacy native, if_neg native]; rfl

theorem resolvedTarget_w16 (p : Params) (pc : Word) (m : Bool) (disp : Word) :
    resolvedTarget p pc m .w16 disp = pc + disp + (if m = p.modeNative then 0 else p.legacyAdj16) := by
  by_cases native : m = p.modeNative
  · rw [resolvedTarget, modeAdjustment_native native, if_pos native]; rfl
  · rw [resolvedTarget, modeAdjustment_legacy native, if_neg native]; rfl

/-- A branch to the target its displacement field resolves to is well formed (R91). -/
theorem fitsSigned_displacement {n : Nat} (narrow : n ≤ 32) (d : BitVec n) (p : Params) (pc : Word) (m : Bool)
    (width : DispWidth) :
    fitsSigned n (displacement p pc m width (resolvedTarget p pc m width (d.signExtend 32))) = true := by
  rw [fitsSigned_iff, displacement_resolvedTarget, setWidth_signExtend narrow]

/-- Settles O7: REF's branches are encodings of the branch to the resolved target, and a field of any width takes its
mode's adjustment. -/
theorem pcRelativeTargets : Obligations.PcRelativeTargets := by
  refine ⟨fun p pc m cond d8 d16 rest table => ⟨?short, ?word⟩, rfl, rfl, rfl, ?field⟩
  case short =>
    have decoded := decodeInstr_encode table (pc := pc) (m := m)
      (i := .bccS cond.toNat (resolvedTarget p pc m .w8 (d8.signExtend 32)))
      (Bool.and_eq_true_iff.2 ⟨fitsField_iff.2 cond.isLt, fitsSigned_displacement (by decide) d8 p pc m .w8⟩) rest
    rwa [encode, encodeExt, List.append_nil, encodeBase, displacement_resolvedTarget, setWidth_signExtend (by decide),
      BitVec.ofNat_toNat, BitVec.setWidth_eq, resolvedTarget_w8] at decoded
  case word =>
    have decoded := decodeInstr_encode table (pc := pc) (m := m)
      (i := .bccW cond.toNat (resolvedTarget p pc m .w16 (d16.signExtend 32)))
      (Bool.and_eq_true_iff.2 ⟨fitsField_iff.2 cond.isLt, fitsSigned_displacement (by decide) d16 p pc m .w16⟩) rest
    have low : (d16.signExtend 32).toNat % 2 ^ (8 * 2) = d16.toNat := signExtend_toNat_mod (by decide) d16
    rwa [encode, encodeExt, encodeBase, displacement_resolvedTarget, ← disassemble_mod p.endian 2 (d16.signExtend 32).toNat,
      low, BitVec.ofNat_toNat, BitVec.setWidth_eq, resolvedTarget_w16] at decoded
  case field =>
    intro p pc m w ext src lo resolved raw
    refine ⟨fun native width => ?_, fun legacy => ?_⟩
    · have resolves := value_pcrel_of_adjustment (modeAdjustment_native native width) w ext pc src lo
      rwa [add_zero] at resolves
    · have adjustment (width : DispWidth) := modeAdjustment_legacy legacy width
      refine ⟨value_pcrel_of_adjustment (adjustment .w8) w ext pc src lo,
        value_pcrel_of_adjustment (adjustment .w16) w ext pc src lo,
        fun adj set => value_pcrel_of_adjustment ((adjustment .w32).trans set) w ext pc src lo,
        fun unset r name ok mem => ?_⟩
      have refuses : (Extractor.pcrel src lo .w32).value p w ext pc m = none := by
        simp only [Extractor.value, resolveTarget, adjustment, unset, Option.map_none]
      rcases decodeRule_of_extOk ok p w pc m with ⟨vs, fields, -⟩ | ⟨-, refused⟩
      · rw [extract_eq_none_of_mem mem refuses] at fields
        cases fields
      · exact refused

/-! ## The descriptor -/

/-- In a table that obeys R60 each rule has the descriptor of its opcode id (R82). -/
theorem itable_of_mem {p : Params} (consistent : tableConsistent p.table = true) {r : DecodeRule} (mem : r ∈ p.table)
    (valid : r.opcode ≠ .invalid) : itable p r.opcode = r.descriptor := by
  cases found : p.table.find? (fun q => q.opcode == r.opcode) with
  | none => simpa using List.find?_eq_none.1 found r mem
  | some q =>
    have same : (q.opcode == r.opcode) = true := List.find?_some (p := fun q : DecodeRule => q.opcode == r.opcode) found
    have opcode := beq_iff_eq.1 same
    have agree := List.all_eq_true.1 (List.all_eq_true.1 consistent q (List.mem_of_find?_eq_some found)) r mem
    simp only [opcode, bne_self_eq_false, Bool.false_or, beq_iff_eq] at agree
    simp only [itable, if_neg valid, found, agree]

/-- A rule that answers an instruction gives its own opcode id. -/
theorem opcode_of_decodeRule {p : Params} {r : DecodeRule} {w : BaseWord} {ext pc : Word} {m : Bool} {d : DecodedInstr}
    (h : decodeRule p r w ext pc m = .instr d) : d.opcode = r.opcode := by
  cases ok : r.extOk ext with
  | false => rw [decodeRule_of_extOk_false ok] at h; cases h
  | true =>
    rcases decodeRule_of_extOk ok p w pc m with ⟨vs, -, e⟩ | ⟨-, e⟩ <;> rw [e] at h <;> cases h
    rfl

/-- Settles O8: a rule's descriptor is its opcode id's, and a decode takes the bytes of the base word and the rule's
extension. -/
theorem lengthIsTheDescriptors : Obligations.LengthIsTheDescriptors := by
  refine ⟨by decide, fun p consistent => ⟨fun r mem valid => itable_of_mem consistent mem valid, ?_⟩⟩
  intro pc m bs rest d decoded valid
  obtain ⟨w, ext, r, selected, length, rfl, fields⟩ := decodeBytes_instr decoded
  have opcode := opcode_of_decodeRule fields
  rw [opcode] at valid ⊢
  rw [itable_of_mem consistent (List.mem_of_find?_eq_some selected) valid]
  simp only [List.length_append, disassemble_length, length, DecodeRule.descriptor, DecodeRule.byteLength]

/-! ## The mode -/

/-- Everything a decode of bytes can be, of which the mode decides only what the selected rule's fields are (R66, D6). -/
theorem decodeBytes_cases (p : Params) (pc : Word) (bs : List Byte) :
    (tableSupported p.table = false ∧ ∀ m, decodeBytes p pc m bs = .refused .unsupportedLength) ∨
    (∀ m, decodeBytes p pc m bs = .short) ∨
    (∃ w, ∀ m, decodeBytes p pc m bs = .invalid (.noRule w)) ∨
    ∃ w r ext rest, selectIn p.table w = some r ∧ ∀ m, decodeBytes p pc m bs = (decodeRule p r w ext pc m).leaving rest := by
  cases supported : tableSupported p.table with
  | false => exact .inl ⟨rfl, fun m => by simp only [decodeBytes, supported, Bool.false_eq_true, if_false]⟩
  | true =>
    match bs with
    | [] => exact .inr (.inl fun m => by simp only [decodeBytes, supported, if_true])
    | [_] => exact .inr (.inl fun m => by simp only [decodeBytes, supported, if_true])
    | b0 :: b1 :: rest =>
      cases selected : selectIn p.table (BitVec.ofNat 16 (assemble p.endian [b0, b1])) with
      | none => exact .inr (.inr (.inl ⟨_, fun m => decodeBytes_unselected supported selected pc m rest⟩))
      | some r =>
        by_cases long : r.extLen ≤ rest.length
        · exact .inr (.inr (.inr ⟨_, r, _, _, selected, fun m => decodeBytes_selected supported selected pc m long⟩))
        · exact .inr (.inl fun m => by
            simp only [decodeBytes, supported, if_true, selected, if_pos (Nat.lt_of_not_le long)])

/-- A field in another mode is the same but for a resolved target, or is refused (R92, R93). -/
theorem value_mode {p : Params} {w : BaseWord} {ext pc : Word} {m : Bool} {f : FieldExtractor} {v : OperandValue}
    (h : f.how.value p w ext pc m = some v) (n : Bool) :
    f.how.value p w ext pc n = none ∨
      ∃ u, f.how.value p w ext pc n = some u ∧ Operand.forgetTarget ⟨f.name, u⟩ = Operand.forgetTarget ⟨f.name, v⟩ := by
  obtain ⟨name, how⟩ := f
  cases how with
  | pcrel src lo width =>
    simp only [Extractor.value, Option.map_eq_some_iff] at h
    obtain ⟨a, -, rfl⟩ := h
    cases resolves : resolveTarget p pc n width ((src.slice w ext lo width.bits).signExtend 32) with
    | none => exact .inl (by simp only [Extractor.value, resolves, Option.map_none])
    | some b => exact .inr ⟨.target b, by simp only [Extractor.value, resolves, Option.map_some], rfl⟩
  | _ => exact .inr ⟨v, h, rfl⟩

/-- The fields in another mode are the same but for resolved targets, or one is refused (R92, R93). -/
theorem extract_mode {p : Params} {w : BaseWord} {ext pc : Word} {m : Bool} (n : Bool) {fields : List FieldExtractor}
    {vs : List Operand} (h : extract p w ext pc m fields = some vs) :
    extract p w ext pc n fields = none ∨
      ∃ us, extract p w ext pc n fields = some us ∧ us.map Operand.forgetTarget = vs.map Operand.forgetTarget := by
  induction fields generalizing vs with
  | nil => exact .inr ⟨vs, h, rfl⟩
  | cons f rest ih =>
    simp only [extract, Option.bind_eq_bind, Option.bind_eq_some_iff, Option.some.injEq] at h
    obtain ⟨v, hv, tail, htail, rfl⟩ := h
    rcases value_mode hv n with unset | ⟨u, hu, same⟩
    · exact .inl (extract_eq_none_of_mem (List.mem_cons_self ..) unset)
    · rcases ih htail with unset | ⟨us, hus, sames⟩
      · exact .inl (by simp only [extract, hu, unset]; rfl)
      · exact .inr ⟨_, extract_cons p w ext pc n hu hus, by rw [List.map_cons, List.map_cons, same, sames]⟩

/-- REF refuses no decode: no row has a 32-bit displacement (R93, D7). -/
theorem decodeRule_ref_not_refused {w : BaseWord} {r : DecodeRule} (selected : selectRule w = some r) (p : Params)
    (ext pc : Word) (m : Bool) (why : DecodeRefusal) : decodeRule p r w ext pc m ≠ .refused why := by
  obtain ⟨k, rfl, -⟩ := rowWords_of_selectRule selected
  cases ok : refTable[k].extOk ext with
  | false => rw [decodeRule_of_extOk_false ok]; exact fun h => nomatch h
  | true => rw [decodeRule_row p w ext pc m k ok]; exact fun h => nomatch h

/-- Settles O9: only the fields of the selected rule see the mode, `decodeBytes_cases`, and of them only resolved targets
differ, `extract_mode`. -/
theorem modeChangesOnlyTargets : Obligations.ModeChangesOnlyTargets := by
  intro p pc m n bs
  rcases decodeBytes_cases p pc bs with ⟨unsupported, e⟩ | e | ⟨w, e⟩ | ⟨w, r, ext, tail, selected, e⟩
  · rw [e m, e n]
    refine ⟨fun _ _ h => (nomatch h), fun _ h => (nomatch h), fun table => ?_⟩
    rw [table, refTable_supported] at unsupported
    cases unsupported
  · rw [e m, e n]
    exact ⟨fun _ _ h => (nomatch h), fun _ h => (nomatch h), fun _ _ h => (nomatch h)⟩
  · rw [e m, e n]
    exact ⟨fun _ _ h => (nomatch h), fun _ h => h, fun _ _ h => (nomatch h)⟩
  · rw [e m, e n]
    refine ⟨?instr, ?invalid, ?ref⟩
    case instr =>
      intro d rest h
      cases ok : r.extOk ext with
      | false => rw [decodeRule_of_extOk_false ok] at h; cases h
      | true =>
        rcases decodeRule_of_extOk ok p w pc m with ⟨vs, fields, em⟩ | ⟨-, em⟩ <;> rw [em] at h <;> cases h
        rcases decodeRule_of_extOk ok p w pc n with ⟨us, fields', en⟩ | ⟨-, en⟩ <;> rw [en]
        · rcases extract_mode n fields with unset | ⟨us', hus, same⟩
          · rw [unset] at fields'; cases fields'
          · obtain rfl : us' = us := Option.some.inj (hus.symm.trans fields')
            exact .inr ⟨_, rfl, rfl, same⟩
        · exact .inl rfl
    case invalid =>
      intro why h
      have fails : r.extOk ext = false := decodeRule_leaving_invalid_iff.1 ⟨why, h⟩
      rw [decodeRule_of_extOk_false fails] at h ⊢
      exact h
    case ref =>
      intro table why
      rw [selectIn_ref table] at selected
      have notRefused := decodeRule_ref_not_refused selected p ext pc m
      cases answer : decodeRule p r w ext pc m with
      | refused why' => exact absurd answer (notRefused why')
      | instr d => exact fun h => nomatch h
      | invalid why' => exact fun h => nomatch h

/-! ## The vectors -/

/-- Settles O10: each vector is evaluated. -/
theorem writtenWordsDecode : Obligations.WrittenWordsDecode := by
  refine ⟨?_, ?_, ?_, ?_, ?_, ?_, ?_, ?_, ?_, ?_, ?_⟩ <;> decide

end Sys2Proof
end

section
/-! The instructions (R112 to R121): what each does, written once, and what it leaves. -/

namespace Sys2Proof.Machine

/-! ## The refusals of a register number -/

theorem checkReg_alias {p : Params} {i : Nat} (exists_ : i < p.numGpr) (alias_ : i = p.aliasGpr) :
    checkReg p i = .error (.refuse .aliasRegisterUnmodelled) := by
  simp only [checkReg, if_neg (Nat.not_le.2 exists_), if_pos alias_]

theorem checkReg_range {p : Params} {i : Nat} (beyond : p.numGpr ≤ i) : checkReg p i = .error (.refuse .regIndexRange) := by
  simp only [checkReg, if_pos beyond]

theorem readGpr_refused {s : State} {i : Nat} {r : Refusal} (h : checkReg s.params i = .error (.refuse r)) :
    readGpr i s = .error (.refuse r) := by simp only [readGpr, h]; rfl

theorem writeGpr_refused {s : State} {i : Nat} {r : Refusal} (h : checkReg s.params i = .error (.refuse r)) (v : Word) :
    writeGpr i v s = .error (.refuse r) := by simp only [writeGpr, h]; rfl

/-- A register number is ordinary, or its use is refused (R94, R95). -/
theorem hasReg_or_refused (s : State) (i : Nat) : s.hasReg i ∨ ∃ r, checkReg s.params i = .error (.refuse r) := by
  rcases checkReg_cases s.params i with ⟨below, ordinary, -⟩ | refused
  · exact .inl ⟨below, ordinary⟩
  · exact .inr refused

/-! ## The arithmetic family -/

/-- The live file after `EXEC` of an add into `rd` (R112, R116, R118). -/
def RegFile.added (f : RegFile) (rd : RegNum) (a b : Word) : RegFile := (f.addFlags a b).setReg rd (a + b)

theorem exec_addq {s : State} {rd : RegNum} (reg : s.hasReg rd) (imm : Word) :
    exec (.addq rd imm) s = outcome (finish s.live.pc .addq none (s.setLive (s.live.added rd (s.live.reg rd) imm))) := by
  have reg' : (add32 (s.live.reg rd) imm s).2.hasReg rd := reg
  simp only [exec, execAddq, readGpr_ok reg]
  show outcome (writeGpr rd _ _ >>= _) = _
  rw [writeGpr_ok _ reg']
  rfl

theorem exec_addq_refused {s : State} {rd : RegNum} {r : Refusal} (h : checkReg s.params rd = .error (.refuse r))
    (imm : Word) : exec (.addq rd imm) s = .refused r := by simp only [exec, execAddq, readGpr_refused h]; rfl

theorem exec_moveq {s : State} {rd : RegNum} (reg : s.hasReg rd) (imm : Word) :
    exec (.moveq rd imm) s = outcome (finish s.live.pc .moveq none (s.setLive (s.live.setReg rd imm))) := by
  simp only [exec, execMoveq, writeGpr_ok imm reg]
  rfl

theorem exec_moveq_refused {s : State} {rd : RegNum} {r : Refusal} (h : checkReg s.params rd = .error (.refuse r))
    (imm : Word) : exec (.moveq rd imm) s = .refused r := by simp only [exec, execMoveq, writeGpr_refused h]; rfl

theorem exec_addR {s : State} {rd rs : RegNum} (dest : s.hasReg rd) (source : s.hasReg rs) :
    exec (.addR rd rs) s =
      outcome (finish s.live.pc .addR none (s.setLive (s.live.added rd (s.live.reg rd) (s.live.reg rs)))) := by
  have dest' : (add32 (s.live.reg rd) (s.live.reg rs) s).2.hasReg rd := dest
  simp only [exec, execAddR, readGpr_ok dest, readGpr_ok source]
  show outcome (writeGpr rd _ _ >>= _) = _
  rw [writeGpr_ok _ dest']
  rfl

theorem exec_addR_refused_dest {s : State} {rd : RegNum} {r : Refusal} (h : checkReg s.params rd = .error (.refuse r))
    (rs : RegNum) : exec (.addR rd rs) s = .refused r := by simp only [exec, execAddR, readGpr_refused h]; rfl

theorem exec_addR_refused_source {s : State} {rd rs : RegNum} {r : Refusal} (dest : s.hasReg rd)
    (h : checkReg s.params rs = .error (.refuse r)) : exec (.addR rd rs) s = .refused r := by
  simp only [exec, execAddR, readGpr_ok dest, readGpr_refused h]
  rfl

/-! ## The branches -/

/-- A condition holds or not, or its code is refused (R113). -/
theorem condHolds_cases (c : CondCode) (s : State) :
    (∃ taken, condHolds c s = .ok taken) ∨ condHolds c s = .error (.refuse .refCondUnmodelled) := by
  simp only [condHolds]
  split
  · exact .inl ⟨_, rfl⟩
  split
  · exact .inl ⟨_, rfl⟩
  split
  · exact .inl ⟨_, rfl⟩
  · exact .inr rfl

theorem condHolds_refused {c : CondCode} (eq : c ≠ 0) (ne : c ≠ 1) (always : c ≠ 14) (s : State) :
    condHolds c s = .error (.refuse .refCondUnmodelled) := by simp only [condHolds, if_neg eq, if_neg ne, if_neg always]

theorem exec_bccS {s : State} {c : CondCode} {taken : Bool} (h : condHolds c s = .ok taken) (target : Word) :
    exec (.bccS c target) s = outcome (finish s.live.pc .bccS (if taken then some target else none) s) := by
  simp only [exec, execBccS, branchTarget, h]
  rfl

theorem exec_bccW {s : State} {c : CondCode} {taken : Bool} (h : condHolds c s = .ok taken) (target : Word) :
    exec (.bccW c target) s = outcome (finish s.live.pc .bccW (if taken then some target else none) s) := by
  simp only [exec, execBccW, branchTarget, h]
  rfl

theorem exec_bccS_refused {s : State} {c : CondCode} {r : Refusal} (h : condHolds c s = .error (.refuse r))
    (target : Word) : exec (.bccS c target) s = .refused r := by simp only [exec, execBccS, branchTarget, h]; rfl

theorem exec_bccW_refused {s : State} {c : CondCode} {r : Refusal} (h : condHolds c s = .error (.refuse r))
    (target : Word) : exec (.bccW c target) s = .refused r := by simp only [exec, execBccW, branchTarget, h]; rfl

/-! ## The load -/

/-- The word a load from `x[rs]` reads (R119). -/
def State.loaded (s : State) (rs : RegNum) : Word :=
  BitVec.ofNat 32 (assemble s.params.endian (s.bytesAt 4 (s.live.reg rs)))

/-- The live file after the auto-increment of a load (R119). -/
def RegFile.incremented (f : RegFile) (am : Bool) (rs : RegNum) : RegFile :=
  if am then f.setReg rs (f.reg rs + 4) else f

theorem readWord_ok {s : State} {a : Word} (readable : s.firstFault .read 4 a = none) :
    readWord a s = .ok (BitVec.ofNat 32 (assemble s.params.endian (s.bytesAt 4 a))) := by
  simp only [readWord, readMem, readable]
  rfl

theorem readWord_fault {s : State} {a bad : Word} (faults : s.firstFault .read 4 a = some bad) :
    readWord a s = .error (.halt (.addressFault bad) s) := by
  simp only [readWord, readMem, faults]
  rfl

theorem loadOperand_ok {s : State} {rs : RegNum} (reg : s.hasReg rs)
    (readable : s.firstFault .read 4 (s.live.reg rs) = none) (am : Bool) :
    loadOperand am rs s = .ok (s.loaded rs, s.setLive (s.live.incremented am rs)) := by
  simp only [loadOperand, readGpr_ok reg, bind, Except.bind, readWord_ok readable]
  cases am with
  | false => rfl
  | true => simp only [if_true, writeGpr_ok _ reg]; rfl

theorem exec_loadD {s : State} {rd rs : RegNum} (dest : s.hasReg rd) (source : s.hasReg rs)
    (readable : s.firstFault .read 4 (s.live.reg rs) = none) (am : Bool) :
    exec (.loadD am rd rs) s =
      outcome (finish s.live.pc .loadD none (s.setLive ((s.live.incremented am rs).setReg rd (s.loaded rs)))) := by
  have dest' : (s.setLive (s.live.incremented am rs)).hasReg rd := dest
  simp only [exec, execLoadD, loadOperand_ok source readable, bind, Except.bind, writeGpr_ok _ dest']
  cases am <;> rfl

theorem exec_loadD_refused_source {s : State} {rs : RegNum} {r : Refusal} (h : checkReg s.params rs = .error (.refuse r))
    (am : Bool) (rd : RegNum) : exec (.loadD am rd rs) s = .refused r := by
  simp only [exec, execLoadD, loadOperand, readGpr_refused h]
  rfl

theorem exec_loadD_refused_dest {s : State} {rd rs : RegNum} {r : Refusal} (source : s.hasReg rs)
    (readable : s.firstFault .read 4 (s.live.reg rs) = none) (h : checkReg s.params rd = .error (.refuse r)) (am : Bool) :
    exec (.loadD am rd rs) s = .refused r := by
  have refused : writeGpr rd (s.loaded rs) (s.setLive (s.live.incremented am rs)) = .error (.refuse r) :=
    writeGpr_refused (s := s.setLive (s.live.incremented am rs)) h _
  simp only [exec, execLoadD, loadOperand_ok source readable, bind, Except.bind, refused]
  rfl

theorem exec_loadD_fault {s : State} {rs : RegNum} {bad : Word} (source : s.hasReg rs)
    (faults : s.firstFault .read 4 (s.live.reg rs) = some bad) (am : Bool) (rd : RegNum) :
    exec (.loadD am rd rs) s = .next { s with halted := some (.addressFault bad) } := by
  simp only [exec, execLoadD, loadOperand, readGpr_ok source, bind, Except.bind, readWord_fault faults]
  rfl

/-! ## What every instruction can do -/

/-- The registers `EXEC` of an instruction writes. -/
def writtenRegs : Instr → List RegNum
  | .addq rd _ => [rd]
  | .moveq rd _ => [rd]
  | .addR rd _ => [rd]
  | .loadD am rd rs => if am then [rd, rs] else [rd]
  | _ => []

/-- The live file `EXEC` of an instruction leaves where it completes. -/
def State.execFile (s : State) : Instr → RegFile
  | .addq rd imm => s.live.added rd (s.live.reg rd) imm
  | .moveq rd imm => s.live.setReg rd imm
  | .addR rd rs => s.live.added rd (s.live.reg rd) (s.live.reg rs)
  | .loadD am rd rs => (s.live.incremented am rs).setReg rd (s.loaded rs)
  | _ => s.live

/-- Everything the execution of an instruction is: a refusal, the AddressFault of a load, or the file it leaves, in which it wrote
ordinary registers, and then the end of the step (R107 to R109). -/
theorem exec_result (i : Instr) (s : State) :
    (∃ r, exec i s = .refused r) ∨
      ((∃ am rd rs, i = .loadD am rd rs) ∧ ∃ bad, exec i s = .next { s with halted := some (.addressFault bad) }) ∨
      ((∀ k ∈ writtenRegs i, s.hasReg k) ∧
        ∃ br, exec i s = outcome (finish s.live.pc i.opcode br (s.setLive (s.execFile i)))) := by
  cases i with
  | bccS c target =>
    rcases condHolds_cases c s with ⟨taken, h⟩ | h
    · exact .inr (.inr ⟨fun k hk => (List.not_mem_nil hk).elim, _, exec_bccS h target⟩)
    · exact .inl ⟨_, exec_bccS_refused h target⟩
  | bccW c target =>
    rcases condHolds_cases c s with ⟨taken, h⟩ | h
    · exact .inr (.inr ⟨fun k hk => (List.not_mem_nil hk).elim, _, exec_bccW h target⟩)
    · exact .inl ⟨_, exec_bccW_refused h target⟩
  | addq rd imm =>
    rcases hasReg_or_refused s rd with reg | ⟨r, h⟩
    · exact .inr (.inr ⟨by simpa [writtenRegs] using reg, _, exec_addq reg imm⟩)
    · exact .inl ⟨r, exec_addq_refused h imm⟩
  | moveq rd imm =>
    rcases hasReg_or_refused s rd with reg | ⟨r, h⟩
    · exact .inr (.inr ⟨by simpa [writtenRegs] using reg, _, exec_moveq reg imm⟩)
    · exact .inl ⟨r, exec_moveq_refused h imm⟩
  | addR rd rs =>
    rcases hasReg_or_refused s rd with dest | ⟨r, h⟩
    · rcases hasReg_or_refused s rs with source | ⟨r, h⟩
      · exact .inr (.inr ⟨by simpa [writtenRegs] using dest, _, exec_addR dest source⟩)
      · exact .inl ⟨r, exec_addR_refused_source dest h⟩
    · exact .inl ⟨r, exec_addR_refused_dest h rs⟩
  | loadD am rd rs =>
    rcases hasReg_or_refused s rs with source | ⟨r, h⟩
    · cases readable : s.firstFault .read 4 (s.live.reg rs) with
      | some bad => exact .inr (.inl ⟨⟨am, rd, rs, rfl⟩, bad, exec_loadD_fault source readable am rd⟩)
      | none =>
        rcases hasReg_or_refused s rd with dest | ⟨r, h⟩
        · refine .inr (.inr ⟨?_, _, exec_loadD dest source readable am⟩)
          cases am
          · simpa [writtenRegs] using dest
          · simpa [writtenRegs] using ⟨dest, source⟩
        · exact .inl ⟨r, exec_loadD_refused_dest source readable h am⟩
    · exact .inl ⟨r, exec_loadD_refused_source h am rd⟩
  | trap => exact .inr (.inr ⟨fun k hk => (List.not_mem_nil hk).elim, none, rfl⟩)
  | moveSprImmP7 _ => exact .inl ⟨_, rfl⟩
  | moveSprImmP11 _ => exact .inl ⟨_, rfl⟩
  | moveSprImm _ _ => exact .inl ⟨_, rfl⟩
  | moveSprReg _ _ => exact .inl ⟨_, rfl⟩

/-! ## The results under the REF table -/

/-- In REF only `TRAP` traps (R70). -/
theorem traps_ref {s : State} (table : s.params.table = refTable) (op : OpcodeId) : s.traps op = decide (op = .trap) :=
  itable_ref_trap table op

/-- The end of a step of a REF instruction but `TRAP`: its target, or the address after it (R107). -/
theorem outcome_finish_ref {s : State} (table : s.params.table = refTable) {op : OpcodeId} (plain : op ≠ .trap) {n : Nat}
    (length : (itable s.params op).byteLength = n) (p : Word) (br : Option Word) (f : RegFile) :
    outcome (finish p op br (s.setLive f)) = .next (s.setLive (f.setPc (br.getD (p + BitVec.ofNat 32 n)))) := by
  have traps : (s.setLive f).traps op = false := by
    rw [traps_ref (s := s.setLive f) table, decide_eq_false plain]
  rw [finish_plain traps, State.after, State_setLive_params, length]
  rfl

/-- Settles O28: `exec_addq`, then the end of the step. -/
theorem addqResult : Obligations.AddqResult := by
  intro rd imm s reg table
  rw [exec_addq reg, outcome_finish_ref table (by decide) (itable_ref table)]
  rfl

/-- Settles O29: `exec_moveq`, then the end of the step. -/
theorem moveqResult : Obligations.MoveqResult := by
  intro rd imm s reg table
  rw [exec_moveq reg, outcome_finish_ref table (by decide) (itable_ref table)]
  rfl

/-- Settles O30: `exec_addR`, then the end of the step. -/
theorem addRegisterResult : Obligations.AddRegisterResult := by
  intro rd rs s dest source table a b
  rw [exec_addR dest source, outcome_finish_ref table (by decide) (itable_ref table)]
  rfl

/-- Settles O31: `exec_loadD`, then the end of the step. -/
theorem loadResult : Obligations.LoadResult := by
  intro am rd rs s dest source table ea readable v f
  rw [exec_loadD dest source readable, outcome_finish_ref table (by decide) (itable_ref table)]
  cases am <;> rfl

/-- Settles O32: the read comes before any write, `exec_loadD_fault`. -/
theorem faultingLoadChangesNothing : Obligations.FaultingLoadChangesNothing := by
  intro am rd rs s bad source faults
  exact exec_loadD_fault source faults am rd

/-- Settles O33: each condition code's test is `condHolds`, and the target taken or not is the end of the step. -/
theorem branchResult : Obligations.BranchResult := by
  intro target s table
  have short (c : CondCode) (taken : Bool) (h : condHolds c s = .ok taken) :
      exec (.bccS c target) s = .next (s.setPc (if taken then target else s.live.pc + 2)) := by
    rw [exec_bccS h]
    refine (outcome_finish_ref table (by decide) (itable_ref table) _ _ s.live).trans ?_
    cases taken <;> rfl
  have word (c : CondCode) (taken : Bool) (h : condHolds c s = .ok taken) :
      exec (.bccW c target) s = .next (s.setPc (if taken then target else s.live.pc + 4)) := by
    rw [exec_bccW h]
    refine (outcome_finish_ref table (by decide) (itable_ref table) _ _ s.live).trans ?_
    cases taken <;> rfl
  refine ⟨short 0 _ rfl, ?_, short 14 true rfl, word 0 _ rfl, ?_, word 14 true rfl⟩
  · rw [short 1 _ rfl]
    cases s.live.z <;> rfl
  · rw [word 1 _ rfl]
    cases s.live.z <;> rfl

/-- Settles O35: `EXEC` of a special-register move is the refusal. -/
theorem specialRegisterMovesAreRefused : Obligations.SpecialRegisterMovesAreRefused :=
  fun _ _ _ _ => ⟨rfl, rfl, rfl, rfl⟩

/-! ## Frames -/

/-- An instruction that does not trap and gives a next state is a load that faulted, or leaves its file with some
`pc` and all else as it was (R107, R108). -/
theorem exec_next_plain {i : Instr} {s t : State} (plain : s.traps i.opcode = false) (h : exec i s = .next t) :
    ((∃ am rd rs, i = .loadD am rd rs) ∧ ∃ bad, t = { s with halted := some (.addressFault bad) }) ∨
      ∃ pc, t = s.setLive ((s.execFile i).setPc pc) := by
  rcases exec_result i s with ⟨r, e⟩ | ⟨load, bad, e⟩ | ⟨-, br, e⟩ <;> rw [e] at h
  · cases h
  · cases h
    exact .inl ⟨load, bad, rfl⟩
  · rw [finish_plain (s := s.setLive (s.execFile i)) plain] at h
    cases h
    exact .inr ⟨_, rfl⟩

/-- The file an instruction leaves has every register as it was but those it writes. -/
theorem execFile_reg (s : State) {i : Instr} {j : Nat} (other : j ∉ writtenRegs i) :
    (s.execFile i).reg j = s.live.reg j := by
  cases i with
  | addq rd imm | moveq rd imm | addR rd rs =>
    have ne : j ≠ rd := by simpa [writtenRegs] using other
    simp [State.execFile, RegFile.added, RegFile_setReg_reg, ne]
  | loadD am rd rs =>
    cases am with
    | false =>
      have ne : j ≠ rd := by simpa [writtenRegs] using other
      simp [State.execFile, RegFile.incremented, RegFile_setReg_reg, ne]
    | true =>
      have ne : j ≠ rd ∧ j ≠ rs := by simpa [writtenRegs] using other
      simp [State.execFile, RegFile.incremented, RegFile_setReg_reg, ne.1, ne.2]
  | _ => rfl

/-- An add writes no flag but `C`, `V`, `Z` and `N` (R112). -/
theorem added_readFlag_other (f : RegFile) (rd : RegNum) (a b : Word) {g : Flag} (other : g ∉ [Flag.C, .V, .Z, .N]) :
    (f.added rd a b).readFlag g = f.readFlag g := by
  rw [RegFile.added, RegFile_setReg_readFlag]
  cases g with
  | C | V | Z | N => exact absurd (by decide) other
  | _ => rfl

@[simp] theorem incremented_readFlag (f : RegFile) (am : Bool) (rs : RegNum) (g : Flag) :
    (f.incremented am rs).readFlag g = f.readFlag g := by
  cases am
  · rfl
  · exact RegFile_setReg_readFlag f rs _ g

theorem sameMemory_setLive (s : State) (f : RegFile) : s.sameMemory (s.setLive f) := fun _ => ⟨rfl, fun _ => rfl⟩

theorem sameEnvironment_setLive (s : State) (f : RegFile) : s.sameEnvironment (s.setLive f) :=
  ⟨rfl, rfl, rfl, rfl, rfl, rfl, rfl, rfl⟩

theorem sameRegsBut_setLive {s : State} {ks : List Nat} {f : RegFile} (h : ∀ j, j ∉ ks → f.reg j = s.live.reg j) (pc : Word) :
    s.sameRegsBut ks (s.setLive (f.setPc pc)) := fun j hj => h j hj

theorem sameFlagsBut_setLive {s : State} {fs : List Flag} {f : RegFile} (h : ∀ g, g ∉ fs → f.readFlag g = s.live.readFlag g)
    (pc : Word) : s.sameFlagsBut fs (s.setLive (f.setPc pc)) := fun g hg => (RegFile_setPc_readFlag f pc g).trans (h g hg)

/-- Settles O36: what each of these instructions leaves is its file, `exec_next_plain`, and it has the frame. -/
theorem registerInstructionFrame : Obligations.RegisterInstructionFrame := by
  intro rd rs imm target c s t onlyTrap
  have frame {i : Instr} (plain : i.opcode ≠ .trap) (noLoad : ∀ am rd rs, i ≠ .loadD am rd rs) {fs : List Flag}
      (flags : ∀ g, g ∉ fs → (s.execFile i).readFlag g = s.live.readFlag g) (h : exec i s = .next t) :
      s.sameRegsBut (writtenRegs i) t ∧ s.sameFlagsBut fs t ∧ s.sameMemory t ∧ s.sameEnvironment t ∧
        t.halted = s.halted := by
    rcases exec_next_plain (onlyTrap _ plain) h with ⟨⟨am, rd, rs, load⟩, -⟩ | ⟨pc, rfl⟩
    · exact absurd load (noLoad am rd rs)
    · exact ⟨sameRegsBut_setLive (fun j hj => execFile_reg s hj) pc, sameFlagsBut_setLive flags pc,
        sameMemory_setLive s _, sameEnvironment_setLive s _, rfl⟩
  refine ⟨?adds, ?moveq, ?branches⟩
  case adds =>
    rintro (h | h)
    · exact frame (i := .addq rd imm) nofun (fun _ _ _ => nofun) (fun g hg => added_readFlag_other _ _ _ _ hg) h
    · exact frame (i := .addR rd rs) nofun (fun _ _ _ => nofun) (fun g hg => added_readFlag_other _ _ _ _ hg) h
  case moveq =>
    exact frame (i := .moveq rd imm) nofun (fun _ _ _ => nofun) fun g _ => RegFile_setReg_readFlag _ _ _ g
  case branches =>
    rintro (h | h)
    · exact frame (i := .bccS c target) nofun (fun _ _ _ => nofun) (fun _ _ => rfl) h
    · exact frame (i := .bccW c target) nofun (fun _ _ _ => nofun) (fun _ _ => rfl) h

/-- Settles O37: a load that faulted changes the end of the run alone, and one that completes leaves its file. -/
theorem loadFrame : Obligations.LoadFrame := by
  intro am rd rs s t plain h
  rcases exec_next_plain (i := .loadD am rd rs) plain h with ⟨-, bad, rfl⟩ | ⟨pc, rfl⟩
  · exact ⟨fun _ _ => rfl, fun _ _ => rfl, fun _ => ⟨rfl, fun _ => rfl⟩, ⟨rfl, rfl, rfl, rfl, rfl, rfl, rfl, rfl⟩, .inr rfl⟩
  · have flags (g : Flag) : (s.execFile (.loadD am rd rs)).readFlag g = s.live.readFlag g := by
      rw [State.execFile, RegFile_setReg_readFlag, incremented_readFlag]
    exact ⟨sameRegsBut_setLive (fun j hj => execFile_reg s (i := .loadD am rd rs) hj) pc, sameFlagsBut_setLive (fun g _ => flags g) pc,
      sameMemory_setLive s _, sameEnvironment_setLive s _, .inl rfl⟩

/-! ## The flags that steer nothing -/

section
variable (s : State) (m x i : Bool) (ps : List Bool)

/-- Flags play no part in where an access faults. -/
theorem withStorageFlags_firstFault (kind : AccessKind) (n : Nat) (a : Word) :
    (s.withStorageFlags m x i ps).firstFault kind n a = s.firstFault kind n a :=
  firstFault_congr (s := s) (t := s.withStorageFlags m x i ps) rfl kind n a

/-- The end of a step of an opcode that does not trap leaves the storage flags as they were (R107). -/
theorem outcome_finish_withStorageFlags {op : OpcodeId} (plain : s.traps op = false) (p : Word) (br : Option Word)
    {f g : RegFile} (same : g = { f with m := m, x := x, i := i, ps := ps }) :
    outcome (finish p op br ((s.withStorageFlags m x i ps).setLive g)) =
      mapNext (·.withStorageFlags m x i ps) (outcome (finish p op br (s.setLive f))) := by
  rw [finish_plain (s := s.setLive f) plain, finish_plain (s := (s.withStorageFlags m x i ps).setLive g) plain, same]
  rfl

/-- Flags play no part in the bytes of memory. -/
theorem withStorageFlags_loaded (rs : RegNum) : (s.withStorageFlags m x i ps).loaded rs = s.loaded rs := by
  have bytes : (s.withStorageFlags m x i ps).bytesAt 4 (s.live.reg rs) = s.bytesAt 4 (s.live.reg rs) :=
    bytesAt_congr fun _ _ => rfl
  simp only [State.loaded]
  exact congrArg (fun bs => BitVec.ofNat 32 (assemble s.params.endian bs)) bytes

end

/-- Settles O38: each instruction's `EXEC` is the same function of the registers, `C`, `V`, `Z`, `N` and memory, whatever the
other flags are. -/
theorem storageFlagsSteerNothing : Obligations.StorageFlagsSteerNothing := by
  intro j s m x i ps plain
  have ends (br : Option Word) {f g : RegFile} (same : g = { f with m := m, x := x, i := i, ps := ps }) :=
    outcome_finish_withStorageFlags s m x i ps plain s.live.pc br same
  have branch (c : CondCode) : condHolds c (s.withStorageFlags m x i ps) = condHolds c s := rfl
  cases j with
  | bccS c target =>
    rcases condHolds_cases c s with ⟨taken, h⟩ | h
    · rw [exec_bccS h, exec_bccS ((branch c).trans h)]
      exact ends _ rfl
    · rw [exec_bccS_refused h, exec_bccS_refused ((branch c).trans h)]
      rfl
  | bccW c target =>
    rcases condHolds_cases c s with ⟨taken, h⟩ | h
    · rw [exec_bccW h, exec_bccW ((branch c).trans h)]
      exact ends _ rfl
    · rw [exec_bccW_refused h, exec_bccW_refused ((branch c).trans h)]
      rfl
  | addq rd imm =>
    rcases hasReg_or_refused s rd with reg | ⟨r, h⟩
    · rw [exec_addq reg, exec_addq (s := s.withStorageFlags m x i ps) reg]
      exact ends _ rfl
    · rw [exec_addq_refused h, exec_addq_refused (s := s.withStorageFlags m x i ps) h]
      rfl
  | moveq rd imm =>
    rcases hasReg_or_refused s rd with reg | ⟨r, h⟩
    · rw [exec_moveq reg, exec_moveq (s := s.withStorageFlags m x i ps) reg]
      exact ends _ rfl
    · rw [exec_moveq_refused h, exec_moveq_refused (s := s.withStorageFlags m x i ps) h]
      rfl
  | addR rd rs =>
    rcases hasReg_or_refused s rd with dest | ⟨r, h⟩
    · rcases hasReg_or_refused s rs with source | ⟨r, h⟩
      · rw [exec_addR dest source, exec_addR (s := s.withStorageFlags m x i ps) dest source]
        exact ends _ rfl
      · rw [exec_addR_refused_source dest h, exec_addR_refused_source (s := s.withStorageFlags m x i ps) dest h]
        rfl
    · rw [exec_addR_refused_dest h, exec_addR_refused_dest (s := s.withStorageFlags m x i ps) h]
      rfl
  | loadD am rd rs =>
    have access := withStorageFlags_firstFault s m x i ps .read 4 (s.live.reg rs)
    rcases hasReg_or_refused s rs with source | ⟨r, h⟩
    · cases readable : s.firstFault .read 4 (s.live.reg rs) with
      | some bad =>
        rw [exec_loadD_fault source readable, exec_loadD_fault (s := s.withStorageFlags m x i ps) source
          (access.trans readable)]
        rfl
      | none =>
        rcases hasReg_or_refused s rd with dest | ⟨r, h⟩
        · rw [exec_loadD dest source readable, exec_loadD (s := s.withStorageFlags m x i ps) dest source
            (access.trans readable), withStorageFlags_loaded]
          exact ends _ (by cases am <;> rfl)
        · rw [exec_loadD_refused_dest source readable h, exec_loadD_refused_dest (s := s.withStorageFlags m x i ps) source
            (access.trans readable) h]
          rfl
    · rw [exec_loadD_refused_source h, exec_loadD_refused_source (s := s.withStorageFlags m x i ps) h]
      rfl
  | trap => exact ends none rfl
  | moveSprImmP7 _ | moveSprImmP11 _ | moveSprImm _ _ | moveSprReg _ _ => rfl

/-! ## The flags of an add -/

/-- The 33-bit sum of two words, as a number. -/
theorem sum33_toNat (a b : Word) : (a.setWidth 33 + b.setWidth 33).toNat = a.toNat + b.toNat := by
  have := a.isLt
  have := b.isLt
  simp only [BitVec.toNat_add, BitVec.toNat_setWidth]
  omega

/-- The low 32 bits of the 33-bit sum are the sum (R112). -/
theorem sum33_setWidth (a b : Word) : (a.setWidth 33 + b.setWidth 33).setWidth 32 = a + b :=
  BitVec.eq_of_toNat_eq (by rw [BitVec.toNat_setWidth, sum33_toNat, BitVec.toNat_add])

/-- Bit 32 of the 33-bit sum is the carry out (D27). -/
theorem sum33_carry (a b : Word) : (a.setWidth 33 + b.setWidth 33).getLsbD 32 = decide (2 ^ 32 ≤ a.toNat + b.toNat) := by
  have := a.isLt
  have := b.isLt
  rw [BitVec.getLsbD, sum33_toNat, Nat.testBit_eq_decide_div_mod_eq, decide_eq_decide]
  omega

/-- Bit 31 of a word is its sign. -/
theorem bit_31_eq_msb (v : Word) : v.bit 31 = v.msb := (BitVec.msb_eq_getLsbD_last v).symm

/-- Operands of one sign with a sum of the other are a signed sum out of range (D27). -/
theorem overflow_eq (a b : Word) :
    (a.bit 31 == b.bit 31 && (a + b).bit 31 != a.bit 31) =
      decide (a.toInt + b.toInt < -2 ^ 31 ∨ 2 ^ 31 ≤ a.toInt + b.toInt) := by
  rw [bit_31_eq_msb, bit_31_eq_msb, bit_31_eq_msb, bne, ← BitVec.saddOverflow_eq, BitVec.saddOverflow, Bool.or_comm,
    Bool.decide_or]

section
variable (f : RegFile) (a b : Word)

theorem addFlags_v : (f.addFlags a b).v = (a.bit 31 == b.bit 31 && (a + b).bit 31 != a.bit 31) := by
  rw [← sum33_setWidth]
  rfl

theorem addFlags_z : (f.addFlags a b).z = (a + b == 0) := by
  rw [← sum33_setWidth]
  rfl

theorem addFlags_n : (f.addFlags a b).n = (a + b).bit 31 := by
  rw [← sum33_setWidth]
  rfl

end

/-- Settles O27: each flag is a fact about the 33-bit sum, in terms of the integers it stands for. -/
theorem addFlagsAreCarryAndOverflow : Obligations.AddFlagsAreCarryAndOverflow := by
  intro a b s
  refine ⟨rfl, sum33_carry a b, (addFlags_v s.live a b).trans (overflow_eq a b), (addFlags_z s.live a b).trans ?zero,
    (addFlags_n s.live a b).trans ?negative, fun g other => ?others, rfl, rfl⟩
  case zero =>
    rw [Bool.eq_iff_iff, beq_iff_eq, decide_eq_true_eq, ← BitVec.toNat_inj]
    rfl
  case negative =>
    rw [bit_31_eq_msb, BitVec.msb_eq_toInt]
  case others => exact added_readFlag_other s.live 0 a b other

end Sys2Proof.Machine
end

section
/-! The step loop: what a fetch answers and what a step does with it (R83, R88, R89, R107), the end of a run (R125), and the
state it starts in (R153). -/

namespace Sys2Proof.Machine

/-! ## The fetch -/

theorem bit_0_eq (v : Word) : v.bit 0 = decide (v.toNat % 2 = 1) := by
  simp [Word.bit, BitVec.getLsbD, Nat.testBit_eq_decide_div_mod_eq]

theorem bit_0_of_even {v : Word} (even : v.toNat % 2 = 0) : v.bit 0 = false := by
  rw [bit_0_eq, even]
  rfl

theorem bit_0_of_odd {v : Word} (odd : v.toNat % 2 = 1) : v.bit 0 = true := by
  rw [bit_0_eq, odd]
  rfl

theorem readMem_ok {s : State} {kind : AccessKind} {a : Word} {n : Nat} (granted : s.firstFault kind n a = none) :
    readMem kind a n s = .ok (s.bytesAt n a) := by simp only [readMem, granted]

/-- The base word at `pc` (R41). -/
def State.baseWord (s : State) : BaseWord := BitVec.ofNat 16 (assemble s.params.endian (s.bytesAt 2 s.live.pc))

/-- The `n` bytes after the base word at `pc`, as a number (R83). -/
def State.extension (s : State) (n : Nat) : Word :=
  BitVec.ofNat 32 (assemble s.params.endian (s.bytesAt n (s.live.pc + 2)))

section
variable {s : State}

theorem fetchDecode_unsupported (unsupported : tableSupported s.params.table = false) :
    fetchDecode s = .ok (.refused .unsupportedLength) := by
  simp only [fetchDecode, unsupported, Bool.not_false, if_true]

theorem fetchDecode_odd (supported : tableSupported s.params.table = true) (odd : s.live.pc.toNat % 2 = 1) :
    fetchDecode s = .error (.fault (.misalignedFetch s.live.pc)) := by
  simp only [fetchDecode, supported, Bool.not_true, Bool.false_eq_true, if_false, bit_0_of_odd odd, if_true]

variable (supported : tableSupported s.params.table = true) (even : s.live.pc.toNat % 2 = 0)
include supported even

theorem fetchDecode_base_fault {bad : Word} (faults : s.firstFault .execute 2 s.live.pc = some bad) :
    fetchDecode s = .error (.halt (.addressFault bad) s) := by
  simp only [fetchDecode, supported, Bool.not_true, Bool.false_eq_true, if_false, bit_0_of_even even,
    readMem_eq_addressFault faults]
  rfl

variable (base : s.firstFault .execute 2 s.live.pc = none)
include base

theorem fetchDecode_unselected (none : selectIn s.params.table s.baseWord = none) :
    fetchDecode s = .ok (.invalid (.noRule s.baseWord)) := by
  rw [State.baseWord] at none
  simp only [fetchDecode, supported, Bool.not_true, Bool.false_eq_true, if_false, bit_0_of_even even,
    readMem_ok base, bind, Except.bind, none]
  rfl

variable {r : DecodeRule} (selected : selectIn s.params.table s.baseWord = some r)
include selected

theorem fetchDecode_ext_fault {bad : Word} (faults : s.firstFault .execute r.extLen (s.live.pc + 2) = some bad) :
    fetchDecode s = .error (.halt (.addressFault bad) s) := by
  rw [State.baseWord] at selected
  simp only [fetchDecode, supported, Bool.not_true, Bool.false_eq_true, if_false, bit_0_of_even even,
    readMem_ok base, bind, Except.bind, selected, readMem_eq_addressFault faults]
  rfl

theorem fetchDecode_selected (ext : s.firstFault .execute r.extLen (s.live.pc + 2) = none) :
    fetchDecode s = .ok (decodeRule s.params r s.baseWord (s.extension r.extLen) s.live.pc s.live.m) := by
  rw [State.baseWord] at selected
  simp only [fetchDecode, supported, Bool.not_true, Bool.false_eq_true, if_false, bit_0_of_even even,
    readMem_ok base, bind, Except.bind, selected, readMem_ok ext]
  rfl

end

/-! ## The step -/

section
variable {s : State} (running : s.halted = none)
include running

theorem step_of_decode {d : Decoded} (h : fetchDecode s = .ok d) : step s = execDecoded d s := by
  simp only [step, running, h]

theorem step_of_stop {e : Stop} (h : fetchDecode s = .error e) : step s = outcome (.error e) := by
  simp only [step, running, h]

/-- A step of a decode result whose opcode the semantics do not leave out (R107, R111). -/
theorem step_of_instr {d : DecodedInstr} (h : fetchDecode s = .ok (.instr d)) (valid : d.opcode ≠ .invalid)
    (implemented : d.opcode ∉ s.params.unimplemented) :
    step s = match s.refInstr d with
      | some i => exec i s
      | none => execOpen d s := by
  have implemented' : s.params.unimplemented.contains d.opcode = false := by simpa using implemented
  rw [step_of_decode running h, execDecoded, if_neg valid, implemented']
  rfl

end

/-- Settles O12: each check's answer of the fetch, in the order of R89, and what the step does with it. -/
theorem fetchFaultsInOrder : Obligations.FetchFaultsInOrder := by
  intro s running
  refine ⟨fun unsupported => ?_, fun supported => ⟨fun odd => ?_, fun even bad faults => ?_, fun even base => ⟨fun none => ?_,
    fun r selected => ⟨fun bad faults => ?_, fun ext => ?_⟩⟩⟩⟩
  · rw [step_of_decode running (fetchDecode_unsupported unsupported)]
    rfl
  · rw [step_of_stop running (fetchDecode_odd supported odd)]
    rfl
  · rw [step_of_stop running (fetchDecode_base_fault supported even faults)]
    rfl
  · rw [step_of_decode running (fetchDecode_unselected supported even base none)]
    rfl
  · rw [step_of_stop running (fetchDecode_ext_fault supported even base selected faults)]
    rfl
  · have decoded := step_of_decode running (fetchDecode_selected supported even base selected ext)
    refine ⟨fun fails => ?_, fun why refused => ?_, fun d instr => ⟨fun invalid => ?_, fun valid left_out => ?_⟩⟩
    · rw [decoded]
      exact congrArg (execDecoded · s) (decodeRule_of_extOk_false fails _ _ _ _)
    · rw [decoded]
      exact congrArg (execDecoded · s) refused
    · rw [decoded]
      refine (congrArg (execDecoded · s) instr).trans ?_
      simp only [execDecoded, if_pos invalid]
      rfl
    · rw [decoded]
      refine (congrArg (execDecoded · s) instr).trans ?_
      simp only [execDecoded, if_neg valid, List.contains_iff_mem.2 left_out, if_true]

/-! ## The step of an encoded instruction -/

/-- A read of more bytes is the bytes of both parts. -/
theorem bytesAt_add (s : State) (n k : Nat) (a : Word) :
    s.bytesAt (n + k) a = s.bytesAt n a ++ s.bytesAt k (a + BitVec.ofNat 32 n) := by
  induction n generalizing a with
  | zero => simp [State.bytesAt]
  | succ n ih => rw [Nat.succ_add, State.bytesAt, ih, next_address, State.bytesAt, List.cons_append]

/-- A granted access is granted for both of its parts. -/
theorem firstFault_add_none {s : State} {kind : AccessKind} {n k : Nat} {a : Word} (h : s.firstFault kind (n + k) a = none) :
    s.firstFault kind n a = none ∧ s.firstFault kind k (a + BitVec.ofNat 32 n) = none := by
  rw [firstFault_none_iff] at h
  refine ⟨(firstFault_none_iff ..).2 fun j hj => h j (by omega), (firstFault_none_iff ..).2 fun j hj => ?_⟩
  rw [add_assoc, ← BitVec.ofNat_add]
  exact h (n + j) (by omega)

/-- The fetch of an instruction's encoding answers the instruction (R83). -/
theorem fetchDecode_encode {s : State} {i : Instr} (table : s.params.table = refTable) (even : s.live.pc.toNat % 2 = 0)
    (wf : i.wellFormed s.params s.live.pc s.live.m = true)
    (granted : s.firstFault .execute (2 + refTable[i.row].extLen) s.live.pc = none)
    (bytes : s.bytesAt (2 + refTable[i.row].extLen) s.live.pc = encode s.params s.live.pc s.live.m i) :
    fetchDecode s = .ok (.instr i.decoded) := by
  obtain ⟨base, ext⟩ := firstFault_add_none granted
  rw [bytesAt_add, encode] at bytes
  obtain ⟨baseBytes, extBytes⟩ := List.append_inj bytes (by simp)
  have word : s.baseWord = encodeBase s.params s.live.pc s.live.m i := by
    rw [State.baseWord, baseBytes, base_of_bytes]
  have extension : s.extension refTable[i.row].extLen = extWord s.params s.live.pc s.live.m i := by
    rw [State.extension, extWord, ← extBytes]
    rfl
  have selected := selectIn_encodeBase table wf
  rw [← word] at selected
  rw [fetchDecode_selected (table ▸ refTable_supported) even base selected ext, word, extension, decodeRule_encode wf]

/-- In REF an instruction is as long as its row says (R66). -/
theorem descriptor_length {p : Params} (table : p.table = refTable) (i : Instr) :
    (i.descriptor p).byteLength = 2 + refTable[i.row].extLen := by
  rw [Instr.descriptor, itable_ref table]
  cases i <;> rfl

theorem opcode_ne_invalid (i : Instr) : i.opcode ≠ .invalid := by cases i <;> nofun

/-- Settles O11: the fetch of an encoding answers its instruction, `fetchDecode_encode`, and a step runs what the fetch
answers, `step_of_instr`. -/
theorem stepRunsTheDecodedInstruction : Obligations.StepRunsTheDecodedInstruction := by
  refine ⟨fun s i table refExec implemented running even wf granted bytes => ?encoded,
    fun s d running decoded valid implemented => ⟨?ref, ?free⟩⟩
  case encoded =>
    rw [descriptor_length table] at granted bytes
    have decoded := fetchDecode_encode table even wf granted bytes
    rw [step_of_instr running decoded (opcode_ne_invalid i) implemented, State.refInstr, refExec, if_pos rfl,
      instr?_decoded]
  case ref =>
    intro i refExec instr
    rw [step_of_instr running decoded valid implemented, State.refInstr, refExec, if_pos rfl, instr]
  case free =>
    intro open_
    have noRef : s.refInstr d = none := by
      rcases open_ with other | none
      · rw [State.refInstr, other]
        rfl
      · rw [State.refInstr, none, ite_self]
    rw [step_of_instr running decoded valid implemented, noRef]

/-! ## The end and the start of a run -/

/-- Settles O14: a final status is that of a halt, after which `step` is the fault (R125). -/
theorem haltedRunTakesNoStep : Obligations.HaltedRunTakesNoStep := by
  intro _ t _ status final
  obtain ⟨h, halted, rfl⟩ := Option.map_eq_some_iff.1 final
  exact step_of_halted halted

/-- A thread that starts with its slots at the default holds the default at every number (R139, R153). -/
theorem handler_of_default {t : Thread} (slots : t.handlers = Thread.empty.handlers) (k : Nat) : t.handler k = .default := by
  rw [Thread.handler, slots]
  by_cases inRange : k < 64 <;> simp [Thread.empty, inRange]

/-- Settles O15: the fields of the state a run starts in. -/
theorem startOfARun : Obligations.StartOfARun := by
  refine ⟨fun file tid mem regions launch replies => ?_, rfl, rfl, rfl⟩
  exact ⟨rfl, rfl, rfl, rfl, rfl, rfl, rfl, rfl, rfl, rfl, handler_of_default rfl, rfl, rfl, rfl⟩

end Sys2Proof.Machine
end

section
/-! The Register File's ports (R94 to R102) and the switch of a thread (R105). -/

namespace Sys2Proof.Machine

/-! ## General registers -/

/-- Settles O16: an ordinary register is read and written as `readGpr_ok` and `writeGpr_ok` say, and any other number is
refused by `checkReg`. -/
theorem generalRegisterPorts : Obligations.GeneralRegisterPorts := by
  refine ⟨fun s i v reg => ?ordinary, fun s v i => ⟨fun alias_ exists_ => ?aliasing, fun beyond => ?outOfRange⟩⟩
  case ordinary =>
    have reg' : (s.setReg i v).hasReg i := reg
    refine ⟨s.setReg i v, writeGpr_ok v reg, ?_, fun j other => ?_, fun j other => ?_, rfl, fun _ _ => ?_, rfl⟩
    · rw [readGpr_ok reg', State_setReg_live, RegFile_setReg_reg_self]
    · exact RegFile_setReg_reg_other s.live v (by simpa using other)
    · simp only [readGpr, State_setReg_params, State_setReg_live, RegFile_setReg_reg_other s.live v other]
    · exact RegFile_setReg_readFlag s.live i v _
  case aliasing =>
    have refused := checkReg_alias exists_ alias_
    exact ⟨readGpr_refused refused, writeGpr_refused refused v⟩
  case outOfRange =>
    have refused := checkReg_range (p := s.params) beyond
    exact ⟨readGpr_refused refused, writeGpr_refused refused v⟩

/-! ## The flags word -/

/-- Under an injective layout the flags word holds a flag at its position (R27, R100). -/
theorem readFlags_bit_position {layout : FlagLayout} (distinct : layoutInjective layout) (f : RegFile) {fl : Flag}
    (has : fl.named layout = true) : (f.readFlags layout).bit (fl.position layout) = f.readFlag fl := by
  have mem : fl ∈ Flag.all layout := Flag_mem_all.2 has
  rw [Word.bit, readFlags_bit, decide_eq_true (position_lt layout fl), Bool.true_and, Bool.eq_iff_iff, List.any_eq_true]
  constructor
  · rintro ⟨g, hg, h⟩
    obtain ⟨same, set⟩ := Bool.and_eq_true_iff.1 h
    rwa [← List.inj_on_of_nodup_map distinct hg mem (of_decide_eq_true same)]
  · exact fun set => ⟨fl, mem, by rw [decide_eq_true rfl, Bool.true_and, set]⟩

theorem layoutInjective_ref : layoutInjective Params.ref.layout := by unfold layoutInjective; decide

/-- Settles O18: each flag lies at its position, and no flag of REF has a position above 10. -/
theorem flagsWordLayout : Obligations.FlagsWordLayout := by
  intro f w
  have at_ (fl : Flag) (has : fl.named Params.ref.layout = true) : w.bit (fl.position Params.ref.layout) = f.readFlag fl :=
    readFlags_bit_position layoutInjective_ref f has
  refine ⟨at_ .C rfl, at_ .V rfl, at_ .Z rfl, at_ .N rfl, at_ .X rfl, at_ .I rfl, at_ (.PS 0) rfl, at_ (.PS 1) rfl,
    at_ (.PS 2) rfl, at_ (.PS 3) rfl, at_ .M rfl, fun k reserved => ?_⟩
  have below : ∀ fl ∈ Flag.all Params.ref.layout, fl.position Params.ref.layout < 11 := by decide
  rw [Word.bit, readFlags_bit, Bool.and_eq_false_iff, List.any_eq_false]
  refine .inr fun fl mem => ?_
  have away : fl.position Params.ref.layout ≠ k := by have := below fl mem; omega
  simp [away]

/-- A write of the flags word that a file gives leaves the file as it was (R102). -/
theorem writeFlags_readFlags {layout : FlagLayout} (distinct : layoutInjective layout) {f : RegFile}
    (length : f.ps.length = layout.ps.length) : f.writeFlags layout (f.readFlags layout) = f := by
  refine RegFile_ext (by simp) (by simp) (by simp) fun fl => ?_
  rw [writeFlags_readFlag f _ fl length]
  split
  next mem => exact readFlags_bit_position distinct f (Flag_mem_all.1 mem)
  next => rfl

/-- The flags word that was written reads back under the mask (R102). -/
theorem readFlags_writeFlags {layout : FlagLayout} {f : RegFile} (length : f.ps.length = layout.ps.length) (v : Word) :
    (f.writeFlags layout v).readFlags layout = v &&& flagMask layout := by
  refine BitVec.eq_of_getLsbD_eq fun k hk => ?_
  rw [readFlags_bit, BitVec.getLsbD_and, flagMask_bit, decide_eq_true hk, Bool.true_and, Bool.true_and, Bool.eq_iff_iff,
    Bool.and_eq_true, List.any_eq_true, List.any_eq_true]
  have written (fl : Flag) (mem : fl ∈ Flag.all layout) :
      (f.writeFlags layout v).readFlag fl = v.getLsbD (fl.position layout) := by
    rw [writeFlags_readFlag f v fl length, if_pos mem, Word.bit]
  constructor
  · rintro ⟨fl, mem, h⟩
    obtain ⟨here, set⟩ := Bool.and_eq_true_iff.1 h
    rw [written fl mem, of_decide_eq_true here] at set
    exact ⟨set, fl, mem, here⟩
  · rintro ⟨set, fl, mem, here⟩
    refine ⟨fl, mem, Bool.and_eq_true_iff.2 ⟨here, ?_⟩⟩
    rw [written fl mem, of_decide_eq_true here, set]

/-- Settles O19: the two laws on the live file, and REF's layout evaluated. -/
theorem flagsWordLaws : Obligations.FlagsWordLaws := by
  refine ⟨fun s distinct shaped => ⟨?_, fun v => ?_⟩, layoutInjective_ref, by decide⟩
  · exact congrArg s.setLive (writeFlags_readFlags distinct (RegFile_shaped_ps_length shaped))
  · exact readFlags_writeFlags (RegFile_shaped_ps_length shaped) v

/-! ## The switch -/

/-- A thread whose file is parked takes it out of its slot (R105). -/
theorem unpark_of_parked {s : State} {k : Nat} {f : RegFile} (parked : (s.thread k).parked = some f) :
    s.unpark k = { s.setThread k { s.thread k with parked := none } with live := f, cur := k } := by
  simp only [State.unpark, parked]

/-- The record of the thread that leaves takes the live file, where the thread is live (R105). -/
theorem switchTo_of_live {s : State} {k : Nat} (other : k ≠ s.cur) (live : s.current.live = true) :
    s.switchTo k = (s.setCurrent { s.current with parked := some s.live }).unpark k := by
  rw [State.switchTo, if_neg other, if_pos live]
  rfl

/-- Settles O20: the leaving thread's record is written first, then the entering one's. -/
theorem switchMovesWholeFiles : Obligations.SwitchMovesWholeFiles := by
  intro s k f current inTable other live parked t
  let out := s.setCurrent { s.current with parked := some s.live }
  have entering : out.thread k = s.thread k := thread_setThread_other s _ other
  have length : k < out.threads.length := by simpa [out] using inTable
  have switched : t = { out.setThread k { s.thread k with parked := none } with live := f, cur := k } := by
    rw [← entering, ← unpark_of_parked (entering ▸ parked)]
    exact switchTo_of_live other live
  rw [switched]
  refine ⟨rfl, rfl, thread_setThread_self out _ length, ?_, fun j notIn notOut => ?_⟩
  · exact (thread_setThread_other out _ other.symm).trans (thread_setThread_self s _ current)
  · exact (thread_setThread_other out _ notIn).trans (thread_setThread_other s _ notOut)

end Sys2Proof.Machine
end

section
/-! The memory substrate (R36 to R43, R52): what a read after a write gives, and where an access faults. -/

namespace Sys2Proof.Machine

/-- A write that is granted stores its bytes and changes nothing else (R38). -/
theorem writeMem_ok {s : State} {a : Word} {bs : List Byte} (granted : s.firstFault .write bs.length a = none) :
    writeMem a bs s = .ok { s with mem := Memory.storeBytes a bs s.mem } := by simp only [writeMem, granted]

theorem writeMem_ok_iff {s t : State} {a : Word} {bs : List Byte} :
    writeMem a bs s = .ok t ↔
      s.firstFault .write bs.length a = none ∧ t = { s with mem := Memory.storeBytes a bs s.mem } := by
  rcases writeMem_cases a bs s with ⟨granted, e⟩ | ⟨bad, faults, e⟩ <;> rw [e]
  · exact ⟨fun h => ⟨granted, (Except.ok.inj h).symm⟩, fun h => by rw [h.2]⟩
  · exact ⟨fun h => (nomatch h), fun h => by rw [faults] at h; exact (nomatch h.1)⟩

/-- A byte that was stored reads back (R52). -/
theorem byteAt_stored {s t : State} {a : Word} {bs : List Byte} (mem : t.mem = Memory.storeBytes a bs s.mem)
    (length : bs.length ≤ 2 ^ 32) {k : Nat} (hk : k < bs.length) : t.byteAt (a + BitVec.ofNat 32 k) = bs[k] := by
  rw [State.byteAt, mem, Memory.lookup_storeBytes_self a bs s.mem length hk]

/-- A byte that was not stored is as it was (R52). -/
theorem byteAt_other {s t : State} {a b : Word} {bs : List Byte} (mem : t.mem = Memory.storeBytes a bs s.mem)
    (regions : t.regions = s.regions) (other : ∀ k, k < bs.length → b ≠ a + BitVec.ofNat 32 k) :
    t.byteAt b = s.byteAt b := by
  simp only [State.byteAt, State.regionAt, mem, regions, Memory.lookup_storeBytes_other a b bs s.mem other]

theorem getElem_bytesAt (s : State) {n k : Nat} (a : Word) (hk : k < (s.bytesAt n a).length) :
    (s.bytesAt n a)[k] = s.byteAt (a + BitVec.ofNat 32 k) := by
  induction n generalizing a k with
  | zero => simp [State.bytesAt] at hk
  | succ n ih =>
    cases k with
    | zero => simp [State.bytesAt]
    | succ k =>
      rw [← next_address]
      exact ih (a + 1) (by simpa [State.bytesAt] using hk)

/-- Bytes that were stored read back (R52). -/
theorem bytesAt_stored {s t : State} {a : Word} {bs : List Byte} (mem : t.mem = Memory.storeBytes a bs s.mem)
    (length : bs.length ≤ 2 ^ 32) : t.bytesAt bs.length a = bs := by
  refine List.ext_getElem (bytesAt_length ..) fun k hk hk' => ?_
  rw [getElem_bytesAt, byteAt_stored mem length hk']

/-- Settles O21: the stored bytes and the others, by `byteAt_stored` and `byteAt_other`. -/
theorem memoryReadsBackLastWrite : Obligations.MemoryReadsBackLastWrite := by
  intro s t a bs length written
  obtain ⟨-, stored⟩ := writeMem_ok_iff.1 written
  have mem : t.mem = Memory.storeBytes a bs s.mem := by rw [stored]
  have regions : t.regions = s.regions := by rw [stored]
  refine ⟨fun k hk => byteAt_stored mem length hk, fun b other => byteAt_other mem regions other, fun readable => ?_⟩
  rw [readMem_ok ((firstFault_congr regions ..).trans readable), bytesAt_stored mem length]

/-- Settles O22: the four bytes of a word by weight, in each byte order. -/
theorem wordsAreLittleEndian : Obligations.WordsAreLittleEndian := by
  refine ⟨rfl, fun s a readable => ⟨_, readWord_ok readable, fun little => ?_, fun big => ?_⟩⟩
  all_goals
    have bytes : s.bytesAt 4 a = [s.byteAt a, s.byteAt (a + 1), s.byteAt (a + 2), s.byteAt (a + 3)] := by
      simp [State.bytesAt, BitVec.add_assoc]
    have b0 := (s.byteAt a).isLt
    have b1 := (s.byteAt (a + 1)).isLt
    have b2 := (s.byteAt (a + 2)).isLt
    have b3 := (s.byteAt (a + 3)).isLt
  · rw [little, bytes, BitVec.toNat_ofNat]
    simp only [assemble, List.foldr_cons, List.foldr_nil]
    omega
  · rw [big, bytes, BitVec.toNat_ofNat]
    simp only [assemble, List.foldl_cons, List.foldl_nil]
    omega

/-- An access faults at the first byte that is not accessible (R38). -/
theorem firstFault_eq_some_iff {s : State} {kind : AccessKind} {n : Nat} {a bad : Word} :
    s.firstFault kind n a = some bad ↔ ∃ k, k < n ∧ bad = a + BitVec.ofNat 32 k ∧ s.accessible kind bad = false ∧
      ∀ j, j < k → s.accessible kind (a + BitVec.ofNat 32 j) = true := by
  induction n generalizing a with
  | zero => simp [State.firstFault]
  | succ n ih =>
    cases granted : s.accessible kind a with
    | false =>
      simp only [State.firstFault, granted, Bool.false_eq_true, if_false, Option.some.injEq]
      constructor
      · rintro rfl
        exact ⟨0, by omega, by simp, granted, fun j hj => absurd hj (Nat.not_lt_zero j)⟩
      · rintro ⟨k, -, rfl, -, before⟩
        cases k with
        | zero => simp
        | succ k => simpa [granted] using before 0 (by omega)
    | true =>
      simp only [State.firstFault, granted, if_true, ih]
      constructor
      · rintro ⟨k, hk, rfl, denied, before⟩
        refine ⟨k + 1, by omega, next_address a k, denied, fun j hj => ?_⟩
        cases j with
        | zero => simpa using granted
        | succ j => rw [← next_address]; exact before j (by omega)
      · rintro ⟨k, hk, rfl, denied, before⟩
        cases k with
        | zero => simp [granted] at denied
        | succ k =>
          refine ⟨k, by omega, (next_address a k).symm, denied, fun j hj => ?_⟩
          rw [next_address]
          exact before (j + 1) (by omega)

theorem readMem_addressFault_iff {s : State} {kind : AccessKind} {n : Nat} {a bad : Word} :
    readMem kind a n s = .error (.halt (.addressFault bad) s) ↔ s.firstFault kind n a = some bad := by
  rcases readMem_cases kind a n s with ⟨granted, e⟩ | ⟨bad', faults, e⟩ <;> rw [e]
  · simp [granted]
  · simp [faults]

theorem writeMem_addressFault_iff {s : State} {a bad : Word} {bs : List Byte} :
    writeMem a bs s = .error (.halt (.addressFault bad) s) ↔ s.firstFault .write bs.length a = some bad := by
  rcases writeMem_cases a bs s with ⟨granted, e⟩ | ⟨bad', faults, e⟩ <;> rw [e]
  · simp [granted]
  · simp [faults]

/-- Settles O23: an access faults where `firstFault` names a byte, and it names the first that is not accessible. -/
theorem faultNamesTheFirstBadByte : Obligations.FaultNamesTheFirstBadByte := by
  intro s a bad first
  exact ⟨fun kind n => readMem_addressFault_iff.trans firstFault_eq_some_iff,
    fun bs => writeMem_addressFault_iff.trans firstFault_eq_some_iff⟩

end Sys2Proof.Machine
end

section
/-! The mapped-page list and the calls that change it (R46 to R50). -/

namespace Sys2Proof.Machine

/-! ## The unsupported-call policy -/

/-- Everything the policy can do: it returns the cause's errno or ends the run, and changes the diagnostics alone (R126). -/
theorem unsupported_cases (cause : UnsupportedCause) (s : State) :
    (∃ ds, unsupported cause s = .ok (.ret (Config.errnoWord cause.errno) { s with diagnostics := ds })) ∨
    ∃ h ds, unsupported cause s = .error (.halt h { s with diagnostics := ds }) := by
  simp only [unsupported]
  split
  · exact .inl ⟨s.diagnostics, rfl⟩
  · exact .inl ⟨_, rfl⟩
  · exact .inr ⟨_, _, rfl⟩

/-! ## The page list -/

theorem mem_insertPage {p q : Word} {l : List Word} : q ∈ insertPage p l ↔ q = p ∨ q ∈ l := by
  induction l with
  | nil => simp [insertPage]
  | cons a l ih =>
    simp only [insertPage]
    split
    · simp
    · simp only [List.mem_cons, ih]; tauto

/-- A new page goes to its place in the descending order (R46). -/
theorem insertPage_descending {p : Word} {l : List Word} (sorted : l.Pairwise (fun p q => q.toNat < p.toNat))
    (new : p ∉ l) : (insertPage p l).Pairwise (fun p q => q.toNat < p.toNat) := by
  induction l with
  | nil => simp [insertPage]
  | cons a l ih =>
    obtain ⟨below, sorted⟩ := List.pairwise_cons.1 sorted
    obtain ⟨apart, new⟩ := not_or.1 (fun h => new (List.mem_cons.2 h))
    simp only [insertPage]
    split
    case isTrue higher =>
      refine List.pairwise_cons.2 ⟨fun q hq => ?_, List.pairwise_cons.2 ⟨below, sorted⟩⟩
      rcases List.mem_cons.1 hq with rfl | hq
      · exact higher
      · exact (below q hq).trans higher
    case isFalse lower =>
      refine List.pairwise_cons.2 ⟨fun q hq => ?_, ih sorted new⟩
      rcases mem_insertPage.1 hq with rfl | hq
      · have : q.toNat ≠ a.toNat := fun e => apart (BitVec.eq_of_toNat_eq e)
        omega
      · exact below q hq

theorem erase_insertPage {p : Word} {l : List Word} (new : p ∉ l) : (insertPage p l).erase p = l := by
  induction l with
  | nil => simp [insertPage]
  | cons a l ih =>
    obtain ⟨apart, new⟩ := not_or.1 (fun h => new (List.mem_cons.2 h))
    simp only [insertPage]
    split
    · simp
    · rw [List.erase_cons_tail (by simpa using Ne.symm apart), ih new]

/-- The page list with several pages put into it. -/
def insertPages (addrs l : List Word) : List Word := addrs.foldl (fun l p => insertPage p l) l

theorem mem_insertPages {addrs l : List Word} {q : Word} : q ∈ insertPages addrs l ↔ q ∈ addrs ∨ q ∈ l := by
  induction addrs generalizing l with
  | nil => simp [insertPages]
  | cons p rest ih =>
    rw [show insertPages (p :: rest) l = insertPages rest (insertPage p l) from rfl, ih, mem_insertPage, List.mem_cons]
    tauto

/-- The pages after the first are new to the list that has taken the first. -/
theorem insertPages_new_rest {p : Word} {rest l : List Word} (apart : (p :: rest).Nodup)
    (new : ∀ q ∈ p :: rest, q ∉ l) : ∀ q ∈ rest, q ∉ insertPage p l := by
  intro q hq old
  rcases mem_insertPage.1 old with rfl | old
  · exact (List.nodup_cons.1 apart).1 hq
  · exact new q (List.mem_cons_of_mem _ hq) old

theorem insertPages_descending {addrs l : List Word} (sorted : l.Pairwise (fun p q => q.toNat < p.toNat))
    (apart : addrs.Nodup) (new : ∀ p ∈ addrs, p ∉ l) :
    (insertPages addrs l).Pairwise (fun p q => q.toNat < p.toNat) := by
  induction addrs generalizing l with
  | nil => exact sorted
  | cons p rest ih =>
    exact ih (insertPage_descending sorted (new p (List.mem_cons_self ..))) (List.nodup_cons.1 apart).2
      (insertPages_new_rest apart new)

/-- Erasing the pages in the reverse order undoes putting them in (R48). -/
theorem erase_insertPages {addrs l : List Word} (apart : addrs.Nodup) (new : ∀ p ∈ addrs, p ∉ l) :
    addrs.reverse.foldl List.erase (insertPages addrs l) = l := by
  induction addrs generalizing l with
  | nil => rfl
  | cons p rest ih =>
    have undone := ih (List.nodup_cons.1 apart).2 (insertPages_new_rest apart new)
    rw [List.reverse_cons, List.foldl_append]
    show List.foldl List.erase (List.foldl List.erase (insertPages rest (insertPage p l)) rest.reverse) [p] = l
    rw [undone]
    exact erase_insertPage (new p (List.mem_cons_self ..))

/-! ## Creating and destroying pages -/

/-- What every page created keeps, the whole request keeps (R47). -/
theorem mapPages_keeps {P : State → Prop} {perm : Perm} (page : ∀ s p, P s → P (s.mapPage perm p)) (addrs : List Word)
    {s : State} (h : P s) : P (s.mapPages perm addrs) := by
  induction addrs generalizing s with
  | nil => exact h
  | cons p rest ih => exact ih (page s p h)

/-- What every page destroyed keeps, the whole request keeps (R48). -/
theorem unmapPages_keeps {P : State → Prop} (page : ∀ s p, P s → P (s.unmapPage p)) (addrs : List Word)
    {s : State} (h : P s) : P (s.unmapPages addrs) := by
  rw [State.unmapPages]
  generalize addrs.reverse = l
  induction l generalizing s with
  | nil => exact h
  | cons p rest ih => exact ih (page s p h)

theorem mapPages_pages (perm : Perm) (addrs : List Word) (s : State) :
    (s.mapPages perm addrs).pages = insertPages addrs s.pages :=
  (List.foldl_hom State.pages (l := addrs) fun _ _ => rfl).symm

theorem unmapPages_pages (addrs : List Word) (s : State) :
    (s.unmapPages addrs).pages = addrs.reverse.foldl List.erase s.pages :=
  (List.foldl_hom State.pages (l := addrs.reverse) fun _ _ => rfl).symm

@[simp] theorem mapPages_launch (perm : Perm) (addrs : List Word) (s : State) :
    (s.mapPages perm addrs).launch = s.launch :=
  mapPages_keeps (P := fun t => t.launch = s.launch) (fun _ _ h => h) addrs rfl

@[simp] theorem unmapPages_launch (addrs : List Word) (s : State) : (s.unmapPages addrs).launch = s.launch :=
  unmapPages_keeps (P := fun t => t.launch = s.launch) (fun _ _ h => h) addrs rfl

/-- The regions of the pages created lie before the others, one at each page, each with the permission asked for and of a
page's length (R47). -/
theorem mapPages_regions (perm : Perm) (addrs : List Word) (s : State) :
    ∃ new, (s.mapPages perm addrs).regions = new ++ s.regions ∧
      (∀ r ∈ new, r.perm = perm ∧ r.len = s.params.pageSize) ∧ ∀ p ∈ addrs, ∃ r ∈ new, r.base = p := by
  induction addrs generalizing s with
  | nil => exact ⟨[], rfl, by simp, by simp⟩
  | cons p rest ih =>
    obtain ⟨new, regions, kind, placed⟩ := ih (s.mapPage perm p)
    refine ⟨new ++ [⟨p, s.params.pageSize, perm, s.attachCount⟩], ?_, fun r hr => ?_, fun q hq => ?_⟩
    · rw [List.append_assoc]; exact regions
    · rcases List.mem_append.1 hr with hr | hr
      · exact kind r hr
      · rw [List.mem_singleton.1 hr]; exact ⟨rfl, rfl⟩
    · rcases List.mem_cons.1 hq with rfl | hq
      · exact ⟨_, List.mem_append_right _ (List.mem_singleton_self _), rfl⟩
      · obtain ⟨r, hr, base⟩ := placed q hq
        exact ⟨r, List.mem_append_left _ hr, base⟩

/-- A byte that one of the newest regions covers has their permission (R37, R39). -/
theorem accessible_of_newest {s : State} {new old : List Region} {perm : Perm} {a : Word}
    (regions : s.regions = new ++ old) (same : ∀ r ∈ new, r.perm = perm) (covered : ∃ r ∈ new, r.covers a = true)
    (kind : AccessKind) : s.accessible kind a = permits perm kind := by
  obtain ⟨r, found⟩ := Option.isSome_iff_exists.1 (List.find?_isSome.2 covered)
  have here : s.regionAt a = some r := by rw [State.regionAt, regions, List.find?_append, found]; rfl
  simp only [State.accessible, here, same r (List.mem_of_find?_eq_some found)]

/-! ## The pages of a request -/

theorem mem_pageAddrs {q : Params} {n : Nat} {base p : Word} :
    p ∈ pageAddrs q n base ↔ ∃ i, i < n ∧ p = base + BitVec.ofNat 32 (i * q.pageSize) := by
  refine ⟨pageAddrs_mem, ?_⟩
  rintro ⟨i, hi, rfl⟩
  induction n generalizing base i with
  | zero => omega
  | succ n ih =>
    cases i with
    | zero => simp [pageAddrs]
    | succ i =>
      refine List.mem_cons_of_mem _ ?_
      have := ih (base := base + BitVec.ofNat 32 q.pageSize) i (by omega)
      rwa [BitVec.add_assoc, ← BitVec.ofNat_add, Nat.add_comm, ← Nat.succ_mul] at this

/-- No page of a request that stays below the top of the address space wraps (R47). -/
theorem page_toNat {base : Word} {n i size : Nat} (fits : base.toNat + n * size ≤ 2 ^ 32) (pos : 0 < size) (hi : i < n) :
    (base + BitVec.ofNat 32 (i * size)).toNat = base.toNat + i * size := by
  have : (i + 1) * size ≤ n * size := Nat.mul_le_mul_right _ hi
  rw [Nat.succ_mul] at this
  rw [BitVec.toNat_add, BitVec.toNat_ofNat, Nat.mod_eq_of_lt (a := i * size) (by omega), Nat.mod_eq_of_lt (by omega)]

/-- The overlap check asks whether a page of the request shares a byte with a listed one (R47, Log 19). -/
theorem overlapsMapped_iff {s : State} {base : Word} {n : Nat} (pos : 0 < s.params.pageSize)
    (fits : base.toNat + n * s.params.pageSize ≤ 2 ^ 32) :
    s.overlapsMapped (pageAddrs s.params n base) = true ↔ ∃ p ∈ s.pages, ∃ i, i < n ∧
      p.toNat < base.toNat + i * s.params.pageSize + s.params.pageSize ∧
      base.toNat + i * s.params.pageSize < p.toNat + s.params.pageSize := by
  simp only [State.overlapsMapped, List.any_eq_true, pagesOverlap, Bool.and_eq_true, decide_eq_true_eq]
  constructor
  · rintro ⟨a, ha, p, hp, below, above⟩
    obtain ⟨i, hi, rfl⟩ := mem_pageAddrs.1 ha
    rw [page_toNat fits pos hi] at below above
    exact ⟨p, hp, i, hi, above, below⟩
  · rintro ⟨p, hp, i, hi, above, below⟩
    refine ⟨_, mem_pageAddrs.2 ⟨i, hi, rfl⟩, p, hp, ?_, ?_⟩ <;> rw [page_toNat fits pos hi] <;> assumption

theorem pageSize_pos_of_pageCount {p : Params} {len : Word} (h : 0 < pageCount p len) : 0 < p.pageSize := by
  refine Nat.pos_of_ne_zero fun e => ?_
  rw [pageCount, e, Nat.div_zero] at h
  omega

theorem oversized_iff {s : State} {base : Word} {n : Nat} :
    s.oversized base n = true ↔ s.launch.maxMapPages < n ∨ 2 ^ 32 < base.toNat + n * s.params.pageSize := by
  simp [State.oversized]

/-- The pages of the request that a mapping call makes (R47). -/
def State.requestedPages (hint len : Word) (s : State) : List Word :=
  pageAddrs s.params (pageCount s.params len) (s.mapBase hint)

/-- The state after a mapping call that is granted: its pages, then the fill at the base (R47, R50). -/
def State.mapped (hint len : Word) (perm : Perm) (fill : List Byte) (s : State) : State :=
  let t := s.mapPages perm (s.requestedPages hint len)
  { t with mem := Memory.storeBytes (s.mapBase hint) fill t.mem }

/-- A request of at least one page that is not oversized and overlaps no listed page is granted (R47). -/
theorem mapCall_granted {s : State} {hint len : Word} (nonempty : 0 < pageCount s.params len)
    (fits : s.oversized (s.mapBase hint) (pageCount s.params len) = false)
    (clear : s.overlapsMapped (s.requestedPages hint len) = false) (perm : Perm) (fill : List Byte) :
    mapCall hint len perm fill s = .ok (.ret (s.mapBase hint) (s.mapped hint len perm fill)) := by
  simp only [State.requestedPages] at clear
  simp [mapCall, State.mapped, State.requestedPages, fits, clear, Nat.ne_of_gt nonempty]

/-- Everything a mapping call can do (R47): it takes the policy, is refused as oversized, or is granted. -/
theorem mapCall_cases (hint len : Word) (perm : Perm) (fill : List Byte) (s : State) :
    mapCall hint len perm fill s = unsupported .unsupportedSyscall s ∨
    mapCall hint len perm fill s = failWith .oversizedAllocation s ∨
    (0 < pageCount s.params len ∧ s.oversized (s.mapBase hint) (pageCount s.params len) = false ∧
      s.overlapsMapped (s.requestedPages hint len) = false) := by
  by_cases none : pageCount s.params len = 0
  · exact .inl (by simp [mapCall, none])
  cases large : s.oversized (s.mapBase hint) (pageCount s.params len) with
  | true => exact .inr (.inl (by simp [mapCall, none, large]))
  | false =>
    cases clash : s.overlapsMapped (s.requestedPages hint len) with
    | true =>
      simp only [State.requestedPages] at clash
      exact .inl (by simp [mapCall, none, large, clash])
    | false => exact .inr (.inr ⟨by omega, rfl, rfl⟩)

theorem mapped_pages (hint len : Word) (perm : Perm) (fill : List Byte) (s : State) :
    (s.mapped hint len perm fill).pages = insertPages (s.requestedPages hint len) s.pages := mapPages_pages ..

@[simp] theorem mapped_launch (hint len : Word) (perm : Perm) (fill : List Byte) (s : State) :
    (s.mapped hint len perm fill).launch = s.launch := mapPages_launch ..

/-- The pages of a granted request are distinct and new to the list. -/
theorem requestedPages_new {s : State} {hint len : Word} (nonempty : 0 < pageCount s.params len)
    (fits : s.oversized (s.mapBase hint) (pageCount s.params len) = false)
    (clear : s.overlapsMapped (s.requestedPages hint len) = false) :
    (s.requestedPages hint len).Nodup ∧ ∀ p ∈ s.requestedPages hint len, p ∉ s.pages := by
  have pos := pageSize_pos_of_pageCount nonempty
  have below : ¬ (s.launch.maxMapPages < _ ∨ 2 ^ 32 < _) := fun h => by rw [oversized_iff.2 h] at fits; cases fits
  refine ⟨pageAddrs_nodup pos (by omega), fun p hp listed => ?_⟩
  rw [overlapsMapped_of_mem pos hp listed] at clear
  cases clear

/-- Settles O24: a call that changes the list was granted, and its pages are erased in the reverse order. -/
theorem unmapUndoesMap : Obligations.UnmapUndoesMap := by
  intro s t hint len base perm fill mapped changed
  rcases mapCall_cases hint len perm fill s with e | e | ⟨nonempty, fits, clear⟩
  · rcases unsupported_cases .unsupportedSyscall s with ⟨ds, e'⟩ | ⟨h, ds, e'⟩ <;> rw [e, e'] at mapped
    · cases mapped; exact absurd rfl changed
    · cases mapped
  · rw [e] at mapped; cases mapped; exact absurd rfl changed
  · rw [mapCall_granted nonempty fits clear] at mapped
    cases mapped
    obtain ⟨apart, new⟩ := requestedPages_new nonempty fits clear
    have params : (s.mapped hint len perm fill).params = s.params := by simp [State.params]
    have pages := mapped_pages hint len perm fill s
    have listed : ∀ p ∈ s.requestedPages hint len, p ∈ (s.mapped hint len perm fill).pages := fun p hp => by
      rw [pages]; exact mem_insertPages.2 (.inl hp)
    refine ⟨Config.callResult (s.mapped hint len perm fill).time,
      (s.mapped hint len perm fill).unmapPages (s.requestedPages hint len), ?_, ?_⟩
    · simp only [State.requestedPages] at listed ⊢
      refine (if_neg ?_).trans ?_
      · simpa [params, Nat.ne_of_gt nonempty] using listed
      · rw [params]
    · rw [unmapPages_pages, pages, erase_insertPages apart new]

/-! ## Successive requests -/

/-- A request of one page's length takes one page. -/
theorem pageCount_page {p : Params} (pos : 0 < p.pageSize) (fits : p.pageSize < 2 ^ 32) :
    pageCount p (BitVec.ofNat 32 p.pageSize) = 1 := by
  rw [pageCount, BitVec.toNat_ofNat, Nat.mod_eq_of_lt fits]
  exact Nat.div_eq_of_lt_le (by omega) (by omega)

/-- A length is rounded up to pages (Log 19). -/
theorem length_le_pages {p : Params} (pos : 0 < p.pageSize) (len : Word) :
    len.toNat ≤ pageCount p len * p.pageSize := by
  have := Nat.div_add_mod (len.toNat + (p.pageSize - 1)) p.pageSize
  have := Nat.mod_lt (len.toNat + (p.pageSize - 1)) pos
  rw [pageCount, Nat.mul_comm]
  omega

/-- A request within the bounds that no listed page touches is granted (R47). -/
theorem mapCall_granted_of_clear {s : State} {hint len : Word} (nonempty : 0 < pageCount s.params len)
    (few : pageCount s.params len ≤ s.launch.maxMapPages)
    (fits : (s.mapBase hint).toNat + pageCount s.params len * s.params.pageSize ≤ 2 ^ 32)
    (clear : ∀ p ∈ s.pages, p.toNat + s.params.pageSize ≤ (s.mapBase hint).toNat ∨
      (s.mapBase hint).toNat + pageCount s.params len * s.params.pageSize ≤ p.toNat)
    (perm : Perm) (fill : List Byte) :
    mapCall hint len perm fill s = .ok (.ret (s.mapBase hint) (s.mapped hint len perm fill)) := by
  have pos := pageSize_pos_of_pageCount nonempty
  refine mapCall_granted nonempty (Bool.eq_false_iff.2 fun h => ?_) (Bool.eq_false_iff.2 fun h => ?_) perm fill
  · have := oversized_iff.1 h; omega
  · obtain ⟨p, hp, i, hi, above, below⟩ := (overlapsMapped_iff pos fits).1 h
    have : (i + 1) * s.params.pageSize ≤ pageCount s.params len * s.params.pageSize := Nat.mul_le_mul_right _ hi
    rw [Nat.succ_mul] at this
    have := clear p hp
    omega

/-- Every byte of a granted request has the permission asked for (R47). -/
theorem mapped_accessible {s : State} {hint len : Word} {k : Nat}
    (hk : k < pageCount s.params len * s.params.pageSize) (perm : Perm) (fill : List Byte) (kind : AccessKind) :
    (s.mapped hint len perm fill).accessible kind (s.mapBase hint + BitVec.ofNat 32 k) = permits perm kind := by
  have pos : 0 < s.params.pageSize := Nat.pos_of_ne_zero fun e => by rw [e, Nat.mul_zero] at hk; omega
  obtain ⟨new, regions, same, placed⟩ := mapPages_regions perm (s.requestedPages hint len) s
  have split := Nat.div_add_mod k s.params.pageSize
  have inPage := Nat.mod_lt k pos
  have page : s.mapBase hint + BitVec.ofNat 32 (k / s.params.pageSize * s.params.pageSize) ∈ s.requestedPages hint len :=
    mem_pageAddrs.2 ⟨_, (Nat.div_lt_iff_lt_mul pos).2 hk, rfl⟩
  obtain ⟨r, hr, base⟩ := placed _ page
  refine accessible_of_newest (s := s.mapped hint len perm fill) regions (fun r hr => (same r hr).1) ⟨r, hr, ?_⟩ kind
  have offset : s.mapBase hint + BitVec.ofNat 32 k - r.base = BitVec.ofNat 32 (k % s.params.pageSize) := by
    rw [base]
    nth_rewrite 1 [← split]
    rw [Nat.mul_comm, BitVec.ofNat_add]
    ring
  rw [Region.covers, offset, (same r hr).2, BitVec.toNat_ofNat]
  exact decide_eq_true (lt_of_le_of_lt (Nat.mod_le _ _) inPage)

@[simp] theorem fileBytes_length (time n : Nat) : (fileBytes time n).length = n := by simp [fileBytes]

/-- Two requests of one page each, with no hint, in a state with no page (Scenario C). -/
theorem mapCall_twice {s : State} (perm : Perm) (empty : s.pages = []) (nonempty : 1 ≤ s.launch.maxMapPages)
    (pos : 0 < s.params.pageSize) (fits : s.launch.mmapDefaultBase.toNat + 2 * s.params.pageSize ≤ 2 ^ 32) :
    let b := s.launch.mmapDefaultBase
    let page : Word := BitVec.ofNat 32 s.params.pageSize
    ∃ t u, mapCall 0 page perm [] s = .ok (.ret b t) ∧ mapCall 0 page perm [] t = .ok (.ret (b + page) u) ∧
      u.pages = [b + page, b] := by
  intro b page
  have one : pageCount s.params page = 1 := pageCount_page pos (by omega)
  have base : s.mapBase 0 = b := by simp [State.mapBase, empty, b]
  have fits : b.toNat + 2 * s.params.pageSize ≤ 2 ^ 32 := fits
  have next : (b + page).toNat = b.toNat + s.params.pageSize := by
    have second := page_toNat (base := b) (n := 2) (i := 1) fits pos (by omega)
    rwa [Nat.one_mul] at second
  let t := s.mapped 0 page perm []
  have pages : t.pages = [b] := by
    rw [mapped_pages, State.requestedPages, one, base, empty]; rfl
  have launch : t.launch = s.launch := mapped_launch ..
  have params : t.params = s.params := congrArg Launch.params launch
  have base' : t.mapBase 0 = b + page := by simp [State.mapBase, pages, params, page]
  have one' : pageCount t.params page = 1 := by rw [params, one]
  refine ⟨t, t.mapped 0 page perm [], ?_, ?_, ?_⟩
  · rw [← base]
    refine mapCall_granted_of_clear (by omega) (by omega) ?_ (by simp [empty]) perm []
    rw [one, base]; omega
  · rw [← base']
    refine mapCall_granted_of_clear (by omega) (by rw [one', launch]; omega) ?_ (fun p hp => ?_) perm []
    · rw [one', params, base', next]; omega
    · rw [pages, List.mem_singleton] at hp
      rw [hp, params, base', next]; omega
  · rw [mapped_pages, State.requestedPages, one', base', pages]
    simp only [pageAddrs, insertPages, List.foldl_cons, List.foldl_nil, insertPage, next]
    rw [if_pos (by omega)]

/-- Settles O25: Scenario C by `mapCall_twice`, the request by what `mapped` holds, and the fill of a file by its bytes. -/
theorem successiveMapsAreDistinctPages : Obligations.SuccessiveMapsAreDistinctPages := by
  refine ⟨?twice, ?request, ?file⟩
  case twice => exact fun s perm empty nonempty pos fits => mapCall_twice perm empty nonempty pos fits
  case request =>
    intro s perm hint len fill page n base clear
    refine ⟨fun h => if_pos h, fun nonempty few fits apart short => ?granted,
      fun none => ?noPage, fun nonempty large => ?oversized, fun nonempty few fits clash => ?overlap⟩
    case granted =>
      refine ⟨_, mapCall_granted_of_clear nonempty few fits apart perm fill, fun q => ?_,
        fun kind k hk => mapped_accessible hk perm fill kind,
        fun k hk => byteAt_stored (s := s.mapPages perm (s.requestedPages hint len)) rfl (by omega) hk⟩
      rw [mapped_pages, mem_insertPages, State.requestedPages, mem_pageAddrs]
      exact or_comm
    case noPage => exact if_pos none
    case oversized =>
      exact (if_neg (Nat.ne_of_gt nonempty)).trans (if_pos (oversized_iff.2 large))
    case overlap =>
      have pos := pageSize_pos_of_pageCount nonempty
      refine (if_neg (Nat.ne_of_gt nonempty)).trans ((if_neg fun h => ?_).trans (if_pos ?_))
      · exact (oversized_iff.1 h).elim (Nat.not_lt.2 few) (Nat.not_lt.2 fits)
      · exact (overlapsMapped_iff pos fits).2 clash
  case file =>
    intro s next hint len perm h l readHint readLen
    refine ⟨fileBytes s.time l.toNat, fileBytes_length .., fun k hk => by simp [fileBytes], fun pos => ?_, ?_⟩
    · rw [fileBytes_length]; exact length_le_pages pos l
    · simp only [runCall, readHint, readLen]; rfl

/-! ## The protection change -/

theorem pageCount_eq_one_iff {p : Params} {len : Word} :
    pageCount p len = 1 ↔ 1 ≤ len.toNat ∧ len.toNat ≤ p.pageSize := by
  rcases Nat.eq_zero_or_pos p.pageSize with none | pos
  · simp [pageCount, none]; omega
  · rw [pageCount, Nat.div_eq_iff pos]; omega

/-- The region guarded is found where every region at its base covers the byte and no other does (R49). -/
theorem find?_guardRegion {base a : Word} {l : List Region} (attached : ∃ r ∈ l, r.base = base)
    (others : ∀ r ∈ l, r.base ≠ base → r.covers a = false) (covers : ∀ r ∈ l, r.base = base → r.covers a = true) :
    ∃ r, (guardRegion base l).find? (·.covers a) = some r ∧ r.perm = ⟨false, false, false⟩ := by
  induction l with
  | nil => simp at attached
  | cons r rest ih =>
    simp only [guardRegion]
    split
    case isTrue here =>
      have : r.covers a = true := covers r (List.mem_cons_self ..) here
      exact ⟨{ r with perm := ⟨false, false, false⟩ }, List.find?_cons_of_pos this, rfl⟩
    case isFalse away =>
      obtain ⟨r', hr', base'⟩ := attached
      have later : r' ∈ rest := (List.mem_cons.1 hr').resolve_left fun e => away (e ▸ base')
      rw [List.find?_cons_of_neg (by simp [others r (List.mem_cons_self ..) away])]
      exact ih ⟨r', later, base'⟩ (fun q hq => others q (List.mem_cons_of_mem _ hq))
        fun q hq => covers q (List.mem_cons_of_mem _ hq)

/-- Settles O26: the guarded region is the one found at each byte of the page, and it permits nothing. -/
theorem guardedPageIsInaccessible : Obligations.GuardedPageIsInaccessible := by
  intro s addr len prot noneVal page
  refine ⟨fun none low high listed attached others whole => ?guarded, fun other => ?unsupported⟩
  case guarded =>
    have asked : prot = noneVal ∧ pageCount s.params len = 1 ∧ s.pages.contains addr = true :=
      ⟨none, pageCount_eq_one_iff.2 ⟨low, high⟩, by simpa using listed⟩
    refine ⟨_, _, if_pos asked, rfl, fun kind k hk => ?_⟩
    have covers : ∀ r ∈ s.regions, r.base = addr → r.covers (addr + BitVec.ofNat 32 k) = true := by
      intro r hr base
      have offset : addr + BitVec.ofNat 32 k - addr = BitVec.ofNat 32 k := by ring
      rw [Region.covers, base, whole r hr base, offset, BitVec.toNat_ofNat]
      exact decide_eq_true (lt_of_le_of_lt (Nat.mod_le _ _) hk)
    obtain ⟨r, found, perm⟩ := find?_guardRegion attached (fun r hr away => others r hr away k hk) covers
    simp only [State.accessible, State.regionAt, found, perm]
    cases kind <;> rfl
  case unsupported =>
    refine if_neg ?_
    rintro ⟨none, one, listed⟩
    have := pageCount_eq_one_iff.1 one
    rcases other with h | h | h | h
    · exact h none
    · omega
    · omega
    · exact h (by simpa using listed)

/-! ## The invariants of memory and the page list -/

theorem mapPage_memCanonical (perm : Perm) (s : State) (p : Word) (h : s.memCanonical) :
    (s.mapPage perm p).memCanonical := by
  simp only [State.memCanonical, State.mapPage, State.attachRegion]
  exact Memory.wf_restrict _ h

theorem unmapPage_memCanonical (s : State) (p : Word) (h : s.memCanonical) : (s.unmapPage p).memCanonical := by
  simp only [State.memCanonical, State.unmapPage, State.detachRegion]
  exact Memory.wf_restrict _ h

/-- The canonical form of memory is carried through every call. -/
theorem memCanonical_carried : Carried State.memCanonical where
  other s t mem _ _ _ h := by rw [State.memCanonical, mem]; exact h
  stores s a bs h := Memory.wf_storeBytes a bs h
  maps s perm addrs _ _ h := mapPages_keeps (mapPage_memCanonical perm) addrs h
  unmaps s addrs h := unmapPages_keeps unmapPage_memCanonical addrs h
  guards s a h := h

/-- Settles O55: every change of memory is a store or forgets bytes. -/
theorem stepKeepsMemoryCanonical : Obligations.StepKeepsMemoryCanonical :=
  fun _ _ h run => memCanonical_carried.step h run

/-- The order of the page list is carried through every call. -/
theorem pagesDescending_carried : Carried State.pagesDescending where
  other s t _ pages _ _ h := by rw [State.pagesDescending, pages]; exact h
  stores s a bs h := h
  maps s perm addrs apart new h := by
    rw [State.pagesDescending, mapPages_pages]; exact insertPages_descending h apart new
  unmaps s addrs h := unmapPages_keeps (P := State.pagesDescending) (fun _ _ h => h.sublist List.erase_sublist) addrs h
  guards s a h := h.sublist List.erase_sublist

/-- Settles O56: a page is put in at its place, or erased. -/
theorem stepKeepsPagesDescending : Obligations.StepKeepsPagesDescending :=
  fun _ _ h run => pagesDescending_carried.step h run

end Sys2Proof.Machine
end

section
/-! A signal's delivery and the return from its handler (R140, R142), and the registers the trap layer uses (R19, R20). -/

namespace Sys2Proof.Machine

/-! ## The registers of a use by role -/

/-- A use of registers by role is granted, and then each is ordinary, or it is refused by the name of the first that is
not (R19, R94, R95). -/
theorem checkRoles_result (s : State) (ks : List Nat) :
    (checkRoles s.params ks = .ok () ∧ ∀ k ∈ ks, s.hasReg k) ∨
    (checkRoles s.params ks = .error (.refuse .aliasRegisterUnmodelled) ∨
      checkRoles s.params ks = .error (.refuse .regIndexRange)) := by
  induction ks with
  | nil => exact .inl ⟨rfl, by simp⟩
  | cons k rest ih =>
    by_cases beyond : s.params.numGpr ≤ k
    · exact .inr (.inr (by simp only [checkRoles, checkReg_range beyond]; rfl))
    by_cases aliasing : k = s.params.aliasGpr
    · exact .inr (.inl (by simp only [checkRoles, checkReg_alias (Nat.lt_of_not_le beyond) aliasing]; rfl))
    have reg : s.hasReg k := ⟨Nat.lt_of_not_le beyond, aliasing⟩
    have head : checkRoles s.params (k :: rest) = checkRoles s.params rest := by
      simp only [checkRoles, checkReg_ok reg]; rfl
    rw [head]
    exact ih.imp (fun ⟨ok, regs⟩ => ⟨ok, List.forall_mem_cons.2 ⟨reg, regs⟩⟩) id

/-- A use of a register that is not ordinary is refused by name (R19). -/
theorem checkRoles_refused {s : State} {ks : List Nat} {k : Nat} (hk : k ∈ ks) (bad : ¬ s.hasReg k) :
    checkRoles s.params ks = .error (.refuse .aliasRegisterUnmodelled) ∨
      checkRoles s.params ks = .error (.refuse .regIndexRange) :=
  (checkRoles_result s ks).resolve_left fun ⟨_, regs⟩ => bad (regs k hk)

/-! ## The trampoline -/

/-- The bytes of the trampoline after the mask words (R140). -/
def trampolineCode (l : Launch) : List Byte := l.trampolineSeq ++ l.trampolineTrap ++ l.trampolinePad

/-- The trampoline is the two mask words, the lower first, and its code (R140). -/
theorem trampoline_eq (mask : SigSet) (l : Launch) :
    trampoline mask l = wordBytes l.params.endian (mask.extractLsb' 0 32) ++
      (wordBytes l.params.endian (mask.extractLsb' 32 32) ++ trampolineCode l) := by
  simp only [trampoline, trampolineCode, List.append_assoc]

theorem trampoline_length (mask : SigSet) (l : Launch) : (trampoline mask l).length = 8 + (trampolineCode l).length := by
  rw [trampoline_eq, List.length_append, List.length_append, wordBytes_length, wordBytes_length]
  omega

theorem trampolineSize_eq (l : Launch) : trampolineSize l = 8 + (trampolineCode l).length := trampoline_length 0 l

/-- The two mask words put together are the mask (R140). -/
theorem maskWords (mask : SigSet) : (mask.extractLsb' 32 32 ++ mask.extractLsb' 0 32 : SigSet) = mask := by
  refine BitVec.eq_of_getLsbD_eq fun k hk => ?_
  rw [BitVec.getLsbD_append, BitVec.getLsbD_extractLsb', BitVec.getLsbD_extractLsb']
  by_cases low : k < 32
  · simp [low]
  · simp [low, show k - 32 < 32 by omega, Nat.add_sub_cancel' (Nat.le_of_not_lt low)]

/-! ## What a delivery leaves -/

/-- The record of the current thread once its file is saved (R140 step 1). -/
def State.interrupted (s : State) : Thread := s.current.enterHandler s.live s.trampolineBase

/-- The live file at the handler's entry (R140 steps 3 and 4). -/
def State.handlerFile (sig : Nat) (handler : Word) (s : State) : RegFile :=
  (handlerArguments handler s (((s.live.setReg s.params.spReg s.trampolineBase).setReg s.params.raReg
    (s.trampolineBase + 8)).setReg (s.params.argReg 0) (BitVec.ofNat 32 sig))).setPc handler

/-- The record of the current thread at the handler's entry (R140). -/
def State.handling (sig : Nat) (s : State) : Thread :=
  { s.interrupted with
    pending := s.current.pending &&& ~~~(1#64 <<< sig)
    suspended := false
    atSyscall := false
    blockedAt := none }

/-- The state a delivery leaves (R140). -/
def State.delivered (sig : Nat) (handler : Word) (s : State) : State :=
  { (s.setCurrent (s.handling sig)).setLive (s.handlerFile sig handler) with
    mem := Memory.storeBytes s.trampolineBase (trampoline s.current.blocked s.launch) s.mem }

/-- The refusal of a use of the trap layer's registers by the name of the first that is not ordinary (R19, R94, R95). -/
def RefusedByName {α : Type} (x : Except Stop α) : Prop :=
  x = .error (.refuse .aliasRegisterUnmodelled) ∨ x = .error (.refuse .regIndexRange)

theorem RefusedByName.bind {α β : Type} {x : Except Stop α} (h : RefusedByName x) (k : α → Except Stop β) :
    RefusedByName (x >>= k) :=
  h.imp (fun e => by rw [e]; rfl) fun e => by rw [e]; rfl

/-- A delivery reads the stack pointer first (R140). -/
theorem deliverSignal_refused_sp {s : State} (bad : ¬ s.hasReg s.params.spReg) (sig : Nat) (handler : Word) :
    RefusedByName (deliverSignal sig handler s) :=
  RefusedByName.bind (checkRoles_refused (List.mem_singleton_self _) bad) _

/-- The steps of a delivery after the stack pointer is read: the trampoline's write, and the registers (R140). -/
theorem deliverSignal_eq {s : State} (sp : s.hasReg s.params.spReg) (sig : Nat) (handler : Word) :
    deliverSignal sig handler s = (do
      let u ← writeMem s.trampolineBase (trampoline s.current.blocked s.launch) (s.setCurrent s.interrupted)
      checkRoles u.params (deliveryRoles u.launch)
      let f := (u.live.setReg u.params.spReg s.trampolineBase).setReg u.params.raReg (s.trampolineBase + 8)
      let f := handlerArguments handler u (f.setReg (u.params.argReg 0) (BitVec.ofNat 32 sig))
      pure ((u.setLive (f.setPc handler)).setCurrent (s.handling sig))) := by
  have enter : checkRoles s.params [s.params.spReg] = .ok () := checkRoles_ok (by simpa using sp)
  simp only [deliverSignal, enter]
  rfl

/-- Where the trampoline's write faults depends on the state before the delivery alone. -/
theorem firstFault_trampoline (s : State) :
    (s.setCurrent s.interrupted).firstFault .write (trampoline s.current.blocked s.launch).length s.trampolineBase =
      s.firstFault .write (trampolineSize s.launch) s.trampolineBase := by
  rw [trampoline_length, trampolineSize_eq, State_setCurrent_firstFault]

/-- A delivery whose trampoline faults ends the run with the snapshot saved (R109, R124). -/
theorem deliverSignal_fault {s : State} {bad : Word} (sp : s.hasReg s.params.spReg)
    (faults : s.firstFault .write (trampolineSize s.launch) s.trampolineBase = some bad) (sig : Nat) (handler : Word) :
    deliverSignal sig handler s = .error (.halt (.addressFault bad) (s.setCurrent s.interrupted)) := by
  rw [deliverSignal_eq sp, writeMem_eq_addressFault ((firstFault_trampoline s).trans faults)]
  rfl

section
variable {s : State} (sp : s.hasReg s.params.spReg)
  (granted : s.firstFault .write (trampolineSize s.launch) s.trampolineBase = none)
include sp granted

/-- A delivery whose trampoline is writable uses its registers next (R140). -/
theorem deliverSignal_written (sig : Nat) (handler : Word) :
    deliverSignal sig handler s =
      checkRoles s.params (deliveryRoles s.launch) >>= fun _ => .ok (s.delivered sig handler) := by
  have threads : (s.threads.set s.cur s.interrupted).set s.cur (s.handling sig) = s.threads.set s.cur (s.handling sig) :=
    List.set_set ..
  rw [deliverSignal_eq sp, writeMem_ok ((firstFault_trampoline s).trans granted)]
  simp only [State.delivered, State.setCurrent, State.setThread, State.setLive, ← threads]
  rfl

theorem deliverSignal_refused_role {k : Nat} (hk : k ∈ deliveryRoles s.launch) (bad : ¬ s.hasReg k) (sig : Nat)
    (handler : Word) : RefusedByName (deliverSignal sig handler s) := by
  rw [deliverSignal_written sp granted]
  exact RefusedByName.bind (checkRoles_refused hk bad) _

end

/-- A delivery whose registers are ordinary and whose trampoline is writable enters the handler (R140). -/
theorem deliverSignal_ok {s : State} (regs : ∀ k ∈ deliveryRoles s.launch, s.hasReg k)
    (granted : s.firstFault .write (trampolineSize s.launch) s.trampolineBase = none) (sig : Nat) (handler : Word) :
    deliverSignal sig handler s = .ok (s.delivered sig handler) := by
  rw [deliverSignal_written (regs _ (List.mem_cons_self ..)) granted, checkRoles_ok regs]
  rfl

/-- Everything a delivery can do (R140): it is refused, the trampoline's write faults with the snapshot saved, or it enters
the handler. -/
theorem deliverSignal_cases (sig : Nat) (handler : Word) (s : State) :
    RefusedByName (deliverSignal sig handler s) ∨
    (∃ bad, deliverSignal sig handler s = .error (.halt (.addressFault bad) (s.setCurrent s.interrupted))) ∨
    ((∀ k ∈ deliveryRoles s.launch, s.hasReg k) ∧ deliverSignal sig handler s = .ok (s.delivered sig handler)) := by
  by_cases sp : s.hasReg s.params.spReg
  case neg => exact .inl (deliverSignal_refused_sp sp sig handler)
  cases granted : s.firstFault .write (trampolineSize s.launch) s.trampolineBase with
  | some bad => exact .inr (.inl ⟨bad, deliverSignal_fault sp granted sig handler⟩)
  | none =>
    by_cases regs : ∀ k ∈ deliveryRoles s.launch, s.hasReg k
    · exact .inr (.inr ⟨regs, deliverSignal_ok regs granted sig handler⟩)
    · obtain ⟨k, hk, bad⟩ : ∃ k ∈ deliveryRoles s.launch, ¬ s.hasReg k := by simpa only [not_forall, exists_prop] using regs
      exact .inl (deliverSignal_refused_role sp granted hk bad sig handler)

/-! ## The forms with no meaning -/

/-- A trap that uses a register that is not ordinary is refused by name (R19, R128). -/
theorem exec_trap_refused {s : State} (traps : s.traps .trap = true) {k : Nat} (hk : k ∈ trapRoles s.params)
    (bad : ¬ s.hasReg k) :
    exec .trap s = .refused .aliasRegisterUnmodelled ∨ exec .trap s = .refused .regIndexRange := by
  rw [exec_trap, finish_traps traps]
  exact (RefusedByName.bind (checkRoles_refused (s := s.setPc s.live.pc) hk bad) _).imp
    (fun e => congrArg outcome e) fun e => congrArg outcome e

/-- Settles O34: each place of an instruction uses its register by `checkReg`, a branch tests its condition code, and the
trap layer uses its registers by `checkRoles`. -/
theorem formsWithoutMeaningAreRefused : Obligations.FormsWithoutMeaningAreRefused := by
  intro s a r imm am c target handler sig named
  refine ⟨fun alias_ exists_ => ?aliasing, fun beyond => ?range, fun eq ne always => ?condition,
    fun traps k hk bad => exec_trap_refused traps hk bad, fun bad => deliverSignal_refused_sp bad sig handler,
    fun sp granted k hk bad => deliverSignal_refused_role sp granted hk bad sig handler⟩
  case aliasing =>
    have refused := checkReg_alias exists_ alias_
    refine ⟨exec_addq_refused refused imm, exec_moveq_refused refused imm, exec_addR_refused_dest refused r,
      fun below => ?source, exec_loadD_refused_source refused am r,
      fun source readable => exec_loadD_refused_dest source readable refused am⟩
    case source =>
      by_cases same : r = s.params.aliasGpr
      · exact exec_addR_refused_dest (checkReg_alias below same) a
      · exact exec_addR_refused_source ⟨below, same⟩ refused
  case range =>
    have refused := checkReg_range beyond
    exact ⟨exec_addq_refused refused imm, exec_moveq_refused refused imm, exec_addR_refused_dest refused r,
      fun dest => exec_addR_refused_source dest refused, exec_loadD_refused_source refused am r,
      fun source readable => exec_loadD_refused_dest source readable refused am⟩
  case condition =>
    have refused := condHolds_refused eq ne always s
    exact ⟨exec_bccS_refused refused target, exec_bccW_refused refused target⟩

end Sys2Proof.Machine
end

section
/-! The handler's entry and the return from it: what a delivery writes (R140), what the return restores (R142), and the
round trip (R143). -/

namespace Sys2Proof.Machine

/-! ## The registers at the handler's entry -/

/-- Writes of registers leave the others as they were. -/
theorem foldl_setReg_reg_other {ι : Type} (reg : ι → Nat) (value : ι → Word) {ks : List ι} (f : RegFile) {j : Nat}
    (other : j ∉ ks.map reg) : (ks.foldl (fun g k => g.setReg (reg k) (value k)) f).reg j = f.reg j := by
  induction ks generalizing f with
  | nil => rfl
  | cons k rest ih =>
    obtain ⟨ne, other⟩ := not_or.1 (fun h => other (List.mem_cons.2 h))
    rw [List.foldl_cons, ih _ other, RegFile_setReg_reg_other f _ ne]

theorem foldl_setReg_readFlag {ι : Type} (reg : ι → Nat) (value : ι → Word) (ks : List ι) (f : RegFile) (fl : Flag) :
    (ks.foldl (fun g k => g.setReg (reg k) (value k)) f).readFlag fl = f.readFlag fl := by
  induction ks generalizing f with
  | nil => rfl
  | cons k rest ih => rw [List.foldl_cons, ih, RegFile_setReg_readFlag]

theorem handlerArguments_reg_other {s : State} {j : Nat} (other : j ∉ handlerRoles s.launch) (handler : Word)
    (f : RegFile) : (handlerArguments handler s f).reg j = f.reg j := by
  rw [handlerRoles] at other
  rw [handlerArguments]
  cases named : s.launch.sigHandlerArg with
  | some i =>
    rw [named] at other
    exact RegFile_setReg_reg_other f _ (by simpa using other)
  | none =>
    rw [named] at other
    exact foldl_setReg_reg_other s.params.argReg _ f other

theorem handlerArguments_reg_named {s : State} {j : Fin 5} (named : s.launch.sigHandlerArg = some j) (handler : Word)
    (f : RegFile) : (handlerArguments handler s f).reg (s.params.argReg j.succ) = handler := by
  rw [handlerArguments, named]
  exact RegFile_setReg_reg_self f _ handler

@[simp] theorem handlerArguments_readFlag (handler : Word) (s : State) (f : RegFile) (fl : Flag) :
    (handlerArguments handler s f).readFlag fl = f.readFlag fl := by
  rw [handlerArguments]
  cases s.launch.sigHandlerArg with
  | some j => exact RegFile_setReg_readFlag f _ _ fl
  | none => exact foldl_setReg_readFlag s.params.argReg _ _ f fl

section
variable {s : State} (distinct : (deliveryRoles s.launch).Nodup) (sig : Nat) (handler : Word)
include distinct

theorem handlerFile_sp : (s.handlerFile sig handler).reg s.params.spReg = s.trampolineBase := by
  obtain ⟨sp, -⟩ := List.nodup_cons.1 distinct
  simp only [List.mem_cons, not_or] at sp
  rw [State.handlerFile, RegFile_setPc_reg, handlerArguments_reg_other sp.2.2, RegFile_setReg_reg_other _ _ sp.2.1,
    RegFile_setReg_reg_other _ _ sp.1, RegFile_setReg_reg_self]

theorem handlerFile_ra : (s.handlerFile sig handler).reg s.params.raReg = s.trampolineBase + 8 := by
  obtain ⟨-, distinct⟩ := List.nodup_cons.1 distinct
  obtain ⟨ra, -⟩ := List.nodup_cons.1 distinct
  simp only [List.mem_cons, not_or] at ra
  rw [State.handlerFile, RegFile_setPc_reg, handlerArguments_reg_other ra.2, RegFile_setReg_reg_other _ _ ra.1,
    RegFile_setReg_reg_self]

theorem handlerFile_arg : (s.handlerFile sig handler).reg (s.params.argReg 0) = BitVec.ofNat 32 sig := by
  obtain ⟨-, distinct⟩ := List.nodup_cons.1 distinct
  obtain ⟨-, distinct⟩ := List.nodup_cons.1 distinct
  obtain ⟨arg, -⟩ := List.nodup_cons.1 distinct
  rw [State.handlerFile, RegFile_setPc_reg, handlerArguments_reg_other arg, RegFile_setReg_reg_self]

end

theorem handlerFile_other {s : State} {j : Nat} (other : j ∉ deliveryRoles s.launch) (sig : Nat) (handler : Word) :
    (s.handlerFile sig handler).reg j = s.live.reg j := by
  simp only [deliveryRoles, List.mem_cons, not_or] at other
  rw [State.handlerFile, RegFile_setPc_reg, handlerArguments_reg_other other.2.2.2, RegFile_setReg_reg_other _ _ other.2.2.1,
    RegFile_setReg_reg_other _ _ other.2.1, RegFile_setReg_reg_other _ _ other.1]

theorem handlerFile_readFlag (s : State) (sig : Nat) (handler : Word) (fl : Flag) :
    (s.handlerFile sig handler).readFlag fl = s.live.readFlag fl := by simp [State.handlerFile]

/-! ## The record and the memory at the handler's entry -/

theorem delivered_current {s : State} (current : s.cur < s.threads.length) (sig : Nat) (handler : Word) :
    (s.delivered sig handler).current = s.handling sig := current_setCurrent s (s.handling sig) current

theorem delivered_mem (sig : Nat) (handler : Word) (s : State) :
    (s.delivered sig handler).mem = Memory.storeBytes s.trampolineBase (trampoline s.current.blocked s.launch) s.mem := rfl

/-- The trampoline's bytes in a memory that holds them: the mask words, then the code (R140). -/
theorem trampoline_parts {t : State} {base : Word} {mask : SigSet} {l : Launch}
    (bytes : t.bytesAt (8 + (trampolineCode l).length) base = trampoline mask l) :
    t.bytesAt 4 base = wordBytes l.params.endian (mask.extractLsb' 0 32) ∧
      t.bytesAt 4 (base + 4) = wordBytes l.params.endian (mask.extractLsb' 32 32) ∧
      t.bytesAt (trampolineCode l).length (base + 8) = trampolineCode l := by
  have eight : base + BitVec.ofNat 32 4 + BitVec.ofNat 32 4 = base + 8 := by rw [add_assoc]; rfl
  rw [show 8 + (trampolineCode l).length = 4 + (4 + (trampolineCode l).length) by omega, bytesAt_add, bytesAt_add,
    trampoline_eq, eight] at bytes
  obtain ⟨lo, rest⟩ := List.append_inj bytes (by simp)
  obtain ⟨hi, code⟩ := List.append_inj rest (by simp)
  exact ⟨lo, hi, code⟩

/-- The trampoline lies where a delivery wrote it (R140). -/
theorem delivered_trampoline {s : State} (short : trampolineSize s.launch ≤ 2 ^ 16) (sig : Nat) (handler : Word) :
    (s.delivered sig handler).bytesAt (8 + (trampolineCode s.launch).length) s.trampolineBase =
      trampoline s.current.blocked s.launch := by
  have length := trampoline_length s.current.blocked s.launch
  rw [← length]
  refine bytesAt_stored (delivered_mem sig handler s) ?_
  rw [length, ← trampolineSize_eq]
  omega

/-- Settles O50: the two ends of `deliverSignal`, and what `delivered` and `interrupted` hold. -/
theorem deliveryEntersTheHandler : Obligations.DeliveryEntersTheHandler := by
  intro s sig handler code base
  have size : trampolineSize s.launch = 8 + code.length := trampolineSize_eq s.launch
  have base_eq : s.trampolineBase = base := by rw [State.trampolineBase, size]
  refine ⟨fun current inRange distinct regs short granted => ?enters, fun current sp bad faults => ?faults, by decide⟩
  case enters =>
    rw [← base_eq, ← size] at granted
    have small : trampolineSize s.launch ≤ 2 ^ 32 := by omega
    have record := delivered_current current sig handler
    have bytes : (s.delivered sig handler).bytesAt (8 + code.length) base = trampoline s.current.blocked s.launch := by
      have stored := bytesAt_stored (delivered_mem sig handler s) (by rwa [trampoline_length, ← trampolineSize_eq])
      rwa [trampoline_length, base_eq] at stored
    obtain ⟨lo, hi, codeBytes⟩ := trampoline_parts bytes
    refine ⟨s.delivered sig handler, deliverSignal_ok regs granted sig handler,
      (handlerFile_sp distinct sig handler).trans base_eq, (handlerFile_ra distinct sig handler).trans (by rw [base_eq]),
      handlerFile_arg distinct sig handler, rfl, fun j named => handlerArguments_reg_named named handler _,
      fun j other => handlerFile_other other sig handler, fun fl _ => handlerFile_readFlag s sig handler fl,
      by rw [record]; rfl, ⟨_, by rw [record]; rfl, rfl, base_eq, rfl⟩, ?_, by rw [record]; rfl, lo, hi, codeBytes,
      fun a other => ?_⟩
    · rw [record]
      simp [State.handling, inRange]
    · refine byteAt_other (delivered_mem sig handler s) rfl fun k hk => ?_
      rw [base_eq]
      exact other k (by rwa [trampoline_length] at hk)
  case faults =>
    rw [← base_eq, ← size] at faults
    have record : (s.setCurrent s.interrupted).current = s.interrupted := current_setCurrent s _ current
    refine ⟨s.setCurrent s.interrupted, deliverSignal_fault sp faults sig handler,
      ⟨_, by rw [record]; rfl, rfl, base_eq⟩, by rw [record]; rfl, by rw [record]; rfl, by rw [record]; rfl,
      fun k other => thread_setThread_other s _ other, rfl, rfl⟩

/-! ## The return from handler -/

/-- The record of the current thread after its return from handler (R142). -/
def Thread.returned (t : Thread) (ctx : HandlerContext) (mask : SigSet) : Thread :=
  { t with state := .running, context := none, blocked := mask, atSyscall := false, blockedAt := ctx.blockedAt }

/-- The state a return from handler leaves (R142). -/
def State.returned (ctx : HandlerContext) (mask : SigSet) (s : State) : State :=
  (s.restore ctx.snapshot).setCurrent (s.current.returned ctx mask)

/-- A return from handler that has its mask restores the file (R142). -/
theorem returnFromHandler_ok {s : State} {ctx : HandlerContext} (inside : s.current.context = some ctx) {mask : SigSet}
    (restored : restoredMask ctx s = .ok mask) : returnFromHandler s = .ok (.resumed (s.returned ctx mask)) := by
  simp only [returnFromHandler, inside, restored]
  rfl

/-- What a return from handler can do where a handler is active: it stops as the read of the mask does, or restores the
file (R142). -/
theorem returnFromHandler_cases {s : State} {ctx : HandlerContext} (inside : s.current.context = some ctx) :
    (∃ e, restoredMask ctx s = .error e ∧ returnFromHandler s = .error e) ∨
      ∃ mask, restoredMask ctx s = .ok mask ∧ returnFromHandler s = .ok (.resumed (s.returned ctx mask)) := by
  cases restored : restoredMask ctx s with
  | error e => exact .inl ⟨e, rfl, by simp only [returnFromHandler, inside, restored]; rfl⟩
  | ok mask => exact .inr ⟨mask, rfl, returnFromHandler_ok inside restored⟩

/-- Settles O51: a return that answers leaves `returned`. -/
theorem returnFromHandlerRestoresTheFile : Obligations.ReturnFromHandlerRestoresTheFile := by
  intro s next r ctx current inside answered
  rcases returnFromHandler_cases inside with ⟨e, -, stopped⟩ | ⟨mask, restored, resumed⟩
  · rw [stopped] at answered; cases answered
  · rw [resumed] at answered
    cases answered
    have record : (s.returned ctx mask).current = s.current.returned ctx mask :=
      current_setCurrent (s.restore ctx.snapshot) _ current
    refine ⟨rfl, congrArg Thread.context record, congrArg Thread.state record, congrArg Thread.blockedAt record,
      fun preSuspend suspended => (congrArg Thread.blocked record).trans ?_, rfl⟩
    simp only [restoredMask, suspended] at restored
    exact (Except.ok.inj restored).symm

/-! ## The round trip -/

/-- The mask a return reads where the trampoline's words lie (R142). -/
theorem restoredMask_of_words {s : State} {ctx : HandlerContext} {a : Word} {mask : SigSet}
    (plain : ctx.preSuspend = none) (address : s.savedMaskAddr ctx = .ok a) (readable : s.firstFault .read 8 a = none)
    (lo : s.bytesAt 4 a = wordBytes s.params.endian (mask.extractLsb' 0 32))
    (hi : s.bytesAt 4 (a + 4) = wordBytes s.params.endian (mask.extractLsb' 32 32)) :
    restoredMask ctx s = .ok mask := by
  obtain ⟨readable, readable'⟩ := firstFault_add_none (n := 4) (k := 4) readable
  simp only [restoredMask, plain, address, bind, Except.bind]
  rw [readWord_ok readable, lo, word_of_bytes]
  have readable' : s.firstFault .read 4 (a + 4) = none := readable'
  simp only []
  rw [readWord_ok readable', hi, word_of_bytes]
  exact congrArg Except.ok (maskWords mask)

/-- Settles O52: a delivery leaves the snapshot in the record and the mask in memory, and the return reads both. -/
theorem signalRoundTrip : Obligations.SignalRoundTrip := by
  intro s sig handler next file blocked current inRange short distinct regs writable readable sp
  let t := s.delivered sig handler
  let u := (t.setLive file).setCurrent { t.current with blocked := blocked }
  have tCurrent : t.cur < t.threads.length := by simpa [t, State.delivered] using current
  have uRecord : u.current = { s.handling sig with blocked := blocked } := by
    rw [← delivered_current current sig handler]
    exact current_setCurrent (t.setLive file) _ tCurrent
  let ctx : HandlerContext :=
    { snapshot := s.live, base := s.trampolineBase
      preSuspend := if s.current.suspended then some s.current.savedBlocked else none, blockedAt := s.current.blockedAt }
  have inside : u.current.context = some ctx := by rw [uRecord]; rfl
  have mask : restoredMask ctx u = .ok (if s.current.suspended then s.current.savedBlocked else s.current.blocked) := by
    cases suspended : s.current.suspended with
    | true => simp only [restoredMask, ctx, suspended]; rfl
    | false =>
      have address : u.savedMaskAddr ctx = .ok s.trampolineBase := by
        rw [State.savedMaskAddr]
        cases u.launch.sigmaskAddr with
        | recordedBase => rfl
        | currentSp =>
          have reg : u.hasReg u.params.spReg := regs s.params.spReg (List.mem_cons_self ..)
          exact (readGpr_ok reg).trans (congrArg Except.ok sp)
      obtain ⟨lo, hi, -⟩ := trampoline_parts (delivered_trampoline short sig handler)
      have same (n : Nat) (a : Word) : u.bytesAt n a = t.bytesAt n a := bytesAt_congr fun _ _ => rfl
      refine restoredMask_of_words (by simp [ctx, suspended]) address ?_ ((same ..).trans lo) ((same ..).trans hi)
      exact (firstFault_congr (s := s) (t := u) rfl ..).trans readable
  have record : (u.returned ctx (if s.current.suspended then s.current.savedBlocked else s.current.blocked)).current =
      u.current.returned ctx _ := current_setCurrent (u.restore ctx.snapshot) _ (by simpa [u] using tCurrent)
  exact ⟨t, _, deliverSignal_ok regs writable sig handler, returnFromHandler_ok inside mask, rfl,
    congrArg Thread.blocked record, congrArg Thread.context record,
    (congrArg Thread.blockedAt record).trans rfl⟩

end Sys2Proof.Machine
end

section
/-! The scheduler's fairness: its choices, one after the other, go round the table (R133). -/

namespace Sys2Proof.Machine

/-- The positions, counted round robin and without end from the current index, at which a runnable thread stands (R132). -/
abbrev State.turn (s : State) (a : Nat) : Prop := s.cur < a ∧ s.eligible (a % s.threads.length) = true

/-- The scheduler goes from one position to the next at which a runnable thread stands (R132). -/
theorem nextThread_of_next_turn {s : State} {c a : Nat} (after : c < a) (near : a ≤ c + s.threads.length)
    (runs : s.eligible (a % s.threads.length) = true)
    (waits : ∀ b, c < b → b < a → s.eligible (b % s.threads.length) = false) :
    ({ s with cur := c % s.threads.length } : State).nextThread = a % s.threads.length := by
  have position (d : Nat) : (c % s.threads.length + 1 + d) % s.threads.length = (c + 1 + d) % s.threads.length := by
    rw [add_assoc, Nat.mod_add_mod, add_assoc]
  have reached : c + 1 + (a - (c + 1)) = a := by omega
  have chosen := nextThread_of_first_eligible (s := { s with cur := c % s.threads.length }) (d := a - (c + 1))
    (by show _ < s.threads.length; omega) ((congrArg s.eligible ((position _).trans (by rw [reached]))).trans runs)
    fun e he => (congrArg s.eligible (position e)).trans (waits _ (by omega) (by omega))
  rw [chosen]
  exact (position _).trans (by rw [reached])

/-- As many runnable threads stand at the positions of one round as there are in the table (R133). -/
theorem count_turn_round (s : State) :
    Nat.count s.turn (s.cur + 1 + s.threads.length) = ((List.range s.threads.length).filter s.eligible).length := by
  have periodic : Function.Periodic (fun a => s.eligible (a % s.threads.length) = true) s.threads.length := fun a => by
    simp only [Nat.add_mod_right]
  have round : (Finset.range (s.cur + 1 + s.threads.length)).filter s.turn =
      (Finset.Ico (s.cur + 1) (s.cur + 1 + s.threads.length)).filter
        (fun a => s.eligible (a % s.threads.length) = true) := by
    ext a
    simp only [State.turn, Finset.mem_filter, Finset.mem_range, Finset.mem_Ico, Nat.succ_le_iff]
    tauto
  rw [Nat.count_eq_card_filter_range, round, Nat.filter_Ico_card_eq_of_periodic _ _ _ periodic, Nat.count,
    List.countP_eq_length_filter]
  congr 1
  exact List.filter_congr fun k hk => by simp [Nat.mod_eq_of_lt (List.mem_range.1 hk)]

section
variable {s : State} (current : s.cur < s.threads.length) {k : Nat} (inTable : k < s.threads.length) (runs : s.eligible k = true)
include current inTable runs

/-- A runnable thread stands at some position of the next round. -/
theorem exists_turn : ∃ a, a ≤ s.cur + s.threads.length ∧ s.turn a ∧ a % s.threads.length = k := by
  by_cases later : s.cur < k
  · exact ⟨k, by omega, ⟨later, by rwa [Nat.mod_eq_of_lt inTable]⟩, Nat.mod_eq_of_lt inTable⟩
  · have wrapped : (k + s.threads.length) % s.threads.length = k := by rw [Nat.add_mod_right, Nat.mod_eq_of_lt inTable]
    exact ⟨k + s.threads.length, by omega, ⟨by omega, by rwa [wrapped]⟩, wrapped⟩

theorem turn_infinite : (Set.ofPred s.turn).Infinite := by
  have pos : 0 < s.threads.length := Nat.lt_of_le_of_lt (Nat.zero_le _) current
  refine Set.infinite_of_injective_forall_mem (f := fun m : Nat => k + s.threads.length * (m + s.cur + 1))
    (fun a b same => ?_) fun m => ?_
  · have := Nat.eq_of_mul_eq_mul_left pos (Nat.add_left_cancel same)
    omega
  · have far : m + s.cur + 1 ≤ s.threads.length * (m + s.cur + 1) := Nat.le_mul_of_pos_left _ pos
    refine ⟨by omega, ?_⟩
    rwa [Nat.add_mul_mod_self_left, Nat.mod_eq_of_lt inTable]

end

/-- The current index, then the positions at which runnable threads stand, one after the other. -/
noncomputable def State.position (s : State) : Nat → Nat
  | 0 => s.cur
  | j + 1 => Nat.nth s.turn j

theorem count_position {s : State} (infinite : (Set.ofPred s.turn).Infinite) (j : Nat) :
    Nat.count s.turn (s.position j + 1) = j := by
  cases j with
  | zero => exact Nat.count_iff_forall_not.2 fun a ha turn => by have := turn.1; rw [State.position] at ha; omega
  | succ j => exact Nat.count_nth_succ_of_infinite infinite j

theorem position_turn {s : State} (infinite : (Set.ofPred s.turn).Infinite) (j : Nat) : s.turn (s.position (j + 1)) :=
  Nat.nth_mem_of_infinite infinite j

theorem position_lt_succ {s : State} (infinite : (Set.ofPred s.turn).Infinite) (j : Nat) :
    s.position j < s.position (j + 1) := by
  by_contra h
  have := (Nat.lt_nth_iff_count_lt infinite (a := j) (b := s.position j + 1)).2 (by rw [State.position] at h; omega)
  rw [count_position infinite] at this
  omega

theorem position_le {s : State} (infinite : (Set.ofPred s.turn).Infinite) (j : Nat) : s.cur ≤ s.position j := by
  cases j with
  | zero => exact Nat.le_refl _
  | succ j => exact Nat.le_of_lt (position_turn infinite j).1

/-- The next position is the least one above the last at which a runnable thread stands. -/
theorem position_succ_le {s : State} (infinite : (Set.ofPred s.turn).Infinite) {j a : Nat} (after : s.position j < a)
    (turn : s.turn a) : s.position (j + 1) ≤ a := by
  have counted : j ≤ Nat.count s.turn a := by
    rw [← count_position infinite j]
    exact Nat.count_monotone _ after
  refine Nat.le_of_lt_succ ((Nat.lt_nth_iff_count_lt infinite).1 ?_)
  rw [Nat.count_succ, if_pos turn]
  omega

section
variable {s : State} (current : s.cur < s.threads.length) (infinite : (Set.ofPred s.turn).Infinite)
include current infinite

/-- One choice of the scheduler goes from a position to the next (R132). -/
theorem nextThread_position (j : Nat) :
    ({ s with cur := s.position j % s.threads.length } : State).nextThread =
      s.position (j + 1) % s.threads.length := by
  have turn := position_turn infinite j
  have after := position_lt_succ infinite j
  have low := position_le infinite j
  refine nextThread_of_next_turn after ?near turn.2 fun b hb below => ?waits
  case near =>
    cases j with
    | zero =>
      obtain ⟨a, near, turn', -⟩ := exists_turn current (Nat.mod_lt _ (by omega)) turn.2
      exact (position_succ_le infinite turn'.1 turn').trans near
    | succ j =>
      obtain ⟨low, runs⟩ := position_turn infinite j
      exact position_succ_le infinite (by omega) ⟨by omega, by rwa [Nat.add_mod_right]⟩
  case waits =>
    refine Bool.eq_false_iff.2 fun runs => ?_
    have := position_succ_le infinite hb ⟨by omega, runs⟩
    omega

/-- The choices of the scheduler are the threads at the positions, in order (R132). -/
theorem choice_eq_position (j : Nat) :
    (fun c => ({ s with cur := c } : State).nextThread)^[j] s.cur = s.position j % s.threads.length := by
  induction j with
  | zero => exact (Nat.mod_eq_of_lt current).symm
  | succ j ih =>
    rw [Function.iterate_succ_apply', ih]
    exact nextThread_position current infinite j

end

/-- The first positions, as many as there are runnable threads, are those of one round (R133). -/
theorem position_in_round {s : State} {j : Nat} (hj : j ≤ ((List.range s.threads.length).filter s.eligible).length) :
    s.position j ≤ s.cur + s.threads.length := by
  cases j with
  | zero => exact Nat.le_add_right _ _
  | succ j =>
    rw [← count_turn_round s] at hj
    have := Nat.nth_lt_of_lt_count hj
    rw [State.position]
    omega

/-- Settles O46: the choices are the threads at the positions, and the positions of one round are those of each runnable
thread once. -/
theorem schedulerVisitsEveryThread : Obligations.SchedulerVisitsEveryThread := by
  intro s current runnable choice
  have mem (k : Nat) : k ∈ runnable ↔ k < s.threads.length ∧ s.eligible k = true := by
    simp only [runnable, List.mem_filter, List.mem_range]
  have infinite {k : Nat} (hk : k ∈ runnable) : (Set.ofPred s.turn).Infinite :=
    turn_infinite current ((mem k).1 hk).1 ((mem k).1 hk).2
  have chosen (endless : (Set.ofPred s.turn).Infinite) (j : Nat) : choice j = s.position j % s.threads.length :=
    choice_eq_position current endless j
  refine ⟨fun k hk => ?visited, fun nonempty j hj => ?noOther, fun i j hi less hj => ?distinct⟩
  case visited =>
    have endless := infinite hk
    obtain ⟨inTable, runs⟩ := (mem k).1 hk
    obtain ⟨a, near, turn, here⟩ := exists_turn current inTable runs
    have inRound : Nat.count s.turn a < runnable.length := by
      rw [← count_turn_round s]
      exact Nat.count_strict_mono turn (by omega)
    refine ⟨Nat.count s.turn a + 1, by omega, inRound, ?_⟩
    rw [chosen endless, ← here]
    exact congrArg (· % s.threads.length) (Nat.nth_count turn)
  case noOther =>
    obtain ⟨k, hk⟩ := List.exists_mem_of_ne_nil _ nonempty
    have endless := infinite hk
    obtain ⟨j, rfl⟩ : ∃ i, j = i + 1 := ⟨j - 1, by omega⟩
    rw [mem, chosen endless]
    exact ⟨Nat.mod_lt _ (by omega), (position_turn endless j).2⟩
  case distinct =>
    obtain ⟨k, hk⟩ := List.exists_mem_of_length_pos (l := runnable) (by omega)
    have endless := infinite hk
    have rising : StrictMono s.position := strictMono_nat_of_lt_succ (position_lt_succ endless)
    have apart := rising less
    have above := rising hi
    have round := position_in_round hj
    rw [chosen endless, chosen endless]
    intro same
    have : s.position j - s.position i < s.threads.length := by
      have : s.position 0 = s.cur := rfl
      omega
    have := Nat.mod_eq_zero_of_dvd ((Nat.modEq_iff_dvd' apart.le).1 same)
    rw [Nat.mod_eq_of_lt ‹_›] at this
    omega

end Sys2Proof.Machine
end

section
/-! The signal check (R139 to R141), the calls that set the signal slots (R139, R144, R145), and the invariants after reset
(R153). -/

namespace Sys2Proof.Machine

/-! ## The signal check -/

theorem dispatch_eq_some_iff {t : Thread} {k : Nat} {handler : Word} :
    t.dispatch k = some handler ↔
      t.handler k = .address handler ∧ t.pending.getLsbD k = true ∧ t.blocked.getLsbD k = false := by
  rw [Thread.dispatch]
  cases t.handler k with
  | default | ignore => simp
  | address a => by_cases may : t.pending.getLsbD k = true ∧ t.blocked.getLsbD k = false <;> simp [may]

theorem mem_deliverable {t : Thread} {k : Nat} : k ∈ t.deliverable ↔ k < 64 ∧ ∃ handler, t.dispatch k = some handler := by
  simp [Thread.deliverable, Option.isSome_iff_exists]

/-- Nothing is delivered inside a handler (R141). -/
theorem checkSignals_inside {s : State} (inside : s.current.context.isSome = true) : checkSignals s = .ok s := by
  simp only [checkSignals, inside, if_true]

/-- Nothing is delivered where no signal may be (R140). -/
theorem checkSignals_none {s : State} (none : s.current.deliverable = []) : checkSignals s = .ok s := by
  simp only [checkSignals, none, pickFrom]
  split <;> rfl

/-- Outside any handler a signal that may be delivered is (R140). -/
theorem checkSignals_some {s : State} (outside : s.current.context = none) (nonempty : s.current.deliverable ≠ []) :
    ∃ k ∈ s.current.deliverable, ∃ handler, s.current.dispatch k = some handler ∧
      checkSignals s = deliverSignal k handler s := by
  obtain ⟨k, picked⟩ := pickFrom_isSome (choose := Config.sigPick s.current.candidates) nonempty
  have hk := pickFrom_mem picked
  obtain ⟨-, handler, dispatched⟩ := mem_deliverable.1 hk
  refine ⟨k, hk, handler, dispatched, ?_⟩
  simp [checkSignals, outside, picked, dispatched]

/-- Settles O53: `checkSignals_inside`, `checkSignals_none` and `checkSignals_some`. -/
theorem signalCheckOfTheThread : Obligations.SignalCheckOfTheThread := by
  intro s may
  have may_iff (k : Nat) (handler : Word) : may k handler ↔ k < 64 ∧ s.current.dispatch k = some handler :=
    and_congr_right fun _ => dispatch_eq_some_iff.symm
  refine ⟨checkSignals_inside, fun noSignal => ?_, fun outside sig handler allowed => ?_⟩
  · refine checkSignals_none (List.eq_nil_iff_forall_not_mem.2 fun k hk => ?_)
    obtain ⟨inRange, handler, dispatched⟩ := mem_deliverable.1 hk
    exact noSignal k handler ((may_iff k handler).2 ⟨inRange, dispatched⟩)
  · obtain ⟨inRange, dispatched⟩ := (may_iff sig handler).1 allowed
    obtain ⟨k, hk, h, dispatched', delivers⟩ :=
      checkSignals_some outside (List.ne_nil_of_mem (mem_deliverable.2 ⟨inRange, handler, dispatched⟩))
    have allowed' : may k h := (may_iff k h).2 ⟨(mem_deliverable.1 hk).1, dispatched'⟩
    refine ⟨⟨k, h, allowed', delivers⟩, fun only => ?_⟩
    obtain rfl := only k h allowed'
    rwa [Option.some.inj (dispatched'.symm.trans dispatched)] at delivers

/-! ## Places in the thread table -/

/-- The first record with a property, by its index. -/
theorem findIdx?_eq_some_iff_thread {s : State} {p : Thread → Bool} {k : Nat} :
    s.threads.findIdx? p = some k ↔
      k < s.threads.length ∧ p (s.thread k) = true ∧ ∀ j, j < k → p (s.thread j) = false := by
  rw [List.findIdx?_eq_some_iff_getElem]
  constructor
  · rintro ⟨inTable, here, before⟩
    refine ⟨inTable, by rwa [thread_getElem s inTable], fun j hj => ?_⟩
    rw [thread_getElem s (hj.trans inTable)]
    exact Bool.eq_false_iff.2 (before j hj)
  · rintro ⟨inTable, here, before⟩
    refine ⟨inTable, by rwa [← thread_getElem s inTable], fun j hj => ?_⟩
    rw [← thread_getElem s (hj.trans inTable), before j hj]
    nofun

/-- A run with two live threads is not a single-thread run (R144). -/
theorem singleThread_eq_false {s : State} {j k : Nat} (less : j < k) (first : (s.thread j).live = true)
    (second : (s.thread k).live = true) : s.singleThread = false := by
  have inTable := live_lt s second
  have split := List.take_append_drop (j + 1) s.threads
  have below : 0 < (s.threads.take (j + 1)).countP (·.live) := List.countP_pos_iff.2
    ⟨s.thread j, by rw [thread_getElem s (less.trans inTable)]; exact List.mem_take_iff_getElem.2 ⟨j, by omega, rfl⟩, first⟩
  have above : 0 < (s.threads.drop (j + 1)).countP (·.live) := List.countP_pos_iff.2
    ⟨s.thread k, by
      rw [thread_getElem s inTable]
      exact List.mem_drop_iff_getElem.2 ⟨k - (j + 1), by omega, by congr 1; omega⟩, second⟩
  rw [State.singleThread, ← List.countP_eq_length_filter, ← split, List.countP_append]
  exact beq_eq_false_iff_ne.2 (by omega)

theorem singleThread_of_one {s : State} {th : Thread} (one : s.threads = [th]) (live : th.live = true) :
    s.singleThread = true := by simp [State.singleThread, one, live]

/-! ## The calls that set the signal slots -/

/-- The set of one signal (R139). -/
theorem oneBit_getLsbD {sig : Nat} (inRange : sig < 64) (k : Nat) : (1#64 <<< sig).getLsbD k = decide (k = sig) := by
  rw [BitVec.getLsbD_shiftLeft, BitVec.getLsbD_one, Bool.eq_iff_iff]
  simp
  omega

theorem signalOf_of_lt {v : Word} (inRange : v.toNat < 64) : signalOf v = some v.toNat := if_pos inRange

theorem handler_setIfInBounds (t : Thread) {k : Nat} (inRange : k < 64) (h : Handler) (j : Nat) :
    ({ t with handlers := t.handlers.setIfInBounds k h } : Thread).handler j = if j = k then h else t.handler j := by
  simp only [Thread.handler, Vector.getElem?_setIfInBounds]
  by_cases same : j = k
  · simp [same, inRange]
  · simp [same, Ne.symm same]

/-- Settles O49: each call's slot effect is its `setThread`. -/
theorem signalCallsSetTheSlots : Obligations.SignalCallsSetTheSlots := by
  refine ⟨?register, ?mask, ?send⟩
  case register =>
    intro s sig handler dflVal ignVal current inRange
    let h : Handler := if handler = dflVal then .default else if handler = ignVal then .ignore else .address handler
    let t := s.setCurrent { s.current with handlers := s.current.handlers.setIfInBounds sig.toNat h }
    have record : t.current = { s.current with handlers := s.current.handlers.setIfInBounds sig.toNat h } :=
      current_setCurrent s _ current
    refine ⟨Config.callResult s.time, t, by simp only [registerCall, signalOf_of_lt inRange]; rfl, ?_, fun k other => ?_,
      by rw [record], by rw [record], fun j other => thread_setThread_other s _ other, rfl⟩
    · rw [record, handler_setIfInBounds _ inRange, if_pos rfl]
    · rw [record, handler_setIfInBounds _ inRange, if_neg other]
  case mask =>
    intro s how a b c mask current ab ac bc
    have set (blocked : SigSet) : (s.setCurrent { s.current with blocked := blocked }).current.blocked = blocked := by
      rw [current_setCurrent s _ current]
    refine ⟨fun block => ⟨_, _, if_pos block, set _⟩, fun unblock => ⟨_, _, (if_neg ?_).trans (if_pos unblock), set _⟩,
      fun replace => ⟨_, _, (if_neg ?_).trans ((if_neg ?_).trans (if_pos replace)), set _⟩,
      fun na nb nc => (if_neg na).trans ((if_neg nb).trans (if_neg nc))⟩
    · exact fun e => ab (e.symm.trans unblock)
    · exact fun e => ac (e.symm.trans replace)
    · exact fun e => bc (e.symm.trans replace)
  case send =>
    intro s target sig j inRange plain inTable live tid first
    have noAbort : ¬ (sig.toNat = s.launch.abortSignal ∧ target = s.current.tid ∧ s.singleThread = true) := by
      rintro ⟨abort, self, single⟩
      rcases plain with h | h | ⟨k, apart, live'⟩
      · exact h abort
      · exact h self
      · rcases Nat.lt_or_gt_of_ne apart with less | less
        · rw [singleThread_eq_false less live' live] at single; cases single
        · rw [singleThread_eq_false less live live'] at single; cases single
    have found : s.threads.findIdx? (fun t => t.live && t.tid == target) = some j :=
      findIdx?_eq_some_iff_thread.2 ⟨inTable, by simp [live, tid], fun i hi => by simpa using first i hi⟩
    have record (t : Thread) : (s.setThread j t).thread j = t := thread_setThread_self s t inTable
    refine ⟨_, _, (if_neg noAbort).trans (by simp only [signalOf_of_lt inRange, found]; rfl), ?_, fun k other => ?_,
      fun i other => thread_setThread_other s _ other, rfl⟩
    · rw [record]
      simp [inRange]
    · rw [record, BitVec.getLsbD_or, oneBit_getLsbD inRange, decide_eq_false other, Bool.or_false]

/-! ## The trap as a step -/

/-- The trap of a run whose roles are ordinary registers: its call, its outcome's marks, the clock and the return point
(R107). -/
theorem exec_trap_of_hasRoles {s : State} (roles : s.hasRoles) (traps : s.traps .trap = true) :
    exec .trap s = outcome (handleTrap (s.after s.live.pc .trap) s >>= fun r =>
      syscallReturnPoint ((trapNext (s.after s.live.pc .trap) r).tick s.cur)) := by
  rw [exec_trap, finish_traps traps, State_setPc_pc_self, trapStep_of_hasRoles roles]

theorem handleTrap_of_call {s : State} {call : Syscall} (requested : s.requestedCall = some call) (next : Word) :
    handleTrap next s = runCall next call s := by simp only [handleTrap, requested]

/-- Settles O54: the call ends the run before the return point. -/
theorem abortToSelfHalts : Obligations.AbortToSelfHalts := by
  intro s target sig v th roles traps one zero live requested readTarget readSig abort
  have self : s.current.tid = th.tid := by simp [State.current, State.thread, one, zero]
  have call (next : Word) : handleTrap next s = .error (.halt .abort s) := by
    rw [handleTrap_of_call requested]
    simp only [runCall, readTarget, readSig]
    exact if_pos ⟨abort, self.symm, singleThread_of_one one live⟩
  rw [exec_trap_of_hasRoles roles traps, call]
  exact ⟨_, rfl, rfl, rfl⟩

/-! ## Reset -/

/-- Settles O60: the fields of the reset state. -/
theorem resetMeetsTheInvariants : Obligations.ResetMeetsTheInvariants := by
  have one : State.reset.threads = [Thread.initial 0] := rfl
  refine ⟨rfl, List.Pairwise.nil, ⟨by decide, fun k hk => ?_, fun _ => rfl⟩, ⟨by decide, ?_⟩, ?_, ⟨by decide, by decide⟩, ?_⟩
  · obtain rfl : k = 0 := by simpa [one] using hk
    rfl
  · simp [one, Thread.initial, Thread.empty]
  · simp [State.snapshotsInHandlers, one, Thread.initial, Thread.empty]
  · unfold State.idsDistinct; decide

end Sys2Proof.Machine
end

section
/-! What a call keeps of the threads (R128): a relation between the states before and after it, for the invariants of the
thread table and the Register Files (R14, R15, R135, D39). -/

namespace Sys2Proof.Machine

/-! ## Shapes -/

theorem shaped_iff {p : Params} {f : RegFile} :
    f.shaped p = true ↔ f.gpr.length = p.numGpr ∧ f.ps.length = p.layout.ps.length := by
  simp [RegFile.shaped]

/-- A write of a register that exists keeps the file's shape (R14). -/
theorem shaped_setReg {p : Params} {f : RegFile} {k : Nat} (hk : k < p.numGpr) (v : Word) (h : f.shaped p = true) :
    (f.setReg k v).shaped p = true := by
  obtain ⟨gpr, ps⟩ := shaped_iff.1 h
  exact shaped_iff.2 ⟨(putReg_length (by rwa [gpr])).trans gpr, ps⟩

/-! ## Records and states alike -/

/-- Two records of one thread, before and after a change that leaves its life as it was: where `p`, its state is the same
but for being blocked. -/
structure Thread.Alike (p : Prop) (t u : Thread) : Prop where
  tid : u.tid = t.tid
  parked : u.parked = t.parked
  context : u.context = t.context
  inside : (u.state == .inSignalHandler) = (t.state == .inSignalHandler)
  state : p → u.state.unblocked = t.state.unblocked

theorem Thread.Alike.refl (p : Prop) (t : Thread) : t.Alike p t := ⟨rfl, rfl, rfl, rfl, fun _ => rfl⟩

theorem Thread.Alike.trans {p : Prop} {t u v : Thread} (h : t.Alike p u) (h' : u.Alike p v) : t.Alike p v :=
  ⟨h'.tid.trans h.tid, h'.parked.trans h.parked, h'.context.trans h.context, h'.inside.trans h.inside,
    fun hp => (h'.state hp).trans (h.state hp)⟩

/-- A thread is live, and its slot is free, as its state is once it counts as not blocked (R135). -/
theorem live_eq_unblocked (t : Thread) : t.live = (t.state.unblocked != .zombie && t.state.unblocked != .free) := by
  rw [Thread.live]
  cases t.state <;> rfl

theorem free_iff_unblocked (st : ThreadState) : st = .free ↔ st.unblocked = .free := by
  cases st <;> simp [ThreadState.unblocked]

theorem zombie_iff_unblocked (st : ThreadState) : st = .zombie ↔ st.unblocked = .zombie := by
  cases st <;> simp [ThreadState.unblocked]

theorem Thread.Alike.live {p : Prop} {t u : Thread} (h : t.Alike p u) (hp : p) : u.live = t.live := by
  rw [live_eq_unblocked, live_eq_unblocked, h.state hp]

theorem Thread.Alike.free {p : Prop} {t u : Thread} (h : t.Alike p u) (hp : p) : u.state = .free ↔ t.state = .free := by
  rw [free_iff_unblocked, free_iff_unblocked t.state, h.state hp]

theorem Thread.Alike.zombie {p : Prop} {t u : Thread} (h : t.Alike p u) (hp : p) : u.state = .zombie ↔ t.state = .zombie := by
  rw [zombie_iff_unblocked, zombie_iff_unblocked t.state, h.state hp]

/-- Two states with the same threads, each alike, and a live file that keeps its shape. -/
structure State.SameLives (p : Prop) (s u : State) : Prop where
  launch : u.launch = s.launch
  cur : u.cur = s.cur
  length : u.threads.length = s.threads.length
  record : ∀ k, (s.thread k).Alike p (u.thread k)
  shaped : s.live.shaped s.params = true → u.live.shaped s.params = true

theorem State.SameLives.params {p : Prop} {s u : State} (h : s.SameLives p u) : u.params = s.params :=
  congrArg Launch.params h.launch

theorem State.SameLives.trans {p : Prop} {s u w : State} (h : s.SameLives p u) (h' : u.SameLives p w) :
    s.SameLives p w where
  launch := h'.launch.trans h.launch
  cur := h'.cur.trans h.cur
  length := h'.length.trans h.length
  record k := (h.record k).trans (h'.record k)
  shaped hs := by
    rw [← h.params]
    exact h'.shaped (by rw [h.params]; exact h.shaped hs)

/-- A change that leaves the thread table. -/
theorem State.SameLives.of_threads {p : Prop} {s u : State} (launch : u.launch = s.launch) (cur : u.cur = s.cur)
    (threads : u.threads = s.threads) (shaped : s.live.shaped s.params = true → u.live.shaped s.params = true) :
    s.SameLives p u where
  launch := launch
  cur := cur
  length := by rw [threads]
  record k := by
    have same : u.thread k = s.thread k := by simp only [State.thread, threads]
    rw [same]
    exact .refl p _
  shaped := shaped

/-- The record at an index after a write of one. -/
theorem thread_setThread (s : State) (k : Nat) (t : Thread) (j : Nat) :
    (s.setThread k t).thread j = if j = k ∧ k < s.threads.length then t else s.thread j := by
  by_cases same : j = k
  · subst same
    by_cases inTable : j < s.threads.length
    · simp [inTable]
    · rw [if_neg (fun h => inTable h.2), thread_beyond s (Nat.le_of_not_lt inTable), thread_beyond _ (by simpa using inTable)]
  · simp [same]

/-- A write of a record alike. -/
theorem State.SameLives.setThread {p : Prop} {s : State} {k : Nat} {t : Thread} (alike : (s.thread k).Alike p t) :
    s.SameLives p (s.setThread k t) where
  launch := rfl
  cur := rfl
  length := by simp
  record j := by
    rw [thread_setThread]
    split
    · rename_i h; rw [h.1]; exact alike
    · exact .refl p _
  shaped h := h

theorem State.SameLives.current {p : Prop} {s u : State} (h : s.SameLives p u) : s.current.Alike p u.current := by
  rw [State.current, State.current, h.cur]
  exact h.record s.cur

/-- A write of the live file that keeps its shape. -/
theorem State.SameLives.setLive {p : Prop} {s : State} {f : RegFile}
    (shaped : s.live.shaped s.params = true → f.shaped s.params = true) : s.SameLives p (s.setLive f) :=
  .of_threads rfl rfl rfl shaped

/-- A change within a call that leaves every thread's life and the clock as they were. -/
structure State.Kept (s u : State) : Prop extends s.SameLives True u where
  time : u.time = s.time

theorem State.Kept.trans {s u w : State} (h : s.Kept u) (h' : u.Kept w) : s.Kept w :=
  ⟨h.toSameLives.trans h'.toSameLives, h'.time.trans h.time⟩

theorem State.Kept.of_threads {s u : State} (launch : u.launch = s.launch) (cur : u.cur = s.cur)
    (threads : u.threads = s.threads) (live : u.live = s.live) (time : u.time = s.time) : s.Kept u :=
  ⟨.of_threads launch cur threads (by rw [live]; exact id), time⟩

theorem State.SameLives.refl {p : Prop} (s : State) : s.SameLives p s := .of_threads rfl rfl rfl id

theorem State.Kept.refl (s : State) : s.Kept s := .of_threads rfl rfl rfl rfl rfl

theorem State.Kept.setThread {s : State} {k : Nat} {t : Thread} (alike : (s.thread k).Alike True t) :
    s.Kept (s.setThread k t) := ⟨.setThread alike, rfl⟩

/-! ## The parts of a call -/

/-- Part of a call that keeps the threads, whether the run goes on or ends in it. -/
inductive KeptEnd (s : State) : Except Stop State → Prop where
  | ok {u : State} (kept : s.Kept u) : KeptEnd s (.ok u)
  | halt (h : Halt) {u : State} (kept : s.Kept u) : KeptEnd s (.error (.halt h u))

theorem KeptEnd.trans {s u : State} {x : Except Stop State} (h : s.Kept u) (h' : KeptEnd u x) : KeptEnd s x := by
  cases h' with
  | ok kept => exact .ok (h.trans kept)
  | halt e kept => exact .halt e (h.trans kept)

theorem KeptEnd.bind {s : State} {x : Except Stop State} {k : State → Except Stop State} (h : KeptEnd s x)
    (hk : ∀ u, KeptEnd u (k u)) : KeptEnd s (x >>= k) := by
  cases h with
  | ok kept => exact .trans kept (hk _)
  | halt e kept => exact .halt e kept

/-- A call that returns or blocks, or ends the run, and keeps the threads. -/
inductive PlainEnd (s : State) : Except Stop TrapResult → Prop where
  | ret (v : Word) {u : State} (kept : s.Kept u) : PlainEnd s (.ok (.ret v u))
  | block {why : ThreadState} {u : State} (kept : s.Kept u) (waits : why.unblocked = .running) :
      PlainEnd s (.ok (.block why u))
  | halt (h : Halt) {u : State} (kept : s.Kept u) : PlainEnd s (.error (.halt h u))

theorem PlainEnd.trans {s u : State} {x : Except Stop TrapResult} (h : s.Kept u) (h' : PlainEnd u x) : PlainEnd s x := by
  cases h' with
  | ret v kept => exact .ret v (h.trans kept)
  | block kept waits => exact .block (h.trans kept) waits
  | halt e kept => exact .halt e (h.trans kept)

theorem KeptEnd.then {s : State} {x : Except Stop State} {k : State → Except Stop TrapResult} (h : KeptEnd s x)
    (hk : ∀ u, s.Kept u → PlainEnd u (k u)) : PlainEnd s (x >>= k) := by
  cases h with
  | ok kept => exact .trans kept (hk _ kept)
  | halt e kept => exact .halt e kept

theorem writeMem_kept (a : Word) (bs : List Byte) (s : State) : KeptEnd s (writeMem a bs s) := by
  rcases writeMem_cases a bs s with ⟨-, e⟩ | ⟨bad, -, e⟩ <;> rw [e]
  · exact .ok (.of_threads rfl rfl rfl rfl rfl)
  · exact .halt _ (.refl s)

theorem writeAll_kept (blocks : List (Word × List Byte)) (s : State) : KeptEnd s (writeAll blocks s) := by
  induction blocks generalizing s with
  | nil => exact .ok (.refl s)
  | cons b rest ih => exact (writeMem_kept b.1 b.2 s).bind ih

theorem unsupported_plain (cause : UnsupportedCause) (s : State) : PlainEnd s (unsupported cause s) := by
  rcases unsupported_cases cause s with ⟨ds, e⟩ | ⟨h, ds, e⟩ <;> rw [e]
  · exact .ret _ (.of_threads rfl rfl rfl rfl rfl)
  · exact .halt h (.of_threads rfl rfl rfl rfl rfl)

theorem applyReply_plain (r : HostReply) (s : State) : PlainEnd s (applyReply r s) := by
  cases r with
  | ret v writes => exact (writeAll_kept writes s).then fun u _ => .ret v (.refl u)
  | error n => exact .ret _ (.refl s)
  | blockPipe fds => exact .block (.setThread ⟨rfl, rfl, rfl, rfl, fun _ => rfl⟩) rfl
  | blockPoll => exact .block (.refl s) rfl
  | unsupported => exact unsupported_plain _ s
  | protocolViolation => exact unsupported_plain _ s
  | exhausted => exact .ret _ (.refl s)

theorem hostCall_plain (s : State) : PlainEnd s (hostCall s) := by
  refine .trans ?_ (applyReply_plain _ s.nextReply.2)
  rw [State.nextReply]
  split <;> exact .of_threads rfl rfl rfl rfl rfl

/-- Writing an operand back keeps the threads; a register it writes is an argument's, which exists (R131). -/
theorem writeSrc_kept {s : State} (args : ∀ k, s.params.argReg k < s.params.numGpr) (src : Src) (v : Word) :
    KeptEnd s (writeSrc src v s) := by
  cases src with
  | arg k => exact .ok ⟨.setLive (shaped_setReg (args k) v), rfl⟩
  | const w => exact .ok (.refl s)
  | mem k off => exact writeMem_kept _ _ s

theorem decreaseTimeout_kept {s : State} (args : ∀ k, s.params.argReg k < s.params.numGpr) (timeout : Src) :
    KeptEnd s (decreaseTimeout timeout s) := by
  rw [decreaseTimeout]
  split
  · exact .ok (.refl s)
  · rcases readSrc_cases timeout s with ⟨v, e⟩ | ⟨bad, e⟩ <;> rw [e]
    · exact writeSrc_kept args timeout _
    · exact .halt _ (.refl s)

theorem suspend_kept (mask : SigSet) (s : State) : s.Kept (s.suspend mask) := by
  rw [State.suspend]
  split
  · exact .refl s
  · exact .setThread ⟨rfl, rfl, rfl, rfl, fun _ => rfl⟩

theorem unsuspend_kept (s : State) : s.Kept s.unsuspend := by
  rw [State.unsuspend]
  split
  · exact .setThread ⟨rfl, rfl, rfl, rfl, fun _ => rfl⟩
  · exact .refl s

/-- The outcome of a suspend-style call: a return leaves the wait (Log 21). -/
def TrapResult.unsuspended : TrapResult → TrapResult
  | .ret v s => .ret v s.unsuspend
  | .block why s => .block why s
  | .resumed s => .resumed s
  | .exited s => .exited s

theorem suspendCall_none (mask : SigSet) (s : State) :
    suspendCall mask none s = hostCall (s.suspend mask) >>= fun r => .ok r.unsuspended := by
  show (hostCall (s.suspend mask) >>= _) = _
  cases hostCall (s.suspend mask) with
  | error e => rfl
  | ok r => cases r <;> rfl

theorem suspendCall_some (mask : SigSet) (timeout : Src) (s : State) :
    suspendCall mask (some timeout) s = decreaseTimeout timeout s >>= suspendCall mask none := rfl

theorem PlainEnd.unsuspended {s : State} {x : Except Stop TrapResult} (h : PlainEnd s x) :
    PlainEnd s (x >>= fun r => .ok r.unsuspended) := by
  cases h with
  | ret v kept => exact .ret v (kept.trans (unsuspend_kept _))
  | block kept waits => exact .block kept waits
  | halt h kept => exact .halt h kept

theorem suspendCall_plain {s : State} (args : ∀ k, s.params.argReg k < s.params.numGpr) (mask : SigSet)
    (timeout : Option Src) : PlainEnd s (suspendCall mask timeout s) := by
  have waits (u : State) : PlainEnd u (suspendCall mask none u) := by
    rw [suspendCall_none]
    exact .trans (suspend_kept mask u) (hostCall_plain _).unsuspended
  cases timeout with
  | none => exact waits s
  | some src => rw [suspendCall_some]; exact (decreaseTimeout_kept args src).then fun u _ => waits u

theorem mapPage_kept (perm : Perm) (s : State) (p : Word) : s.Kept (s.mapPage perm p) :=
  .of_threads rfl rfl rfl rfl rfl

theorem unmapPage_kept (s : State) (p : Word) : s.Kept (s.unmapPage p) := .of_threads rfl rfl rfl rfl rfl

theorem mapCall_plain (hint len : Word) (perm : Perm) (fill : List Byte) (s : State) :
    PlainEnd s (mapCall hint len perm fill s) := by
  rcases mapCall_cases hint len perm fill s with e | e | ⟨nonempty, fits, clear⟩
  · rw [e]; exact unsupported_plain _ s
  · rw [e]; exact .ret _ (.refl s)
  · rw [mapCall_granted nonempty fits clear]
    have mapped : s.Kept (s.mapPages perm (s.requestedPages hint len)) :=
      mapPages_keeps (P := s.Kept) (fun u p h => h.trans (mapPage_kept perm u p)) _ (.refl s)
    exact .ret _ (mapped.trans (.of_threads rfl rfl rfl rfl rfl))

theorem unmapCall_plain (addr len : Word) (s : State) : PlainEnd s (unmapCall addr len s) := by
  rw [unmapCall]
  split
  · exact unsupported_plain _ s
  · exact .ret _ (unmapPages_keeps (P := s.Kept) (fun u p h => h.trans (unmapPage_kept u p)) _ (.refl s))

theorem protectCall_plain (addr len prot noneVal : Word) (s : State) : PlainEnd s (protectCall addr len prot noneVal s) := by
  rw [protectCall]
  split
  · exact .ret _ (.of_threads rfl rfl rfl rfl rfl)
  · exact unsupported_plain _ s

theorem registerCall_plain (sig handler dflVal ignVal : Word) (s : State) :
    PlainEnd s (registerCall sig handler dflVal ignVal s) := by
  rw [registerCall]
  split
  · exact unsupported_plain _ s
  · exact .ret _ (.setThread ⟨rfl, rfl, rfl, rfl, fun _ => rfl⟩)

theorem maskCall_plain (how : Word) (mask : SigSet) (a b c : Word) (s : State) : PlainEnd s (maskCall how mask a b c s) := by
  have done (blocked : SigSet) (v : Word) : PlainEnd s (.ok (.ret v (s.setCurrent { s.current with blocked := blocked }))) :=
    .ret v (.setThread ⟨rfl, rfl, rfl, rfl, fun _ => rfl⟩)
  rw [maskCall]
  split
  · exact done _ _
  · split
    · exact done _ _
    · split
      · exact done _ _
      · exact unsupported_plain _ s

theorem sendCall_plain (target sig : Word) (s : State) : PlainEnd s (sendCall target sig s) := by
  rw [sendCall]
  split
  · exact .halt _ (.refl s)
  · split
    · exact .ret _ (.setThread ⟨rfl, rfl, rfl, rfl, fun _ => rfl⟩)
    · exact unsupported_plain _ s

end Sys2Proof.Machine
end

section
/-! The calls that change the life of a thread, clone, exit, wait and return from handler (R136 to R138, R142), and the rule by
which an invariant of the threads is carried through every step. -/

namespace Sys2Proof.Machine

/-! ## The ends of a call -/

/-- The state after the current thread's exit (R137). -/
def State.exiting (code : Word) (s : State) : State := s.setCurrent (s.current.exited code)

/-- The record of the thread a clone makes (R136). -/
def State.newThread (next newSp exitSignal : Word) (s : State) : Thread :=
  Thread.child s.newId s.current.tid exitSignal (s.live.childOf s.params newSp next)

/-- Everything `handle_trap` can do to the threads (R128). -/
inductive CallEnd (next : Word) (s : State) : Except Stop TrapResult → Prop where
  | plain {x : Except Stop TrapResult} (h : PlainEnd s x) : CallEnd next s x
  | cloned (newSp exitSignal : Word) {u : State} (placed : s.placeThread (s.newThread next newSp exitSignal) = some u)
      (sp : s.hasReg s.params.spReg) (ret : s.hasReg s.params.retReg) : CallEnd next s (.ok (.ret s.newId u))
  | harvested (k : Nat) (v : Word) {u : State} (kept : s.Kept u) (zombie : (u.thread k).state = .zombie) :
      CallEnd next s (.ok (.ret v (u.setThread k Thread.empty)))
  | resumed {ctx : HandlerContext} (mask : SigSet) (inside : s.current.context = some ctx) :
      CallEnd next s (.ok (.resumed (s.returned ctx mask)))
  | exited (code : Word) (other : ∃ k, ((s.exiting code).thread k).live = true) :
      CallEnd next s (.ok (.exited (s.exiting code)))
  | ended (code : Word) : CallEnd next s (.error (.halt (.exit code) (s.exiting code)))
  | refused (r : Refusal) : CallEnd next s (.error (.refuse r))

theorem any_live_iff {s : State} : s.threads.any (·.live) = true ↔ ∃ k, (s.thread k).live = true := by
  rw [List.any_eq_true]
  constructor
  · rintro ⟨t, ht, live⟩
    obtain ⟨k, hk, rfl⟩ := List.mem_iff_getElem.1 ht
    exact ⟨k, by rwa [thread_getElem s hk]⟩
  · rintro ⟨k, live⟩
    have hk := live_lt s live
    exact ⟨s.threads[k], List.getElem_mem hk, by rwa [← thread_getElem s hk]⟩

/-- Reading an operand first changes nothing of how a call ends. -/
theorem CallEnd.readSrc {next : Word} {s : State} (src : Src) {k : Word → Except Stop TrapResult}
    (h : ∀ v, CallEnd next s (k v)) : CallEnd next s (Machine.readSrc src s >>= k) := by
  rcases readSrc_cases src s with ⟨v, e⟩ | ⟨bad, e⟩ <;> rw [e]
  · exact h v
  · exact .plain (.halt _ (.refl s))

theorem cloneCall_end (next newSp exitSignal : Word) (s : State) : CallEnd next s (cloneCall next newSp exitSignal s) := by
  rw [cloneCall]
  split
  case h_1 u placed =>
    rcases checkRoles_result s [s.params.spReg, s.params.retReg] with ⟨e, regs⟩ | e | e <;> rw [e]
    · exact .cloned newSp exitSignal placed (regs _ (by simp)) (regs _ (by simp))
    · exact .refused _
    · exact .refused _
  case h_2 => exact .plain (.ret _ (.refl s))

theorem exitCall_end (next code : Word) (s : State) : CallEnd next s (exitCall code s) := by
  show CallEnd next s (if (s.exiting code).threads.any (·.live) then .ok (.exited (s.exiting code))
    else .error (.halt (.exit code) (s.exiting code)))
  split
  case isTrue other => exact .exited code (any_live_iff.1 other)
  case isFalse => exact .ended code

theorem KeptEnd.call {next : Word} {s : State} {x : Except Stop State} {k : State → Except Stop TrapResult}
    (h : KeptEnd s x) (hk : ∀ u, s.Kept u → CallEnd next s (k u)) : CallEnd next s (x >>= k) := by
  cases h with
  | ok kept => exact hk _ kept
  | halt e kept => exact .plain (.halt e kept)

theorem waitCall_end (next target flags buf : Word) (accepted : List Word) (s : State) :
    CallEnd next s (waitCall target flags buf accepted s) := by
  rw [waitCall]
  split
  case isFalse => exact .plain (unsupported_plain _ s)
  split
  case h_1 => exact .plain (.block (.refl s) rfl)
  case h_2 k found =>
    have zombie : (s.thread k).state = .zombie := by
      have harvestable := (findIdx?_eq_some_iff_thread.1 found).2.1
      simp only [State.harvestable, Bool.and_eq_true, beq_iff_eq] at harvestable
      exact harvestable.1.1
    have harvest {u : State} (kept : s.Kept u) : CallEnd next s (.ok (.ret (s.thread k).tid (u.setThread k Thread.empty))) :=
      .harvested k _ kept (((kept.record k).zombie trivial).2 zombie)
    split
    · exact harvest (.refl s)
    · exact (writeMem_kept buf _ s).call fun u kept => harvest kept

/-- Everything the read of two mask words can do (R142). -/
theorem readMask_cases (a : Word) (s : State) :
    let read : Except Stop SigSet := do
      let lo ← readWord a s
      let hi ← readWord (a + 4) s
      pure (hi ++ lo)
    (∃ mask, read = .ok mask) ∨ ∃ bad, read = .error (.halt (.addressFault bad) s) := by
  intro read
  rcases readWord_cases a s with ⟨-, lo⟩ | ⟨bad, -, lo⟩
  · rcases readWord_cases (a + 4) s with ⟨-, hi⟩ | ⟨bad, -, hi⟩
    · exact .inl ⟨_, by simp only [read, lo, hi]; rfl⟩
    · exact .inr ⟨bad, by simp only [read, lo, hi]; rfl⟩
  · exact .inr ⟨bad, by simp only [read, lo]; rfl⟩

/-- Everything the read of the mask a return restores can do (R142). -/
theorem restoredMask_cases (ctx : HandlerContext) (s : State) :
    (∃ mask, restoredMask ctx s = .ok mask) ∨ (∃ bad, restoredMask ctx s = .error (.halt (.addressFault bad) s)) ∨
      ∃ r, restoredMask ctx s = .error (.refuse r) := by
  cases suspended : ctx.preSuspend with
  | some mask => exact .inl ⟨mask, by simp only [restoredMask, suspended]⟩
  | none =>
    have address : (∃ a, s.savedMaskAddr ctx = .ok a) ∨ ∃ r, s.savedMaskAddr ctx = .error (.refuse r) := by
      rw [State.savedMaskAddr]
      cases s.launch.sigmaskAddr with
      | recordedBase => exact .inl ⟨_, rfl⟩
      | currentSp =>
        rcases readGpr_cases s.params.spReg s with ⟨-, e⟩ | ⟨r, e⟩
        · exact .inl ⟨_, e⟩
        · exact .inr ⟨r, e⟩
    rcases address with ⟨a, e⟩ | ⟨r, e⟩
    · simp only [restoredMask, suspended, e]
      exact (readMask_cases a s).imp id .inl
    · exact .inr (.inr ⟨r, by simp only [restoredMask, suspended, e]; rfl⟩)

theorem returnFromHandler_end (next : Word) (s : State) : CallEnd next s (returnFromHandler s) := by
  cases inside : s.current.context with
  | none =>
    have : returnFromHandler s = unsupported .protocolViolation s := by simp only [returnFromHandler, inside]
    rw [this]
    exact .plain (unsupported_plain _ s)
  | some ctx =>
    rcases returnFromHandler_cases inside with ⟨e, stopped, ends⟩ | ⟨mask, -, ends⟩ <;> rw [ends]
    · rcases restoredMask_cases ctx s with ⟨mask, h⟩ | ⟨bad, h⟩ | ⟨r, h⟩ <;> rw [h] at stopped <;> cases stopped
      · exact .plain (.halt _ (.refl s))
      · exact .refused r
    · exact .resumed mask inside

/-- Everything `handle_trap` can do to the threads, where the argument registers exist (R128). -/
theorem handleTrap_end (next : Word) {s : State} (args : ∀ k, s.params.argReg k < s.params.numGpr) :
    CallEnd next s (handleTrap next s) := by
  rw [handleTrap]
  split
  case h_2 => exact .plain (unsupported_plain _ s)
  case h_1 call _ =>
  cases call with
  | forward => exact .plain (hostCall_plain s)
  | poll timeout => exact .plain ((decreaseTimeout_kept args timeout).then fun u _ => hostCall_plain u)
  | clone newSp exitSignal => exact .readSrc _ fun sp => .readSrc _ fun sg => cloneCall_end next sp sg s
  | exit code => exact .readSrc _ fun c => exitCall_end next c s
  | wait target flags buf accepted =>
    exact .readSrc _ fun a => .readSrc _ fun b => .readSrc _ fun c => waitCall_end next a b c accepted s
  | mmapAnon hint len perm => exact .readSrc _ fun a => .readSrc _ fun b => .plain (mapCall_plain a b perm _ s)
  | mmapFile hint len perm => exact .readSrc _ fun a => .readSrc _ fun b => .plain (mapCall_plain a b perm _ s)
  | munmap addr len => exact .readSrc _ fun a => .readSrc _ fun b => .plain (unmapCall_plain a b s)
  | mprotect addr len prot noneVal =>
    exact .readSrc _ fun a => .readSrc _ fun b => .readSrc _ fun c => .plain (protectCall_plain a b c noneVal s)
  | sigRegister sig handler dflVal ignVal =>
    exact .readSrc _ fun a => .readSrc _ fun b => .plain (registerCall_plain a b dflVal ignVal s)
  | sigMask how lo hi blockVal unblockVal setVal =>
    exact .readSrc _ fun a => .readSrc _ fun b => .readSrc _ fun c => .plain (maskCall_plain a _ _ _ _ s)
  | sigSend target sig => exact .readSrc _ fun a => .readSrc _ fun b => .plain (sendCall_plain a b s)
  | sigSuspend lo hi timeout => exact .readSrc _ fun a => .readSrc _ fun b => .plain (suspendCall_plain args _ timeout)
  | sigReturn => exact returnFromHandler_end next s

end Sys2Proof.Machine
end

section
/-! The rule by which an invariant of the threads and the Register Files is carried through every step (R107, R132, R140). -/

namespace Sys2Proof.Machine

/-! ## The outcome of a call, the clock and the return point -/

/-- The live file and the record of the trap's thread after a normal return (R128). -/
theorem trapNext_ret_sameLives {p : Prop} (next v : Word) {s : State} (ret : s.params.retReg < s.params.numGpr) :
    s.SameLives p (trapNext next (.ret v s)) := by
  have record : s.SameLives p (s.setCurrent
      { s.current with state := s.current.state.unblocked, atSyscall := false, blockedAt := none, pipeWait := [] }) := by
    refine .setThread ⟨rfl, rfl, rfl, ?_, fun _ => ?_⟩
    · show (s.current.state.unblocked == _) = (s.current.state == _)
      cases s.current.state <;> rfl
    · show s.current.state.unblocked.unblocked = s.current.state.unblocked
      cases s.current.state <;> rfl
  exact record.trans (.setLive fun shaped => shaped_setReg ret v shaped)

/-- The record of the trap's thread after a blocking transition, where the thread is live (R130). -/
theorem trapNext_block_sameLives {p : Prop} (next : Word) {why : ThreadState} (waits : why.unblocked = .running) {s : State}
    (alive : p → s.current.live = true) : s.SameLives p (trapNext next (.block why s)) := by
  refine .setThread ⟨rfl, rfl, rfl, ?_, fun hp => ?_⟩
  · show (s.current.state.blocking why == _) = (s.current.state == _)
    have : why ≠ .inSignalHandler := by rintro rfl; cases waits
    cases s.current.state <;> simp [ThreadState.blocking, this]
  · show (s.current.state.blocking why).unblocked = s.current.state.unblocked
    have alive := alive hp
    rw [Thread.live] at alive
    cases h : s.current.state <;> rw [h] at alive <;> simp_all [ThreadState.blocking, ThreadState.unblocked]

theorem tick_sameLives {p : Prop} (s : State) (k : Nat) : s.SameLives p (s.tick k) :=
  (State.SameLives.setThread (k := k) (t := { s.thread k with lastRun := s.time }) ⟨rfl, rfl, rfl, rfl, fun _ => rfl⟩).trans
    (.of_threads rfl rfl rfl id)

/-- A switch leaves every record but for the parked file. -/
theorem switchTo_record (s : State) (k j : Nat) :
    ∃ f, (s.switchTo k).thread j = { s.thread j with parked := f } := by
  have unpark (s : State) : ∃ f, (s.unpark k).thread j = { s.thread j with parked := f } := by
    rw [State.unpark]
    cases parked : (s.thread k).parked with
    | none => exact ⟨(s.thread j).parked, rfl⟩
    | some f =>
      show ∃ g, (s.setThread k { s.thread k with parked := none }).thread j = _
      rw [thread_setThread]
      split
      · rename_i h; exact ⟨none, by rw [h.1]⟩
      · exact ⟨(s.thread j).parked, rfl⟩
  rw [State.switchTo]
  split
  · exact ⟨(s.thread j).parked, rfl⟩
  · split
    · obtain ⟨f, e⟩ := unpark (s.setCurrent { s.current with parked := some s.snapshot })
      refine ⟨f, e.trans ?_⟩
      rw [State.setCurrent, thread_setThread]
      split
      · rename_i h; rw [h.1]; rfl
      · rfl
    · exact unpark s

@[simp] theorem switchTo_cur (s : State) (k : Nat) : (s.switchTo k).cur = k := by
  have unpark (s : State) : (s.unpark k).cur = k := by
    rw [State.unpark]; split <;> rfl
  rw [State.switchTo]
  split
  · rename_i h; exact h.symm
  · split <;> exact unpark _

theorem switchTo_current_live {s : State} {k : Nat} (live : (s.thread k).live = true) :
    (s.switchTo k).current.live = true := by
  obtain ⟨f, e⟩ := switchTo_record s k k
  rw [State.current, switchTo_cur, e]
  exact live

/-- Alike records put in one place of the thread table. -/
theorem sameLives_setThread {p : Prop} {s : State} {k : Nat} {t u : Thread} (alike : t.Alike p u) :
    (s.setThread k t).SameLives p (s.setThread k u) where
  launch := rfl
  cur := rfl
  length := by simp
  record j := by
    rw [thread_setThread, thread_setThread]
    split
    · exact alike
    · exact .refl p _
  shaped h := h

/-- The registers a handler's entry writes keep the file's shape (R140). -/
theorem shaped_handlerFile {s : State} (regs : ∀ k ∈ deliveryRoles s.launch, s.hasReg k) (sig : Nat) (handler : Word)
    (shaped : s.live.shaped s.params = true) : (s.handlerFile sig handler).shaped s.params = true := by
  have exist (k : Nat) (hk : k ∈ deliveryRoles s.launch) : k < s.params.numGpr := (regs k hk).1
  have fold (ks : List (Fin 6)) (value : Fin 6 → Word) (f : RegFile)
      (inside : ∀ k ∈ ks, s.params.argReg k < s.params.numGpr) (h : f.shaped s.params = true) :
      (ks.foldl (fun g k => g.setReg (s.params.argReg k) (value k)) f).shaped s.params = true := by
    induction ks generalizing f with
    | nil => exact h
    | cons k rest ih =>
      exact ih _ (fun j hj => inside j (List.mem_cons_of_mem _ hj)) (shaped_setReg (inside k (List.mem_cons_self ..)) _ h)
  have entry := shaped_setReg (exist (s.params.argReg 0) (by simp [deliveryRoles])) (BitVec.ofNat 32 sig)
    (shaped_setReg (exist s.params.raReg (by simp [deliveryRoles])) (s.trampolineBase + 8)
      (shaped_setReg (exist s.params.spReg (by simp [deliveryRoles])) s.trampolineBase shaped))
  show (handlerArguments handler s _).shaped s.params = true
  rw [handlerArguments]
  cases named : s.launch.sigHandlerArg with
  | some j => exact shaped_setReg (exist _ (by simp [deliveryRoles, handlerRoles, named])) handler entry
  | none =>
    refine fold _ _ _ (fun k hk => exist _ ?_) entry
    simp only [deliveryRoles, handlerRoles, named, List.mem_cons]
    exact .inr (.inr (.inr (List.mem_map_of_mem hk)))

/-- A delivery that completes leaves the threads as the snapshot's saving does (R140). -/
theorem delivered_sameLives {p : Prop} {s : State} (regs : ∀ k ∈ deliveryRoles s.launch, s.hasReg k) (sig : Nat)
    (handler : Word) : (s.setCurrent s.interrupted).SameLives p (s.delivered sig handler) := by
  have record : (s.setCurrent s.interrupted).SameLives p (s.setCurrent (s.handling sig)) :=
    sameLives_setThread ⟨rfl, rfl, rfl, rfl, fun _ => rfl⟩
  exact record.trans (.of_threads rfl rfl rfl fun shaped => shaped_handlerFile regs sig handler shaped)

/-! ## The rule -/

/-- What an invariant of the threads must stand to hold after every step: a change that leaves every thread's life as it was,
and each change of a thread's life. Where `p`, the thread that changes is live. -/
structure Invariant (p : Prop) (P : State → Prop) : Prop where
  same : ∀ s u : State, s.SameLives p u → P s → P u
  cloned : ∀ (s u : State) (next newSp exitSignal : Word), (p → s.current.live = true) →
    s.placeThread (s.newThread next newSp exitSignal) = some u → s.hasReg s.params.spReg → s.hasReg s.params.retReg →
    P s → P u
  freed : ∀ (s : State) (k : Nat), (s.thread k).state = .zombie → P s → P (s.setThread k Thread.empty)
  resumed : ∀ (s : State) (ctx : HandlerContext) (mask : SigSet), (p → s.current.live = true) →
    s.current.context = some ctx → P s → P (s.returned ctx mask)
  exited : ∀ (s : State) (code : Word), (p → s.current.live = true) → P s → P (s.exiting code)
  switched : ∀ (s : State) (k : Nat), (p → (s.thread k).live = true) → P s → P (s.switchTo k)
  entered : ∀ s : State, (p → s.current.live = true) → P s → P (s.setCurrent s.interrupted)

/-- The end of a step has the property, and where `p` the run goes on with a live current thread. -/
def Lasts (p : Prop) (P : State → Prop) : Except Stop State → Prop
  | .ok t => P t ∧ (p → t.current.live = true)
  | .error (.halt _ t) => P t
  | .error (.fault _) => True
  | .error (.refuse _) => True

/-- A new thread goes to a slot that was free, and no other record changes (R136). -/
theorem placeThread_eq_some {s u : State} {t : Thread} (placed : s.placeThread t = some u) :
    ∃ k ts, u = { s with threads := ts } ∧ (s.thread k).state = .free ∧
      (∀ j, u.thread j = if j = k then t else s.thread j) ∧
      ((k < s.threads.length ∧ ts.length = s.threads.length) ∨
        (k = s.threads.length ∧ ts.length = s.threads.length + 1 ∧ s.threads.length < s.launch.maxThreads)) := by
  rw [State.placeThread] at placed
  split at placed
  case h_1 k found =>
    obtain ⟨inTable, free, -⟩ := findIdx?_eq_some_iff_thread.1 found
    cases placed
    refine ⟨k, _, rfl, by simpa using free, fun j => ?_, .inl ⟨inTable, by simp⟩⟩
    rw [thread_setThread]
    simp [inTable]
  case h_2 =>
    split at placed
    case isFalse => cases placed
    case isTrue room =>
      cases placed
      refine ⟨s.threads.length, _, rfl, by rw [thread_beyond s (Nat.le_refl _)]; rfl, fun j => ?_,
        .inr ⟨rfl, by simp, room⟩⟩
      simp only [State.thread, List.getD_eq_getElem?_getD, List.getElem?_append, List.getElem?_singleton]
      rcases Nat.lt_trichotomy j s.threads.length with less | rfl | more
      · rw [if_pos less, if_neg less.ne]
      · simp
      · simp [more.ne', Nat.not_lt.2 more.le, show j - s.threads.length ≠ 0 by omega]

theorem State.SameLives.mono {p : Prop} {s u : State} (h : s.SameLives True u) : s.SameLives p u :=
  { h with record := fun k =>
      ⟨(h.record k).tid, (h.record k).parked, (h.record k).context, (h.record k).inside, fun _ => (h.record k).state trivial⟩ }

theorem State.SameLives.exists_live {s u : State} (h : s.SameLives True u) (live : ∃ k, (s.thread k).live = true) :
    ∃ k, (u.thread k).live = true := by
  obtain ⟨k, live⟩ := live
  exact ⟨k, ((h.record k).live trivial).trans live⟩

theorem not_live_of_free {t : Thread} (free : t.state = .free) : t.live = false := by rw [Thread.live, free]; rfl

theorem not_live_of_zombie {t : Thread} (zombie : t.state = .zombie) : t.live = false := by rw [Thread.live, zombie]; rfl

/-- While the thread that trapped was live, some thread is after the call (R137). -/
theorem live_after_call {next : Word} {s : State} {r : TrapResult} (alive : s.current.live = true)
    (ends : CallEnd next s (.ok r)) (roles : ∀ k ∈ r.roles s.params, s.hasReg k) :
    ∃ k, ((trapNext next r).thread k).live = true := by
  have returned (v : Word) {u : State} (ret : s.hasReg s.params.retReg) (params : u.params = s.params)
      (live : ∃ k, (u.thread k).live = true) : ∃ k, ((trapNext next (.ret v u)).thread k).live = true :=
    (trapNext_ret_sameLives next v (by rw [params]; exact ret.1)).exists_live live
  have current {u : State} (kept : s.Kept u) : u.current.live = true := (kept.current.live trivial).trans alive
  have apart {k : Nat} (dead : (s.thread k).live = false) : s.cur ≠ k := by
    rintro rfl; rw [State.current, dead] at alive; cases alive
  cases ends with
  | plain plain =>
    cases plain with
    | ret v kept => exact returned v (roles _ (List.mem_singleton_self _)) kept.params ⟨_, current kept⟩
    | block kept waits =>
      exact (trapNext_block_sameLives next waits fun _ => current kept).exists_live ⟨_, current kept⟩
  | cloned newSp exitSignal placed sp ret =>
    obtain ⟨k, ts, rfl, free, record, -⟩ := placeThread_eq_some placed
    refine returned _ ret rfl ⟨s.cur, ?_⟩
    rw [record, if_neg (apart (not_live_of_free free))]
    exact alive
  | harvested k v kept zombie =>
    have dead : (s.thread k).live = false := not_live_of_zombie (((kept.record k).zombie trivial).1 zombie)
    refine returned v (roles _ (List.mem_singleton_self _)) kept.params ⟨s.cur, ?_⟩
    rw [thread_setThread_other _ _ (apart dead)]
    exact ((kept.record s.cur).live trivial).trans alive
  | @resumed ctx mask inside =>
    refine ⟨s.cur, ?_⟩
    have record : (s.returned ctx mask).thread s.cur = s.current.returned ctx mask :=
      thread_setThread_self (s.restore ctx.snapshot) _ (live_lt s alive)
    show ((s.returned ctx mask).thread s.cur).live = true
    rw [record]
    rfl
  | exited code other => exact other

namespace Invariant
variable {p : Prop} {P : State → Prop} (hP : Invariant p P)
include hP

/-- The invariant holds after a call and its outcome's marks. -/
theorem call {next : Word} {s : State} (alive : p → s.current.live = true) (h : P s) {r : TrapResult}
    (ends : CallEnd next s (.ok r)) (roles : ∀ k ∈ r.roles s.params, s.hasReg k) : P (trapNext next r) := by
  have returned (v : Word) {u : State} (ret : s.hasReg s.params.retReg) (params : u.params = s.params) (h : P u) :
      P (trapNext next (.ret v u)) :=
    hP.same _ _ (trapNext_ret_sameLives next v (by rw [params]; exact ret.1)) h
  have keeps {u : State} (kept : s.Kept u) : P u := hP.same _ _ kept.toSameLives.mono h
  cases ends with
  | plain plain =>
    cases plain with
    | ret v kept => exact returned v (roles _ (List.mem_singleton_self _)) kept.params (keeps kept)
    | block kept waits =>
      exact hP.same _ _ (trapNext_block_sameLives next waits fun hp => (kept.current.live trivial).trans (alive hp))
        (keeps kept)
  | cloned newSp exitSignal placed sp ret =>
    obtain ⟨k, ts, e, -⟩ := placeThread_eq_some placed
    exact returned _ ret (by rw [e]) (hP.cloned s _ next newSp exitSignal alive placed sp ret h)
  | harvested k v kept zombie =>
    exact returned v (roles _ (List.mem_singleton_self _)) kept.params (hP.freed _ k zombie (keeps kept))
  | resumed mask inside => exact hP.resumed s _ mask alive inside h
  | exited code other => exact hP.exited s code alive h

/-- The invariant holds where the run ends in a call. -/
theorem callHalt {next : Word} {s : State} (alive : p → s.current.live = true) (h : P s) {e : Halt} {u : State}
    (ends : CallEnd next s (.error (.halt e u))) : P u := by
  cases ends with
  | plain plain =>
    cases plain with
    | halt _ kept => exact hP.same _ _ kept.toSameLives.mono h
  | ended code => exact hP.exited s code alive h

theorem returnPoint {s : State} (alive : p → ∃ k, (s.thread k).live = true) (h : P s) :
    Lasts p P (syscallReturnPoint s) := by
  have live (hp : p) : (s.thread s.nextThread).live = true := nextThread_live s (alive hp)
  have switched := hP.switched s s.nextThread live h
  have alive (hp : p) : (s.switchTo s.nextThread).current.live = true := switchTo_current_live (live hp)
  rw [syscallReturnPoint]
  generalize s.switchTo s.nextThread = u at switched alive
  rcases checkSignals_cases u with e | ⟨k, handler, -, -, e⟩ <;> rw [e]
  · exact ⟨switched, alive⟩
  rcases deliverSignal_cases k handler u with (e | e) | ⟨bad, e⟩ | ⟨regs, e⟩ <;> rw [e]
  · trivial
  · trivial
  · exact hP.entered u alive switched
  · have delivered := delivered_sameLives (p := p) regs k handler
    refine ⟨hP.same _ _ delivered (hP.entered u alive switched), fun hp => ?_⟩
    rw [delivered.current.live hp, current_setCurrent u _ (live_lt u (alive hp))]
    rfl

theorem trap (next : Word) {s : State} (alive : p → s.current.live = true) (h : P s) : Lasts p P (trapStep next s) := by
  rw [trapStep]
  rcases checkRoles_result s (trapRoles s.params) with ⟨e, regs⟩ | e | e <;> rw [e]
  case inr.inl | inr.inr => trivial
  have args (k : Fin 6) : s.params.argReg k < s.params.numGpr := (regs _ (by simp [trapRoles, Params.argReg])).1
  have ends := handleTrap_end next args
  show Lasts p P (handleTrap next s >>= _)
  match handleTrap next s, ends with
  | .error (.refuse _), _ => trivial
  | .error (.fault _), _ => trivial
  | .error (.halt e u), ends => exact hP.callHalt alive h ends
  | .ok r, ends =>
    show Lasts p P (checkRoles s.params (r.roles s.params) >>= _)
    rcases checkRoles_result s (r.roles s.params) with ⟨e, roles⟩ | e | e <;> rw [e]
    case inr.inl | inr.inr => trivial
    have ticked := tick_sameLives (p := p) (trapNext next r) s.cur
    refine hP.returnPoint (fun hp => ?_) (hP.same _ _ ticked (hP.call alive h ends roles))
    obtain ⟨k, live⟩ := live_after_call (alive hp) ends roles
    exact ⟨k, ((ticked.record k).live hp).trans live⟩

/-- The invariant holds at the end of every step, once `EXEC` is done (R107). -/
theorem ends (q : Word) (op : OpcodeId) (br : Option Word) {s : State} (alive : p → s.current.live = true) (h : P s) :
    Lasts p P (finish q op br s) := by
  have moved (pc : Word) : P (s.setPc pc) := hP.same _ _ (.setLive id) h
  cases traps : s.traps op with
  | true => rw [finish_traps traps]; exact hP.trap _ alive (moved q)
  | false => rw [finish_plain traps]; exact ⟨moved _, alive⟩

/-- The invariant holds after a step whose outcome is a next state. -/
theorem outcome {x : Except Stop State} {t : State} (lasts : Lasts p P x) (h : Machine.outcome x = .next t) :
    P t ∧ (p → t.halted = none → t.current.live = true) := by
  rcases outcome_next h with rfl | ⟨e, u, rfl, rfl⟩
  · exact ⟨lasts.1, fun hp _ => lasts.2 hp⟩
  · exact ⟨hP.same u _ (.of_threads rfl rfl rfl id) lasts, nofun⟩

end Invariant

/-! ## Instructions and free effects -/

/-- An instruction's registers exist, so it keeps the file's shape (R14). -/
theorem execFile_shaped {s : State} {i : Instr} (regs : ∀ k ∈ writtenRegs i, s.hasReg k)
    (shaped : s.live.shaped s.params = true) : (s.execFile i).shaped s.params = true := by
  have exist (k : Nat) (hk : k ∈ writtenRegs i) : k < s.params.numGpr := (regs k hk).1
  have added {f : RegFile} (h : f.shaped s.params = true) (rd : RegNum) (hk : rd < s.params.numGpr) (a b : Word) :
      (f.added rd a b).shaped s.params = true := shaped_setReg hk _ h
  cases i with
  | addq rd imm => exact added shaped rd (exist rd (by simp [writtenRegs])) _ _
  | moveq rd imm => exact shaped_setReg (exist rd (by simp [writtenRegs])) _ shaped
  | addR rd rs => exact added shaped rd (exist rd (by simp [writtenRegs])) _ _
  | loadD am rd rs =>
    cases am with
    | false => exact shaped_setReg (exist rd (by simp [writtenRegs])) _ shaped
    | true =>
      exact shaped_setReg (exist rd (by simp [writtenRegs])) _ (shaped_setReg (exist rs (by simp [writtenRegs])) _ shaped)
  | bccS _ _ | bccW _ _ | trap | moveSprImmP7 _ | moveSprImmP11 _ | moveSprImm _ _ | moveSprReg _ _ => exact shaped

/-- A free effect leaves the threads, and keeps the live file's shape (R14, R110). -/
theorem run_sameLives {p : Prop} (q : Word) (e : Effect) {s₀ s : State} (h : s₀.SameLives p s) :
    EndsIn (s₀.SameLives p) Prod.snd (e.run q s) := by
  have write {s : State} (h : s₀.SameLives p s) {f : RegFile}
      (shaped : s.live.shaped s.params = true → f.shaped s.params = true) : s₀.SameLives p (s.setLive f) :=
    h.trans (.setLive shaped)
  induction e generalizing s with
  | done target => exact h
  | endRun status => exact h
  | readGpr i rest ih =>
    rcases readGpr_cases i s with ⟨-, e⟩ | ⟨_, e⟩ <;> simp only [Effect.run, e]
    · exact ih _ h
    · trivial
  | writeGpr i v rest ih =>
    rcases writeGpr_cases i v s with ⟨reg, e⟩ | ⟨_, e⟩ <;> simp only [Effect.run, e]
    · exact ih (write h (shaped_setReg reg.1 v))
    · trivial
  | readPc rest ih => exact ih _ h
  | writePc v rest ih => exact ih (write h id)
  | readFlag f rest ih =>
    simp only [Effect.run]
    split
    · exact ih _ h
    · trivial
  | writeFlag f b rest ih =>
    simp only [Effect.run]
    split
    · exact ih (write h fun shaped => shaped_iff.2 (by simpa using shaped_iff.1 shaped))
    · trivial
  | readFlags rest ih => exact ih _ h
  | writeFlags v rest ih => exact ih (write h fun shaped => shaped_iff.2 (by simpa using shaped_iff.1 shaped))
  | snapshot rest ih => exact ih _ h
  | restore f rest ih =>
    simp only [Effect.run]
    split
    case isTrue shaped => exact ih (write h fun _ => shaped)
    case isFalse => trivial
  | memRead a n rest ih =>
    rcases readMem_cases .read a n s with ⟨-, e⟩ | ⟨_, -, e⟩ <;> simp only [Effect.run, e]
    · exact ih _ h
    · exact h
  | memWrite a n v rest ih =>
    rcases writeMem_cases a (disassemble s.params.endian n v) s with ⟨-, e⟩ | ⟨_, -, e⟩ <;> simp only [Effect.run, e]
    · exact ih (h.trans (.of_threads rfl rfl rfl id))
    · exact h

/-- A step that gives a next state is of a run that goes on (R125). -/
theorem running_of_step {s t : State} (h : step s = .next t) : s.halted = none := by
  cases halted : s.halted with
  | none => rfl
  | some e => rw [step_of_halted halted] at h; cases h

theorem execEffect_eq (e : Effect) (op : OpcodeId) (s : State) :
    execEffect e op s = outcome (e.run s.live.pc s >>= fun r => finish s.live.pc op r.1 r.2) := rfl

/-- An invariant of the threads holds after the step of a free effect (R110). -/
theorem Invariant.effect {p : Prop} {P : State → Prop} (hP : Invariant p P) {s t : State}
    (alive : p → s.current.live = true) (h : P s) {e : Effect} {op : OpcodeId} (hs : execEffect e op s = .next t) :
    P t ∧ (p → t.halted = none → t.current.live = true) := by
  have effect := run_sameLives (p := p) s.live.pc e (.refl s)
  rw [execEffect_eq] at hs
  generalize e.run s.live.pc s = x at effect hs
  refine hP.outcome ?_ hs
  match x, effect with
  | .ok (br, u), same => exact hP.ends _ _ br (fun hp => (same.current.live hp).trans (alive hp)) (hP.same _ _ same h)
  | .error (.halt _ _), same => exact hP.same _ _ same h
  | .error (.fault _), _ => trivial
  | .error (.refuse _), _ => trivial

/-- An invariant of the threads holds after every step, and where `p` a run that goes on has a live current thread. -/
theorem Invariant.step {p : Prop} {P : State → Prop} (hP : Invariant p P) {s t : State}
    (alive : p → s.current.live = true) (h : P s) (hs : step s = .next t) :
    P t ∧ (p → t.halted = none → t.current.live = true) := by
  have halts (e : Halt) : P { s with halted := some e } := hP.same s _ (.of_threads rfl rfl rfl id) h
  rcases step_cases hs with ⟨r, rfl⟩ | ⟨d, -, ⟨i, -, e⟩ | ⟨-, e⟩⟩
  · exact ⟨halts r, nofun⟩
  · rcases exec_result i s with ⟨r, e'⟩ | ⟨-, bad, e'⟩ | ⟨regs, br, e'⟩ <;> rw [e'] at e
    · cases e
    · cases e; exact ⟨halts _, nofun⟩
    · have file : s.SameLives p (s.setLive (s.execFile i)) := .setLive (execFile_shaped regs)
      exact hP.outcome (hP.ends s.live.pc i.opcode br (s := s.setLive (s.execFile i)) alive (hP.same _ _ file h)) e
  · rw [execOpen] at e
    exact hP.effect alive h e

end Sys2Proof.Machine
end

section
/-! The invariants of the threads and the Register Files (R14, R15, R135, D39). -/

namespace Sys2Proof.Machine

/-! ## Properties of every record -/

/-- A property of every record of the table, which an empty slot has, is one of the record at every index. -/
theorem forall_threads_iff {Q : Thread → Prop} (empty : Q Thread.empty) {s : State} :
    (∀ t ∈ s.threads, Q t) ↔ ∀ k, Q (s.thread k) := by
  constructor
  · intro h k
    by_cases inTable : k < s.threads.length
    · rw [thread_getElem s inTable]; exact h _ (List.getElem_mem inTable)
    · rw [thread_beyond s (Nat.le_of_not_lt inTable)]; exact empty
  · intro h t ht
    obtain ⟨k, hk, rfl⟩ := List.mem_iff_getElem.1 ht
    rw [← thread_getElem s hk]
    exact h k

theorem forall_setThread {Q : Nat → Thread → Prop} {s : State} {k : Nat} {t : Thread} (h : ∀ j, Q j (s.thread j))
    (new : Q k t) (j : Nat) : Q j ((s.setThread k t).thread j) := by
  rw [thread_setThread]
  split
  · rename_i here; rw [here.1]; exact new
  · exact h j

/-! ## The shape of every file -/

/-- The files a record holds are of the machine's (R14, R31). -/
def Thread.Shaped (p : Params) (t : Thread) : Prop :=
  (∀ f ∈ t.parked, f.shaped p = true) ∧ ∀ c ∈ t.context, c.snapshot.shaped p = true

theorem shaped_of_none {p : Params} {t : Thread} (parked : t.parked = none) (context : t.context = none) : t.Shaped p := by
  rw [Thread.Shaped, parked, context]
  exact ⟨fun f hf => absurd hf (Option.not_mem_none f), fun c hc => absurd hc (Option.not_mem_none c)⟩

theorem Thread.Shaped.unparked {p : Params} {t : Thread} (h : t.Shaped p) : ({ t with parked := none } : Thread).Shaped p :=
  ⟨fun f hf => absurd hf (Option.not_mem_none f), h.2⟩

theorem Thread.Shaped.returned {p : Params} {t : Thread} (h : t.Shaped p) (ctx : HandlerContext) (mask : SigSet) :
    (t.returned ctx mask).Shaped p := ⟨h.1, fun c hc => absurd hc (Option.not_mem_none c)⟩

theorem filesShaped_iff {s : State} :
    s.filesShaped ↔ s.live.shaped s.params = true ∧ ∀ k, (s.thread k).Shaped s.params := by
  rw [State.filesShaped, ← forall_threads_iff (Q := Thread.Shaped s.params) (shaped_of_none rfl rfl)]
  rfl

theorem filesShaped_of {s u : State} (launch : u.launch = s.launch) (live : u.live.shaped s.params = true)
    (records : ∀ k, (u.thread k).Shaped s.params) : u.filesShaped := by
  have params : u.params = s.params := congrArg Launch.params launch
  rw [filesShaped_iff, params]
  exact ⟨live, records⟩

theorem filesShaped_unpark {s : State} (h : s.filesShaped) (k : Nat) : (s.unpark k).filesShaped := by
  obtain ⟨live, records⟩ := filesShaped_iff.1 h
  cases parked : (s.thread k).parked with
  | none =>
    have : s.unpark k = { s with cur := k } := by simp only [State.unpark, parked]
    rw [this]
    exact h
  | some f =>
    rw [unpark_of_parked parked]
    exact filesShaped_of (s := s) rfl ((records k).1 f parked)
      (forall_setThread (Q := fun _ => Thread.Shaped s.params) records (records k).unparked)

/-- Every change keeps the shape of every file: each is one of the files there were, or one with registers that exist
written (R14, R31). -/
theorem filesShaped_invariant : Invariant False State.filesShaped where
  same s u same h := by
    obtain ⟨live, records⟩ := filesShaped_iff.1 h
    refine filesShaped_of same.launch (same.shaped live) fun k => ?_
    rw [Thread.Shaped, (same.record k).parked, (same.record k).context]
    exact records k
  cloned s u next newSp exitSignal _ placed sp ret h := by
    obtain ⟨live, records⟩ := filesShaped_iff.1 h
    obtain ⟨k, ts, rfl, -, record, -⟩ := placeThread_eq_some placed
    refine filesShaped_of (s := s) rfl live fun j => ?_
    rw [record]
    split
    · refine ⟨fun f hf => ?_, fun c hc => absurd hc (Option.not_mem_none c)⟩
      cases hf
      exact shaped_setReg ret.1 _ (shaped_setReg sp.1 _ live)
    · exact records j
  freed s k _ h := by
    obtain ⟨live, records⟩ := filesShaped_iff.1 h
    exact filesShaped_of (s := s) rfl live
      (forall_setThread (Q := fun _ => Thread.Shaped s.params) records (shaped_of_none rfl rfl))
  resumed s ctx mask _ inside h := by
    obtain ⟨-, records⟩ := filesShaped_iff.1 h
    exact filesShaped_of (s := s) rfl ((records s.cur).2 ctx inside) (forall_setThread (s := s.restore ctx.snapshot)
      (Q := fun _ => Thread.Shaped s.params) records ((records s.cur).returned ctx mask))
  exited s code _ h := by
    obtain ⟨live, records⟩ := filesShaped_iff.1 h
    exact filesShaped_of (s := s) rfl live
      (forall_setThread (Q := fun _ => Thread.Shaped s.params) records (shaped_of_none rfl rfl))
  switched s k _ h := by
    obtain ⟨live, records⟩ := filesShaped_iff.1 h
    rw [State.switchTo]
    split
    · exact h
    · split
      · have leaving : Thread.Shaped s.params { s.current with parked := some s.snapshot } :=
          ⟨fun f hf => by cases hf; exact live, (records s.cur).2⟩
        exact filesShaped_unpark (s := s.setCurrent { s.current with parked := some s.snapshot })
          (filesShaped_of (s := s) rfl live (forall_setThread (Q := fun _ => Thread.Shaped s.params) records leaving)) k
      · exact filesShaped_unpark h k
  entered s _ h := by
    obtain ⟨live, records⟩ := filesShaped_iff.1 h
    refine filesShaped_of (s := s) rfl live (forall_setThread (Q := fun _ => Thread.Shaped s.params) records
      ⟨(records s.cur).1, fun c hc => ?_⟩)
    cases hc
    exact live

/-! ## Snapshots -/

/-- A record holds a pre-signal snapshot exactly inside a handler (R135). -/
def Thread.SnapshotInside (t : Thread) : Prop := t.context.isSome = (t.state == .inSignalHandler)

theorem snapshotsInHandlers_iff {s : State} : s.snapshotsInHandlers ↔ ∀ k, (s.thread k).SnapshotInside :=
  forall_threads_iff (Q := Thread.SnapshotInside) rfl

/-- Every change keeps the snapshots exactly with the threads inside a handler (R135). -/
theorem snapshotsInHandlers_invariant : Invariant False State.snapshotsInHandlers where
  same s u same h := snapshotsInHandlers_iff.2 fun k => by
    rw [Thread.SnapshotInside, (same.record k).context, (same.record k).inside]
    exact snapshotsInHandlers_iff.1 h k
  cloned s u next newSp exitSignal _ placed _ _ h := snapshotsInHandlers_iff.2 fun j => by
    obtain ⟨k, ts, rfl, -, record, -⟩ := placeThread_eq_some placed
    rw [record]
    split
    · rfl
    · exact snapshotsInHandlers_iff.1 h j
  freed s k _ h := snapshotsInHandlers_iff.2
    (forall_setThread (Q := fun _ => Thread.SnapshotInside) (snapshotsInHandlers_iff.1 h) rfl)
  resumed s ctx mask _ _ h := snapshotsInHandlers_iff.2 (forall_setThread (s := s.restore ctx.snapshot)
    (Q := fun _ => Thread.SnapshotInside) (snapshotsInHandlers_iff.1 h) rfl)
  exited s code _ h := snapshotsInHandlers_iff.2
    (forall_setThread (Q := fun _ => Thread.SnapshotInside) (snapshotsInHandlers_iff.1 h) rfl)
  switched s k _ h := snapshotsInHandlers_iff.2 fun j => by
    obtain ⟨f, e⟩ := switchTo_record s k j
    rw [e]
    exact snapshotsInHandlers_iff.1 h j
  entered s _ h := snapshotsInHandlers_iff.2
    (forall_setThread (Q := fun _ => Thread.SnapshotInside) (snapshotsInHandlers_iff.1 h) rfl)

/-- Settles O58: `snapshotsInHandlers_invariant`, carried through the step. -/
theorem stepKeepsSnapshotsInHandlers : Obligations.StepKeepsSnapshotsInHandlers := by
  intro s t h run
  have alive : False → s.current.live = true := False.elim
  have kept := snapshotsInHandlers_invariant.step alive h run
  exact kept.1

/-! ## One live file -/

/-- The parked files are those of the live threads but the current one (R15). -/
def State.parkedOthers (s : State) : Prop :=
  s.cur < s.threads.length ∧ ∀ k, (s.thread k).parked.isSome = (decide (k ≠ s.cur) && (s.thread k).live)

theorem oneLiveFile_iff {s : State} : s.oneLiveFile ↔ s.parkedOthers ∧ (s.halted = none → s.current.live = true) := by
  rw [State.oneLiveFile, State.parkedOthers, and_assoc]
  refine and_congr_right fun _ => and_congr_left fun _ => ⟨fun h k => ?_, fun h k _ => h k⟩
  by_cases inTable : k < s.threads.length
  · exact h k inTable
  · rw [thread_beyond s (Nat.le_of_not_lt inTable)]; simp [Thread.empty, Thread.live]

/-- What `parkedOthers` asks of the record at an index. -/
def ParkedAt (cur k : Nat) (t : Thread) : Prop := t.parked.isSome = (decide (k ≠ cur) && t.live)

/-- A change of the current thread's record that leaves no file parked in it. -/
theorem parkedOthers_setCurrent {s : State} (h : s.parkedOthers) {t : Thread} (none : t.parked = none) :
    (s.setCurrent t).parkedOthers :=
  ⟨by simpa using h.1, forall_setThread (Q := ParkedAt s.cur) h.2 (by simp [ParkedAt, none])⟩

theorem State.parkedOthers.current {s : State} (h : s.parkedOthers) : s.current.parked = none := by
  show (s.thread s.cur).parked = none
  simpa using h.2 s.cur

/-- Unparking a thread leaves the parked files with the others, where every other thread that is live has its own. -/
theorem parkedOthers_unpark {s : State} {k : Nat} {f : RegFile} (inTable : k < s.threads.length)
    (parked : (s.thread k).parked = some f) (others : ∀ j, j ≠ k → (s.thread j).parked.isSome = (s.thread j).live) :
    (s.unpark k).parkedOthers := by
  rw [unpark_of_parked parked]
  refine ⟨by simpa using inTable, fun j => ?_⟩
  show ParkedAt k j ((s.setThread k { s.thread k with parked := none }).thread j)
  by_cases here : j = k
  · subst here
    rw [thread_setThread_self s _ inTable]
    simp [ParkedAt]
  · rw [thread_setThread_other s _ here, ParkedAt, others j here]
    simp [here]

/-- A switch to a live thread parks the file that leaves, and unparks the one that enters (R105). -/
theorem parkedOthers_switchTo {s : State} (h : s.parkedOthers) {k : Nat} (live : (s.thread k).live = true) :
    (s.switchTo k).parkedOthers := by
  by_cases here : k = s.cur
  · rw [State.switchTo, if_pos here]; exact h
  obtain ⟨f, parked⟩ : ∃ f, (s.thread k).parked = some f :=
    Option.isSome_iff_exists.1 ((h.2 k).trans (by rw [decide_eq_true here, live]; rfl))
  have others (j : Nat) (other : j ≠ s.cur) : (s.thread j).parked.isSome = (s.thread j).live := by
    rw [h.2 j, decide_eq_true other, Bool.true_and]
  cases alive : s.current.live with
  | true =>
    rw [switchTo_of_live here alive]
    refine parkedOthers_unpark (f := f) (by simpa using live_lt s live)
      ((congrArg Thread.parked (thread_setThread_other s _ here)).trans parked) fun j _ => ?_
    by_cases leaving : j = s.cur
    · rw [leaving, State.setCurrent, thread_setThread_self s _ h.1]
      exact alive.symm
    · rw [State.setCurrent, thread_setThread_other s _ leaving]
      exact others j leaving
  | false =>
    rw [State.switchTo, if_neg here, alive, if_neg Bool.false_ne_true]
    refine parkedOthers_unpark (live_lt s live) parked fun j _ => ?_
    by_cases leaving : j = s.cur
    · rw [leaving]
      exact (congrArg Option.isSome h.current).trans alive.symm
    · exact others j leaving

/-- Every change keeps the parked files with the live threads but the current one (R15). -/
theorem parkedOthers_invariant : Invariant True State.parkedOthers where
  same s u same h := by
    refine ⟨by rw [same.cur, same.length]; exact h.1, fun k => ?_⟩
    rw [(same.record k).parked, (same.record k).live trivial, same.cur]
    exact h.2 k
  cloned s u next newSp exitSignal alive placed _ _ h := by
    obtain ⟨k, ts, rfl, free, record, place⟩ := placeThread_eq_some placed
    refine ⟨?_, fun j => ?_⟩
    · show s.cur < ts.length
      have := h.1
      omega
    · have apart : k ≠ s.cur := by
        rintro rfl
        have := not_live_of_free free
        rw [← State.current, alive trivial] at this
        cases this
      rw [record]
      split
      · rename_i here
        rw [here]
        exact (decide_eq_true apart).symm ▸ rfl
      · exact h.2 j
  freed s k _ h := ⟨by simpa using h.1, forall_setThread (Q := ParkedAt s.cur) h.2 (by simp [ParkedAt, Thread.empty, Thread.live])⟩
  resumed s ctx mask _ _ h := parkedOthers_setCurrent (s := s.restore ctx.snapshot) h h.current
  exited s code _ h := parkedOthers_setCurrent h rfl
  switched s k live h := parkedOthers_switchTo h (live trivial)
  entered s _ h := parkedOthers_setCurrent h h.current

theorem step_filesShaped {s t : State} (h : s.filesShaped) (run : step s = .next t) : t.filesShaped := by
  have alive : False → s.current.live = true := False.elim
  have kept := filesShaped_invariant.step alive h run
  exact kept.1

theorem step_oneLiveFile {s t : State} (h : s.oneLiveFile) (run : step s = .next t) : t.oneLiveFile := by
  obtain ⟨parked, alive⟩ := oneLiveFile_iff.1 h
  obtain ⟨parked', alive'⟩ := parkedOthers_invariant.step (fun _ => alive (running_of_step run)) parked run
  exact oneLiveFile_iff.2 ⟨parked', alive' trivial⟩

/-- Settles O57: `parkedOthers_invariant` and `filesShaped_invariant`, carried through the step. -/
theorem stepKeepsOneLiveFile : Obligations.StepKeepsOneLiveFile :=
  ⟨fun _ _ => step_oneLiveFile, fun _ _ => step_filesShaped⟩

/-! ## Thread ids -/

/-- No two threads in use have one id (D39). -/
def State.idsApart (s : State) : Prop :=
  ∀ j k, j ≠ k → (s.thread j).state ≠ .free → (s.thread k).state ≠ .free → (s.thread j).tid ≠ (s.thread k).tid

theorem lt_length_of_used {s : State} {k : Nat} (used : (s.thread k).state ≠ .free) : k < s.threads.length := by
  by_contra beyond
  exact used (by rw [thread_beyond s (Nat.le_of_not_lt beyond)]; rfl)

theorem used_of_live {t : Thread} (live : t.live = true) : t.state ≠ .free := fun free => by
  rw [not_live_of_free free] at live; cases live

theorem idsDistinct_iff {s : State} : s.idsDistinct ↔ s.idsApart := by
  have rising : s.idsDistinct ↔ ∀ j k, j < k → (s.thread j).state ≠ .free → (s.thread k).state ≠ .free →
      (s.thread j).tid ≠ (s.thread k).tid := by
    rw [State.idsDistinct, State.usedIds, List.Nodup, List.pairwise_map, List.pairwise_filter, List.pairwise_iff_getElem]
    constructor
    · intro h j k less used used'
      have hk : k < s.threads.length := lt_length_of_used used'
      rw [thread_getElem s hk] at used' ⊢
      rw [thread_getElem s (less.trans hk)] at used ⊢
      exact h j k (less.trans hk) hk less (by simpa using used) (by simpa using used')
    · intro h j k hj hk less used used'
      have apart := h j k less
      rw [thread_getElem s hk, thread_getElem s hj] at apart
      exact apart (by simpa using used) (by simpa using used')
  rw [rising]
  constructor
  · intro h j k apart used used'
    rcases Nat.lt_or_gt_of_ne apart with less | more
    · exact h j k less used used'
    · exact (h k j more used' used).symm
  · exact fun h j k less => h j k less.ne

theorem mem_usedIds {s : State} {id : Word} : id ∈ s.usedIds ↔ ∃ k, (s.thread k).state ≠ .free ∧ (s.thread k).tid = id := by
  simp only [State.usedIds, List.mem_map, List.mem_filter, bne_iff_ne]
  constructor
  · rintro ⟨t, ⟨ht, used⟩, rfl⟩
    obtain ⟨k, hk, rfl⟩ := List.mem_iff_getElem.1 ht
    exact ⟨k, by rwa [thread_getElem s hk], by rw [thread_getElem s hk]⟩
  · rintro ⟨k, used, rfl⟩
    have hk := lt_length_of_used used
    exact ⟨_, ⟨List.getElem_mem hk, by rwa [← thread_getElem s hk]⟩, by rw [← thread_getElem s hk]⟩

/-- The new id is in no use, where the table leaves one unused: it holds fewer threads than the ids tried (R136, D39). -/
theorem newId_fresh {s : State} (room : s.threads.length + 1 < 2 ^ 32) : s.newId ∉ s.usedIds := by
  rw [State.newId]
  split
  case isFalse unused => simpa using unused
  case isTrue =>
    let tried : List Word := (List.range (s.threads.length + 1)).map (fun k => BitVec.ofNat 32 (k + 1))
    have distinct : tried.Nodup := by
      refine List.Nodup.map_on (fun j hj k hk same => ?_) List.nodup_range
      have same := congrArg BitVec.toNat same
      rw [List.mem_range] at hj hk
      rw [BitVec.toNat_ofNat, BitVec.toNat_ofNat, Nat.mod_eq_of_lt (by omega), Nat.mod_eq_of_lt (by omega)] at same
      omega
    have spare : ∃ id ∈ tried, id ∉ s.usedIds := by
      by_contra all
      have sub : tried ⊆ s.usedIds := fun id hid => by_contra fun unused => all ⟨id, hid, unused⟩
      have many := (List.subperm_of_subset distinct sub).length_le
      have few : s.usedIds.length ≤ s.threads.length := by
        rw [State.usedIds, List.length_map]; exact List.length_filter_le ..
      have : tried.length = s.threads.length + 1 := by simp [tried]
      omega
    obtain ⟨id, found⟩ : ∃ id, tried.find? (fun id => !s.usedIds.contains id) = some id :=
      Option.isSome_iff_exists.1 (List.find?_isSome.2 (spare.imp fun id h => ⟨h.1, by simpa using h.2⟩))
    have unused := List.find?_some found
    show (List.find? _ tried).getD 0 ∉ _
    rw [found]
    simpa using unused

@[simp] theorem switchTo_length (s : State) (k : Nat) : (s.switchTo k).threads.length = s.threads.length := by
  have unpark (s : State) : (s.unpark k).threads.length = s.threads.length := by
    rw [State.unpark]; split <;> simp
  rw [State.switchTo]
  split
  · rfl
  · split
    · exact (unpark _).trans (by simp [State.setCurrent])
    · exact unpark s

/-- The thread table fits, and no two threads in use have one id (R136, D39). -/
def State.idsFit (s : State) : Prop := s.tableFits ∧ s.idsApart

/-- A change of a thread in use that leaves its id. -/
theorem idsApart_setThread {s : State} (h : s.idsApart) {k : Nat} {t : Thread} (tid : t.tid = (s.thread k).tid)
    (used : t.state ≠ .free → (s.thread k).state ≠ .free) : (s.setThread k t).idsApart := by
  have same (j : Nat) : ((s.setThread k t).thread j).tid = (s.thread j).tid ∧
      (((s.setThread k t).thread j).state ≠ .free → (s.thread j).state ≠ .free) :=
    forall_setThread (Q := fun j u => u.tid = (s.thread j).tid ∧ (u.state ≠ .free → (s.thread j).state ≠ .free))
      (fun _ => ⟨rfl, id⟩) ⟨tid, used⟩ j
  intro i j apart usedI usedJ
  rw [(same i).1, (same j).1]
  exact h i j apart ((same i).2 usedI) ((same j).2 usedJ)

theorem idsFit_setThread {s : State} (h : s.idsFit) {k : Nat} {t : Thread} (tid : t.tid = (s.thread k).tid)
    (used : t.state ≠ .free → (s.thread k).state ≠ .free) : (s.setThread k t).idsFit :=
  ⟨by simpa [State.tableFits] using h.1, idsApart_setThread h.2 tid used⟩

/-- Every change keeps the table fitting and the ids apart: a new thread takes an id in no use (R136, D39). -/
theorem idsFit_invariant : Invariant True State.idsFit where
  same s u same h := by
    refine ⟨?_, fun j k apart usedJ usedK => ?_⟩
    · rw [State.tableFits, same.length, same.launch]; exact h.1
    · rw [(same.record j).tid, (same.record k).tid]
      exact h.2 j k apart (mt ((same.record j).free trivial).2 usedJ) (mt ((same.record k).free trivial).2 usedK)
  cloned s u next newSp exitSignal _ placed _ _ h := by
    obtain ⟨fits, apart⟩ := h
    have fresh := newId_fresh (s := s) (by have := fits.1; have := fits.2; omega)
    have new (j : Nat) (used : (s.thread j).state ≠ .free) : (s.thread j).tid ≠ s.newId := fun same =>
      fresh (mem_usedIds.2 ⟨j, used, same⟩)
    obtain ⟨k, ts, rfl, -, record, place⟩ := placeThread_eq_some placed
    refine ⟨⟨?_, fits.2⟩, fun i j other => ?_⟩
    · show ts.length ≤ s.launch.maxThreads
      have := fits.1
      omega
    · rw [record, record]
      split
      · rename_i here
        rw [if_neg fun there => other (here.trans there.symm)]
        exact fun _ used => (new j used).symm
      · split
        · exact fun used _ => new i used
        · exact apart i j other
  freed s k _ h := by
    refine ⟨by simpa [State.tableFits] using h.1, fun i j other usedI usedJ => ?_⟩
    have same (j : Nat) (used : ((s.setThread k Thread.empty).thread j).state ≠ .free) :
        (s.setThread k Thread.empty).thread j = s.thread j := by
      rw [thread_setThread] at used ⊢
      split at used
      · exact absurd rfl used
      · rename_i kept; rw [if_neg kept]
    rw [same i usedI, same j usedJ]
    exact h.2 i j other (by rwa [← same i usedI]) (by rwa [← same j usedJ])
  resumed s ctx mask alive _ h :=
    idsFit_setThread (s := s.restore ctx.snapshot) h rfl fun _ => used_of_live (alive trivial)
  exited s code alive h := idsFit_setThread h rfl fun _ => used_of_live (alive trivial)
  switched s k _ h := by
    refine ⟨?_, fun i j other => ?_⟩
    · rw [State.tableFits, switchTo_length, (switchTo_same s k).2.2.2.2.2.1]; exact h.1
    · obtain ⟨f, e⟩ := switchTo_record s k i
      obtain ⟨g, e'⟩ := switchTo_record s k j
      rw [e, e']
      exact h.2 i j other
  entered s alive h := idsFit_setThread h rfl fun _ => used_of_live (alive trivial)

/-- Settles O59: `idsFit_invariant`, carried through the step. -/
theorem stepKeepsIdsDistinct : Obligations.StepKeepsIdsDistinct := by
  intro s t fits one distinct run
  have alive := (oneLiveFile_iff.1 one).2 (running_of_step run)
  obtain ⟨⟨fits', apart⟩, -⟩ := idsFit_invariant.step (fun _ => alive) ⟨fits, idsDistinct_iff.1 distinct⟩ run
  exact ⟨fits', idsDistinct_iff.2 apart⟩

end Sys2Proof.Machine
end

section
/-! What a step does to the clock, and what only a trap touches (R108, R134). -/

namespace Sys2Proof.Machine

/-! ## The clock -/

theorem PlainEnd.time {s : State} {x : Except Stop TrapResult} (h : PlainEnd s x) :
    EndsIn (fun u => u.time = s.time) TrapResult.state x := by
  cases h with
  | ret v kept => exact kept.time
  | block kept waits => exact kept.time
  | halt e kept => exact kept.time

/-- No call moves the clock (R134). -/
theorem CallEnd.time {next : Word} {s : State} {x : Except Stop TrapResult} (h : CallEnd next s x) :
    EndsIn (fun u => u.time = s.time) TrapResult.state x := by
  cases h with
  | plain plain => exact plain.time
  | cloned newSp exitSignal placed sp ret =>
    obtain ⟨k, ts, rfl, -⟩ := placeThread_eq_some placed
    rfl
  | harvested k v kept zombie => exact kept.time
  | resumed mask inside => rfl
  | exited code other => rfl
  | ended code => rfl
  | refused r => trivial

/-- The return point does not move the clock (R132). -/
theorem returnPoint_time (s : State) : EndsIn (fun u => u.time = s.time) id (syscallReturnPoint s) := by
  have switched : (s.switchTo s.nextThread).time = s.time := (switchTo_same s _).2.2.2.2.1
  rw [syscallReturnPoint]
  rcases checkSignals_cases (s.switchTo s.nextThread) with e | ⟨k, handler, -, -, e⟩ <;> rw [e]
  · exact switched
  rcases deliverSignal_cases k handler (s.switchTo s.nextThread) with (e | e) | ⟨bad, e⟩ | ⟨-, e⟩ <;> rw [e]
  · trivial
  · trivial
  · exact switched
  · exact switched

/-- The clock after an instruction counted as a trap: it has gone up by one, or the run ended before (R134). -/
def Counted (s t : State) : Prop := t.time = s.time + 1 ∨ (t.time = s.time ∧ t.over = true)

theorem trapStep_counted {next : Word} {s t : State} (h : outcome (trapStep next s) = .next t) : Counted s t := by
  rw [trapStep] at h
  rcases checkRoles_result s (trapRoles s.params) with ⟨e, regs⟩ | e | e <;> rw [e] at h
  case inr.inl | inr.inr => cases h
  have args (k : Fin 6) : s.params.argReg k < s.params.numGpr := (regs _ (by simp [trapRoles, Params.argReg])).1
  have time := (handleTrap_end next args).time
  change outcome (handleTrap next s >>= _) = _ at h
  match handleTrap next s, time, h with
  | .error (.refuse _), _, h => cases h
  | .error (.fault _), _, h => cases h
  | .error (.halt e u), time, h => cases h; exact .inr ⟨time, rfl⟩
  | .ok r, time, h =>
    change outcome (checkRoles s.params (r.roles s.params) >>= _) = _ at h
    rcases checkRoles_result s (r.roles s.params) with ⟨e, -⟩ | e | e <;> rw [e] at h
    case inr.inl | inr.inr => cases h
    have after : ((trapNext next r).tick s.cur).time = s.time + 1 :=
      congrArg (· + 1) ((trapNext_same next r).2.2.2.1.trans time)
    have returned := returnPoint_time ((trapNext next r).tick s.cur)
    rw [after] at returned
    rcases outcome_next h with e | ⟨halt, u, e, rfl⟩
    · exact .inl (by change syscallReturnPoint _ = _ at e; rw [e] at returned; exact returned)
    · exact .inl (by change syscallReturnPoint _ = _ at e; rw [e] at returned; exact returned)

/-- The clock after the end of a step (R107, R134). -/
theorem finish_counted {p : Word} {op : OpcodeId} {br : Option Word} {s t : State}
    (h : outcome (finish p op br s) = .next t) : if s.traps op then Counted s t else t.time = s.time := by
  cases traps : s.traps op with
  | true =>
    rw [finish_traps traps] at h
    exact trapStep_counted (s := s.setPc p) h
  | false =>
    rw [finish_plain traps] at h
    cases h
    rfl

/-- Settles O47: an instruction is its file or effect, which leaves the clock, and the end of the step. -/
theorem logicalTimeCountsTraps : Obligations.LogicalTimeCountsTraps := by
  intro s t counted
  have ended {op : OpcodeId} {e : Halt} {u : State} (time : u.time = s.time) (h : t = { u with halted := some e }) :
      counted op := by
    subst h
    show if s.traps op then _ else _
    split
    · exact .inr ⟨time, rfl⟩
    · exact time
  refine ⟨fun i run => ?instr, fun e op run => ?effect⟩
  case instr =>
    rcases exec_cases i s with ⟨r, e⟩ | ⟨r, e⟩ | ⟨f, br, e⟩ <;> rw [e] at run
    · cases run
    · exact ended (u := s) rfl (Host.Outcome.next.inj run).symm
    · exact finish_counted (s := s.setLive f) run
  case effect =>
    rw [execEffect_eq] at run
    have same := run_same s.live.pc e s
    match Effect.run s.live.pc e s, same, run with
    | .ok (br, _), ⟨f, mem, rfl⟩, run => exact finish_counted (s := { s.setLive f with mem := mem }) run
    | .error (.halt h _), ⟨f, mem, rfl⟩, run =>
      exact ended (u := { s.setLive f with mem := mem }) rfl (Host.Outcome.next.inj run).symm
    | .error (.fault _), _, run => cases run
    | .error (.refuse _), _, run => cases run

/-! ## The environment -/

/-- The launch parameters are carried through every call. -/
theorem launch_carried (launch : Launch) : Carried (fun u => u.launch = launch) where
  other _ _ _ _ _ same h := same.trans h
  stores _ _ _ h := h
  maps s perm addrs _ _ h := (mapPages_launch perm addrs s).trans h
  unmaps s addrs h := (unmapPages_launch addrs s).trans h
  guards _ _ h := h

/-- No step changes the launch parameters (R6). -/
theorem step_launch {s t : State} (h : step s = .next t) : t.launch = s.launch := (launch_carried s.launch).step rfl h

/-- Settles O48: an instruction that does not trap is its file, or the file and bytes its effect writes. -/
theorem onlyTrapsTouchTheEnvironment : Obligations.OnlyTrapsTouchTheEnvironment := by
  refine ⟨fun i s t plain run => ?instr, fun e op s t plain run => ?effect, fun s t => step_launch⟩
  case instr =>
    obtain ⟨f, h, rfl⟩ := exec_onlyFile plain run
    exact ⟨⟨rfl, rfl, rfl, rfl, rfl, rfl, rfl, rfl⟩, fun _ => ⟨rfl, fun _ => rfl⟩⟩
  case effect =>
    have wrote (f : RegFile) (mem : List Host.Cell) (h : Option Halt) :
        let t : State := { s.setLive f with mem := mem, halted := h }
        s.sameEnvironment t ∧ ∀ kind a, t.accessible kind a = s.accessible kind a :=
      ⟨⟨rfl, rfl, rfl, rfl, rfl, rfl, rfl, rfl⟩, fun _ _ => rfl⟩
    rw [execEffect_eq] at run
    have same := run_same s.live.pc e s
    match Effect.run s.live.pc e s, same, run with
    | .ok (br, _), ⟨f, mem, rfl⟩, run =>
      change outcome (finish s.live.pc op br { s.setLive f with mem := mem }) = _ at run
      rw [finish_plain (s := { s.setLive f with mem := mem }) plain] at run
      cases run
      exact wrote _ mem s.halted
    | .error (.halt h _), ⟨f, mem, rfl⟩, run => cases run; exact wrote f mem _
    | .error (.fault _), _, run => cases run
    | .error (.refuse _), _, run => cases run

end Sys2Proof.Machine
end

section
/-! The trap of a single-thread run, and the calls that return, block, or go through the unsupported-call policy (R126, R128
to R131). -/

namespace Sys2Proof.Machine

/-! ## The return point of a single-thread run -/

/-- With one thread the scheduler has no other choice, and nothing is switched (R132). -/
theorem returnPoint_single {s : State} (one : s.threads.length = 1) (zero : s.cur = 0) (live : s.current.live = true) :
    syscallReturnPoint s = checkSignals s := by
  have chosen : s.nextThread < 1 := one ▸ live_lt s (nextThread_live s ⟨s.cur, live⟩)
  have same : s.switchTo s.nextThread = s := by rw [State.switchTo, if_pos (by omega)]
  rw [syscallReturnPoint, same]

theorem checkSignals_quiet {s : State} (quiet : s.current.context.isSome = true ∨ s.current.deliverable = []) :
    checkSignals s = .ok s := quiet.elim checkSignals_inside checkSignals_none

theorem current_of_one {s : State} {th : Thread} (one : s.threads = [th]) (zero : s.cur = 0) : s.current = th := by
  simp [State.current, State.thread, one, zero]

/-- The trap of a single-thread run whose call gives an outcome, with no signal to deliver after it: the outcome's marks and
the clock (R107). -/
theorem exec_trap_single {s : State} {r : TrapResult} (roles : s.hasRoles) (traps : s.traps .trap = true)
    (call : handleTrap (s.after s.live.pc .trap) s = .ok r) {t : State}
    (marked : (trapNext (s.after s.live.pc .trap) r).tick s.cur = t) {th : Thread} (one : t.threads = [th]) (zero : t.cur = 0)
    (live : th.live = true) (quiet : th.context.isSome = true ∨ th.deliverable = []) : exec .trap s = .next t := by
  have current := current_of_one one zero
  rw [← current] at live quiet
  rw [exec_trap_of_hasRoles roles traps, call]
  show outcome (syscallReturnPoint ((trapNext _ r).tick s.cur)) = _
  rw [marked, returnPoint_single (by rw [one]; rfl) zero live, checkSignals_quiet quiet]
  rfl

theorem unblocked_live {t : Thread} (live : t.live = true) {u : Thread} (state : u.state = t.state.unblocked) :
    u.live = true := by
  have := live_eq_unblocked t
  rw [live] at this
  rw [Thread.live, state]
  exact this.symm

/-! ## The host's answers -/

/-- A forwarded call takes the next answer of the script (Log 10). -/
theorem hostCall_scripted {s : State} {r : HostReply} {rest : List HostReply} (script : s.replies = r :: rest) :
    hostCall s = applyReply r { s with replies := rest } := by
  simp only [hostCall, State.nextReply, script]

theorem after_trap_ref {s : State} (table : s.params.table = refTable) (p : Word) : s.after p .trap = p + 2 := by
  rw [State.after, itable_ref table]
  rfl

/-- Settles O39: the answer's value is returned, and the thread goes on. -/
theorem forwardedCallReturns : Obligations.ForwardedCallReturns := by
  intro s v rest th roles table one zero live requested script quiet
  have traps : s.traps .trap = true := by rw [traps_ref table]; rfl
  have call : handleTrap (s.after s.live.pc .trap) s = .ok (.ret v { s with replies := rest }) :=
    (handleTrap_of_call requested _).trans (hostCall_scripted script)
  refine exec_trap_single roles traps call ?marked rfl zero ?live ?quiet
  case marked =>
    rw [after_trap_ref table]
    simp [trapNext, State.tick, State.setCurrent, State.setThread, State.current, State.thread, one, zero, State.setReg,
      State.setPc, State.setLive]
  case live => exact unblocked_live live rfl
  case quiet => exact quiet

/-! ## Calls that block -/

/-- A wait with no matching zombie blocks (Log 20). -/
theorem waitCall_none {s : State} {target flags : Word} {accepted : List Word} (accepts : flags ∈ accepted)
    (none : ∀ th ∈ s.threads, s.harvestable target th = false) (buf : Word) :
    waitCall target flags buf accepted s = .ok (.block .blockedOnWait s) := by
  have contains : accepted.contains flags = true := by simpa using accepts
  simp only [waitCall, contains, if_true, List.findIdx?_eq_none_iff.2 none]

/-- A re-issued call's timeout is decreased by the time since it blocked (R131). -/
theorem decreaseTimeout_reissued {s : State} {timeout : Src} {remaining : Word} {since : Nat}
    (blocked : s.current.blockedAt = some since) (read : readSrc timeout s = .ok remaining)
    (left : s.time - since ≤ remaining.toNat) :
    decreaseTimeout timeout s = writeSrc timeout (remaining - BitVec.ofNat 32 (s.time - since)) s := by
  simp only [decreaseTimeout, blocked, read, bind, Except.bind, if_pos left]

/-- A suspend-style call that is no re-issue, or has no timeout, decreases none (R131). -/
theorem suspendCall_untimed {s : State} {timeout : Option Src} (untimed : timeout = none ∨ s.current.blockedAt = none)
    (mask : SigSet) : suspendCall mask timeout s = suspendCall mask none s := by
  cases timeout with
  | none => rfl
  | some src =>
    have fresh : s.current.blockedAt = none := untimed.resolve_left (by simp)
    have kept : decreaseTimeout src s = .ok s := by simp only [decreaseTimeout, fresh]
    rw [suspendCall_some, kept]
    rfl

/-- The record of a thread that enters a wait for any signal, or is in one already (R142). -/
def Thread.suspending (mask : SigSet) (t : Thread) : Thread :=
  if t.suspended then t else { t with savedBlocked := t.blocked, blocked := mask, suspended := true }

/-- The record of a thread that leaves a wait for any signal, if it is in one (Log 21). -/
def Thread.unsuspending (t : Thread) : Thread :=
  if t.suspended then { t with blocked := t.savedBlocked, suspended := false } else t

theorem suspend_current {s : State} (current : s.cur < s.threads.length) (mask : SigSet) :
    (s.suspend mask).current = s.current.suspending mask := by
  rw [State.suspend, Thread.suspending]
  split
  · rfl
  · exact current_setCurrent s _ current

theorem unsuspend_current {s : State} (current : s.cur < s.threads.length) :
    s.unsuspend.current = s.current.unsuspending := by
  rw [State.unsuspend, Thread.unsuspending]
  split
  · exact current_setCurrent s _ current
  · rfl

theorem suspending_suspended (mask : SigSet) (t : Thread) : (t.suspending mask).suspended = true := by
  rw [Thread.suspending]
  split
  · assumption
  · rfl

theorem unsuspending_suspended (t : Thread) : t.unsuspending.suspended = false := by
  rw [Thread.unsuspending]
  split
  · rfl
  · simpa using ‹¬ t.suspended = true›

/-- Leaving the wait blocks the stashed set again, whether it was stashed now or by the call blocked before (Log 21). -/
theorem unsuspending_suspending_blocked (mask : SigSet) (t : Thread) :
    (t.suspending mask).unsuspending.blocked = if t.suspended then t.savedBlocked else t.blocked := by
  rw [Thread.unsuspending, if_pos (suspending_suspended mask t), Thread.suspending]
  split <;> rfl

/-- What a suspend-style call leaves but for the current record: every other record, the live file and memory. -/
theorem suspend_frame (mask : SigSet) (s : State) :
    (s.suspend mask).cur = s.cur ∧ (s.suspend mask).threads.length = s.threads.length ∧
      (s.suspend mask).replies = s.replies ∧ (∀ j, j ≠ s.cur → (s.suspend mask).thread j = s.thread j) ∧
      (s.suspend mask).live = s.live ∧ s.sameMemory (s.suspend mask) := by
  rw [State.suspend]
  split
  · exact ⟨rfl, rfl, rfl, fun _ _ => rfl, rfl, fun _ => ⟨rfl, fun _ => rfl⟩⟩
  · exact ⟨rfl, by simp [State.setCurrent], rfl, fun j other => thread_setThread_other s _ other, rfl,
      fun _ => ⟨rfl, fun _ => rfl⟩⟩

theorem unsuspend_frame (s : State) :
    (∀ j, j ≠ s.cur → s.unsuspend.thread j = s.thread j) ∧ s.unsuspend.live = s.live ∧ s.sameMemory s.unsuspend := by
  rw [State.unsuspend]
  split
  · exact ⟨fun j other => thread_setThread_other s _ other, rfl, fun _ => ⟨rfl, fun _ => rfl⟩⟩
  · exact ⟨fun _ _ => rfl, rfl, fun _ => ⟨rfl, fun _ => rfl⟩⟩

/-- A suspend-style call that decreases no timeout: it blocks with its mask in force, or completes and leaves the
wait (R131, Log 21). -/
theorem suspendCall_answered {s : State} {timeout : Option Src} {rest : List HostReply} (current : s.cur < s.threads.length)
    (untimed : timeout = none ∨ s.current.blockedAt = none) (mask : SigSet) :
    (s.replies = .blockPoll :: rest →
      ∃ t, suspendCall mask timeout s = .ok (.block .blockedOnPollTimeout t) ∧ t.current.suspended = true ∧
        (s.current.suspended = false → t.current.savedBlocked = s.current.blocked ∧ t.current.blocked = mask) ∧
        (s.current.suspended = true → t.current = s.current) ∧
        (∀ j, j ≠ s.cur → t.thread j = s.thread j) ∧ t.live = s.live ∧ s.sameMemory t) ∧
    ∀ v, s.replies = .ret v [] :: rest →
      ∃ t, suspendCall mask timeout s = .ok (.ret v t) ∧ t.current.suspended = false ∧
        t.current.blocked = (if s.current.suspended then s.current.savedBlocked else s.current.blocked) ∧
        (∀ j, j ≠ s.cur → t.thread j = s.thread j) ∧ t.live = s.live ∧ s.sameMemory t := by
  obtain ⟨cur, length, script, others, live, memory⟩ := suspend_frame mask s
  have record := suspend_current current mask
  rw [suspendCall_untimed untimed, suspendCall_none]
  constructor
  · intro answer
    rw [hostCall_scripted (script.trans answer)]
    refine ⟨{ s.suspend mask with replies := rest }, rfl, ?_, fun fresh => ?_, fun again => ?_, others, live, memory⟩
    · exact (congrArg Thread.suspended record).trans (suspending_suspended mask _)
    · have stashed : s.current.suspending mask = _ := if_neg (by simp [fresh])
      exact ⟨congrArg Thread.savedBlocked (record.trans stashed), congrArg Thread.blocked (record.trans stashed)⟩
    · exact record.trans (if_pos again)
  · intro v answer
    rw [hostCall_scripted (script.trans answer)]
    let u : State := { s.suspend mask with replies := rest }
    have uCurrent : u.cur < u.threads.length := by rw [← cur, ← length] at current; exact current
    have uRecord : u.unsuspend.current = (s.current.suspending mask).unsuspending :=
      (unsuspend_current uCurrent).trans (congrArg Thread.unsuspending record)
    obtain ⟨others', live', memory'⟩ := unsuspend_frame u
    refine ⟨u.unsuspend, rfl, (congrArg Thread.suspended uRecord).trans (unsuspending_suspended _),
      (congrArg Thread.blocked uRecord).trans (unsuspending_suspending_blocked mask _),
      fun j other => (others' j fun here => other (here.trans cur)).trans (others j other), live'.trans live, fun a => ?_⟩
    exact ⟨(memory' a).1.trans (memory a).1, fun kind => ((memory' a).2 kind).trans ((memory a).2 kind)⟩

/-- A forwarded call that blocks in a single-thread run is a step: the clock counts it and the thread stays the current
one (R130, R132, R134). -/
theorem blockedStep_single {s : State} {rest : List HostReply} {th : Thread} (roles : s.hasRoles) (traps : s.traps .trap = true)
    (one : s.threads = [th]) (zero : s.cur = 0) (requested : s.requestedCall = some .forward)
    (script : s.replies = .blockPoll :: rest) (quiet : th.context.isSome = true ∨ th.deliverable = []) :
    exec .trap s = .next { s with
      threads := [{ th with
        state := th.state.blocking .blockedOnPollTimeout, atSyscall := true, blockedAt := some s.time, lastRun := s.time }]
      time := s.time + 1
      replies := rest } := by
  have call : handleTrap (s.after s.live.pc .trap) s = .ok (.block .blockedOnPollTimeout { s with replies := rest }) :=
    (handleTrap_of_call requested _).trans (hostCall_scripted script)
  refine exec_trap_single roles traps call ?marked rfl zero ?live ?quiet
  case marked =>
    simp [trapNext, State.tick, State.setCurrent, State.setThread, State.current, State.thread, one, zero]
  case live =>
    rw [Thread.live, ThreadState.blocking]
    split <;> rfl
  case quiet => exact quiet

/-- Settles O40: the marks of a blocking outcome, what a wait and a pipe write block on, the timeout of a re-issue, the
suspend-style call, and the step of a blocked call. -/
theorem blockedCallIsExecutedAgain : Obligations.BlockedCallIsExecutedAgain := by
  refine ⟨?marks, fun s target flags buf accepted accepts none => waitCall_none accepts none buf, ?pipe, ?timeout,
    fun s mask timeout rest current untimed => suspendCall_answered current untimed mask, ?step⟩
  case marks =>
    intro next s why current t
    have record : t.current = { s.current with
        state := s.current.state.blocking why, atSyscall := true, blockedAt := some s.time } :=
      current_setCurrent s _ current
    refine ⟨rfl, rfl, by rw [record], by rw [record], fun running => ?_, fun j other => thread_setThread_other s _ other,
      fun _ => ⟨rfl, fun _ => rfl⟩⟩
    rw [record]
    show s.current.state.blocking why = why
    rw [running]
    rfl
  case pipe =>
    intro s fds current
    exact ⟨_, rfl, congrArg Thread.pipeWait (current_setCurrent s _ current), rfl⟩
  case timeout =>
    intro s timeout remaining since blocked read left again
    have decreased := decreaseTimeout_reissued blocked read left
    refine ⟨?_, fun mask => ?_⟩
    · rw [pollCall, decreased]
    · rw [suspendCall_some, decreased]
  case step =>
    intro s rest th roles traps one zero _ requested script quiet
    refine ⟨_, blockedStep_single roles traps one zero requested script quiet, rfl, ?_, ?_, rfl, zero,
      fun _ => ⟨rfl, fun _ => rfl⟩⟩
    all_goals simp [State.current, State.thread, zero]

/-! ## The unsupported-call policy -/

/-- Settles O41: the three branches of `unsupported`, and the calls that take it. -/
theorem unsupportedCallPolicy : Obligations.UnsupportedCallPolicy := by
  refine ⟨?policy, rfl, fun s t run => congrArg Launch.policy (step_launch run), fun s next unlisted => ?unlisted,
    fun s next requested outside => ?noHandler⟩
  case policy =>
    intro s next cause d e returned
    refine ⟨fun silent => ?silent, fun issued => ?issued, fun fatal => ?fatal⟩
    case silent => exact ⟨by simp only [unsupported, silent]; rfl, rfl, rfl⟩
    case issued =>
      exact ⟨{ s with diagnostics := d :: s.diagnostics }, by simp only [unsupported, issued]; rfl, rfl, rfl, rfl⟩
    case fatal =>
      exact ⟨{ s with diagnostics := d :: s.diagnostics, halted := some (.unsupported d) },
        by simp only [unsupported, fatal]; rfl, rfl, rfl, rfl⟩
  case unlisted => simp only [handleTrap, unlisted]
  case noHandler =>
    rw [handleTrap_of_call requested]
    simp only [runCall, returnFromHandler, outside]

end Sys2Proof.Machine
end

section
/-! Clone, exit and wait (R136 to R138). -/

namespace Sys2Proof.Machine

/-! ## Clone -/

/-- A new thread takes the first free slot (R136, Log 12). -/
theorem placeThread_free {s : State} {k : Nat} (inTable : k < s.threads.length) (free : (s.thread k).state = .free)
    (used : ∀ j, j < k → (s.thread j).state ≠ .free) (t : Thread) : s.placeThread t = some (s.setThread k t) := by
  have found : s.threads.findIdx? (fun u => u.state == .free) = some k :=
    findIdx?_eq_some_iff_thread.2 ⟨inTable, by simp [free], fun j hj => by simpa using used j hj⟩
  simp only [State.placeThread, found]

/-- With no free slot a new thread takes the next one, while the table is not full (R136, Log 12). -/
theorem placeThread_used {s : State} (used : ∀ th ∈ s.threads, th.state ≠ .free) (t : Thread) :
    s.placeThread t =
      if s.threads.length < s.launch.maxThreads then some { s with threads := s.threads ++ [t] } else none := by
  have none : s.threads.findIdx? (fun u => u.state == .free) = none :=
    List.findIdx?_eq_none_iff.2 fun th hth => by simpa using used th hth
  simp only [State.placeThread, none]

theorem cloneCall_placed {s u : State} {next newSp exitSignal : Word} (sp : s.hasReg s.params.spReg)
    (ret : s.hasReg s.params.retReg) (placed : s.placeThread (s.newThread next newSp exitSignal) = some u) :
    cloneCall next newSp exitSignal s = .ok (.ret s.newId u) := by
  have roles : checkRoles s.params [s.params.spReg, s.params.retReg] = .ok () := checkRoles_ok (by simpa using ⟨sp, ret⟩)
  have placed : s.placeThread (Thread.child s.newId s.current.tid exitSignal (s.live.childOf s.params newSp next)) = some u :=
    placed
  simp only [cloneCall, placed, roles]
  rfl

theorem cloneCall_full {s : State} (used : ∀ th ∈ s.threads, th.state ≠ .free) (full : s.launch.maxThreads ≤ s.threads.length)
    (next newSp exitSignal : Word) :
    cloneCall next newSp exitSignal s = .ok (.ret (Config.errnoWord .threadTableFull) s) := by
  simp only [cloneCall, placeThread_used used, if_neg (Nat.not_lt.2 full)]
  rfl

/-- A new thread has no signal to deliver: its slots are the defaults (R136). -/
theorem child_deliverable (id parent exitSignal : Word) (file : RegFile) :
    (Thread.child id parent exitSignal file).deliverable = [] := by
  refine List.eq_nil_iff_forall_not_mem.2 fun k hk => ?_
  obtain ⟨-, handler, dispatched⟩ := mem_deliverable.1 hk
  have default : (Thread.child id parent exitSignal file).handler k = .default := handler_of_default rfl k
  rw [Thread.dispatch, default] at dispatched
  cases dispatched

/-- The return point after a clone in a single-thread run: the new thread is next, and takes the live place with the file it
parked (R132, R136). -/
theorem returnPoint_cloned {s : State} {th child : Thread} {file : RegFile} (two : s.threads = [th, child]) (zero : s.cur = 0)
    (live : th.live = true) (childLive : child.live = true) (runs : child.atSyscall = false)
    (parked : child.parked = some file) (quiet : child.deliverable = []) :
    syscallReturnPoint s = .ok { s with
      live := file, threads := [{ th with parked := some s.live }, { child with parked := none }], cur := 1 } := by
  have first : s.thread 0 = th := by simp [State.thread, two]
  have second : s.thread 1 = child := by simp [State.thread, two]
  have chosen : s.nextThread = 1 := by
    have next := nextThread_of_first_eligible (s := s) (d := 0) (by simp [two])
      (by simp [zero, two, State.eligible, second, childLive, runs]) fun e he => absurd he (Nat.not_lt_zero e)
    simpa [zero, two] using next
  have current : s.current.live = true := by rw [State.current, zero, first]; exact live
  have switched : s.switchTo 1 = { s with
      live := file, threads := [{ th with parked := some s.live }, { child with parked := none }], cur := 1 } := by
    rw [switchTo_of_live (by omega) current, unpark_of_parked (f := file)]
    · simp [State.setCurrent, State.setThread, State.current, State.thread, zero, two]
    · rw [State.setCurrent, thread_setThread_other _ _ (by omega), second, parked]
  rw [syscallReturnPoint, chosen, switched]
  exact checkSignals_none quiet

/-- Settles O42: the new thread's place by `placeThread_free` and `placeThread_used`, its id by `newId_fresh`, and the step
of a single-thread run by `returnPoint_cloned`. -/
theorem cloneMakesAThread : Obligations.CloneMakesAThread := by
  refine ⟨?single, ?free, fun s next newSp exitSignal used full => cloneCall_full used full next newSp exitSignal⟩
  case single =>
    intro s newSp exitSignal sp sg th roles table one zero live requested readSp readSg room
    have traps : s.traps .trap = true := by rw [traps_ref table]; rfl
    have current := current_of_one one zero
    have used : ∀ t ∈ s.threads, t.state ≠ .free := by rw [one]; simpa using used_of_live live
    have length : s.threads.length = 1 := by rw [one]; rfl
    let next := s.live.pc + 2
    let child := s.newThread next sp sg
    have call : handleTrap next s = .ok (.ret s.newId { s with threads := [th, child] }) := by
      rw [handleTrap_of_call requested]
      simp only [runCall, readSp, readSg]
      refine cloneCall_placed (roles _ (by simp [abiRoles])) (roles _ (by simp [abiRoles])) ?_
      rw [placeThread_used used, if_pos (by omega), one]
      rfl
    let file := (s.live.setReg s.params.retReg s.newId).setPc next
    let th' : Thread := { th with
      state := th.state.unblocked, atSyscall := false, blockedAt := none, pipeWait := [], lastRun := s.time }
    let u : State := { s with live := file, threads := [th', child], time := s.time + 1 }
    have marked : (trapNext next (.ret s.newId { s with threads := [th, child] })).tick s.cur = u := by
      simp [trapNext, State.tick, State.setCurrent, State.setThread, State.current, State.thread, zero, State.setReg,
        State.setPc, State.setLive, u, th', file]
    let t : State := { u with
      live := s.live.childOf s.params sp next, cur := 1
      threads := [{ th' with parked := some file }, { child with parked := none }] }
    have returned : syscallReturnPoint u = .ok t :=
      returnPoint_cloned rfl zero (unblocked_live live rfl) rfl rfl rfl (child_deliverable ..)
    refine ⟨t, s.newId, ?step, fun same => ?fresh, rfl, rfl, rfl, rfl, rfl, handler_of_default rfl, rfl, rfl, rfl,
      fun _ => ⟨rfl, fun _ => rfl⟩⟩
    case step =>
      rw [exec_trap_of_hasRoles roles traps, after_trap_ref table, call]
      show outcome (syscallReturnPoint ((trapNext next (.ret s.newId { s with threads := [th, child] })).tick s.cur)) = _
      rw [marked, returned]
      rfl
    case fresh =>
      refine newId_fresh (s := s) (by omega) (mem_usedIds.2 ⟨s.cur, ?_, ?_⟩)
      · rw [← State.current, current]; exact used_of_live live
      · rw [← State.current, current, same]
  case free =>
    intro s next newSp exitSignal k sp ret room inTable free first
    refine ⟨s.newId, s.setThread k (s.newThread next newSp exitSignal),
      cloneCall_placed sp ret (placeThread_free inTable free first _), fun th hth used same => ?_, rfl⟩
    obtain ⟨j, hj, rfl⟩ := List.mem_iff_getElem.1 hth
    rw [← thread_getElem s hj] at used same
    exact newId_fresh room (mem_usedIds.2 ⟨j, used, same⟩)

/-! ## Exit -/

theorem handleTrap_exit {s : State} {code : Src} {v : Word} (requested : s.requestedCall = some (.exit code))
    (read : readSrc code s = .ok v) (next : Word) :
    handleTrap next s = if (s.exiting v).threads.any (·.live) then .ok (.exited (s.exiting v))
      else .error (.halt (.exit v) (s.exiting v)) := by
  rw [handleTrap_of_call requested]
  simp only [runCall, read]
  rfl

/-- The threads after the current one's exit: a zombie in its place (R137). -/
theorem exiting_thread {s : State} (current : s.cur < s.threads.length) (v : Word) (k : Nat) :
    (s.exiting v).thread k = if k = s.cur then s.current.exited v else s.thread k := by
  rw [State.exiting, State.setCurrent, thread_setThread]
  simp [current]

/-- Settles O43: the last live thread's exit ends the run in the call, and any other leaves `exiting`. -/
theorem exitLeavesAZombie : Obligations.ExitLeavesAZombie := by
  intro s code v requested read current
  have record : (s.exiting v).current = s.current.exited v := current_setCurrent s _ current
  have call := handleTrap_exit requested read
  refine ⟨fun roles traps last => ?halts, fun ⟨k, other, live⟩ next => ?goesOn⟩
  case halts =>
    have dead : (s.exiting v).threads.any (·.live) = false := by
      refine Bool.eq_false_iff.2 fun any => ?_
      obtain ⟨k, live⟩ := any_live_iff.1 any
      rw [exiting_thread current] at live
      split at live
      · cases live
      · rename_i other; rw [last k other] at live; cases live
    rw [exec_trap_of_hasRoles roles traps, call, dead, if_neg Bool.false_ne_true]
    exact ⟨_, rfl, rfl, congrArg Thread.state record, congrArg Thread.exitValue record, congrArg Thread.parked record,
      congrArg Thread.context record⟩
  case goesOn =>
    have any : (s.exiting v).threads.any (·.live) = true :=
      any_live_iff.2 ⟨k, by rw [exiting_thread current, if_neg other]; exact live⟩
    rw [call, any, if_pos rfl]
    exact ⟨_, rfl, congrArg Thread.state record, congrArg Thread.exitValue record, congrArg Thread.parked record,
      congrArg Thread.context record, fun j other => (exiting_thread current v j).trans (if_neg other), rfl⟩

/-! ## Wait -/

theorem harvestable_iff {s : State} {target : Word} {th : Thread} :
    s.harvestable target th = true ↔
      th.state = .zombie ∧ th.parent = s.current.tid ∧ (target = 0xFFFFFFFF ∨ th.tid = target) := by
  simp [State.harvestable, anyChild, and_assoc]

/-- The steps of a wait that finds a zombie (R138). -/
theorem waitCall_found {s : State} {target flags : Word} {accepted : List Word} {k : Nat} (accepts : flags ∈ accepted)
    (found : s.threads.findIdx? (s.harvestable target) = some k) (buf : Word) :
    waitCall target flags buf accepted s = (do
      let u ← if buf = 0 then pure s else writeMem buf (wordBytes s.params.endian (s.thread k).exitValue) s
      pure (.ret (s.thread k).tid (u.setThread k Thread.empty))) := by
  have contains : accepted.contains flags = true := by simpa using accepts
  simp only [waitCall, contains, if_true, found]

/-- Settles O44: the zombie found first is harvested, after the write of the buffer if there is one. -/
theorem waitHarvestsAZombie : Obligations.WaitHarvestsAZombie := by
  intro s target flags buf accepted accepts matching ⟨th, hth, matched⟩
  obtain ⟨k, found⟩ : ∃ k, s.threads.findIdx? (s.harvestable target) = some k := by
    refine Option.isSome_iff_exists.1 ?_
    rw [List.findIdx?_isSome, List.any_eq_true]
    exact ⟨th, hth, harvestable_iff.2 matched⟩
  obtain ⟨inTable, here, before⟩ := findIdx?_eq_some_iff_thread.1 found
  have first (j : Nat) (hj : j < k) : ¬ matching (s.thread j) := fun h => by
    have := before j hj
    rw [harvestable_iff.2 h] at this
    cases this
  have call := waitCall_found accepts found buf
  let bytes := wordBytes s.params.endian (s.thread k).exitValue
  have length : bytes.length = 4 := wordBytes_length ..
  refine ⟨fun granted => ?harvested, fun bad given faults => ?faulted⟩
  case harvested =>
    by_cases noBuffer : buf = 0
    · rw [call, if_pos noBuffer]
      exact ⟨k, s.setThread k Thread.empty, rfl, inTable, harvestable_iff.1 here, first, thread_setThread_self s _ inTable,
        fun j other => thread_setThread_other s _ other, fun given => absurd noBuffer given, fun _ _ => rfl, rfl⟩
    · have writable : s.firstFault .write bytes.length buf = none := by rw [length]; exact granted.resolve_left noBuffer
      let u : State := { s with mem := Memory.storeBytes buf bytes s.mem }
      have stored : u.bytesAt bytes.length buf = bytes := bytesAt_stored (s := s) rfl (by rw [length]; decide)
      rw [call, if_neg noBuffer, writeMem_ok writable]
      refine ⟨k, u.setThread k Thread.empty, rfl, inTable, harvestable_iff.1 here, first,
        thread_setThread_self u _ inTable, fun j other => thread_setThread_other u _ other, fun _ => ?_, fun a apart => ?_, rfl⟩
      · have same : (u.setThread k Thread.empty).bytesAt 4 buf = u.bytesAt 4 buf := bytesAt_congr fun _ _ => rfl
        rw [same, ← length]
        exact stored
      · exact byteAt_other (s := s) (t := u.setThread k Thread.empty) rfl rfl fun j hj =>
          (apart.resolve_left noBuffer) j (by rwa [length] at hj)
  case faulted =>
    have faults : s.firstFault .write bytes.length buf = some bad := by rw [length]; exact faults
    rw [call, if_neg given, writeMem_eq_addressFault faults]
    rfl

end Sys2Proof.Machine
end
